-- ==== Sys2Proof/Word.lean ====
section
/-! DEFINITION. The byte, the 32-bit header word, the pixel, the header record and the cache array
(spec/10_state.md R20, R23, R28). -/

namespace Sys2Proof

/-- `u8` of 00_scope.md R12. -/
abbrev Byte := BitVec 8

/-- `u32` of 00_scope.md R12: the type of the header's width and height. -/
abbrev Word := BitVec 32

/-- 10_state.md R20: four independent unsigned bytes.  Equality of pixels is the derived
four-field equality, alpha included (R21). -/
structure Pixel where
  r : Byte
  g : Byte
  b : Byte
  a : Byte
  deriving DecidableEq, Repr, Inhabited

/-- 10_state.md R23: a header is a value.  Which headers are legal is `hdrValid`. -/
structure Header where
  width : Word
  height : Word
  channels : Byte
  colorspace : Byte
  deriving DecidableEq, Repr, Inhabited

/-- 10_state.md R28: 64 slots, each one pixel. -/
abbrev Cache := Vector Pixel 64

end Sys2Proof
end

