-- ==== Sys2Proof/Config.lean ====
section
/-! DEFINITION. The free values: what the spec leaves open as "any value"
(spec/93_implementation_defined.md U1, U2, U3).  None has a body, so nothing can be proved about one.
Each takes the place it stands at, the number of failures that place has had, and an index.
Log entry 1. -/

namespace Sys2Proof.Config

/-- The unit in which a free value stands, so that two units share none. -/
inductive Site where
  | enc
  | dec
  | hd
  deriving DecidableEq, Repr, Inhabited

/-- Content of a destination after a failure (20_memory.md R67), by byte address. -/
opaque freeByte : Site → Nat → Nat → Byte

/-- Pixel registers and cache slots of an engine after a failure (60_exceptions.md R226). -/
opaque freePixel : Site → Nat → Nat → Pixel

/-- Cursors and run counters after a failure (60_exceptions.md R226), header fields after a failed
DECODE_HEADER (U2). -/
opaque freeNat : Site → Nat → Nat → Nat

end Sys2Proof.Config
end

