-- ==== Sys2Proof/Syntax.lean ====
section
/-! DEFINITION. The six opcodes (spec/00_scope.md R3), one constructor for each row of
spec/opcode_table.json.  Operands are the decoded values of spec/30_encoding.md R88 and R94, not the
stored fields. -/

namespace Sys2Proof

/-- 30_encoding.md R94: the operands as its assembler notation writes them. -/
inductive Instr where
  /-- INDEX `slot`: R83. -/
  | index (slot : Fin 64)
  /-- DIFF `dr, dg, db`: R84. -/
  | diff (dr dg db : Int)
  /-- LUMA `dg, dr-dg, db-dg`: R85. -/
  | luma (dg drg dbg : Int)
  /-- RUN `n`, the number of pixels: R86. -/
  | run (n : Nat)
  /-- RGB `r, g, b`: R87. -/
  | rgb (r g b : Byte)
  /-- RGBA `r, g, b, a`: R87. -/
  | rgba (r g b a : Byte)
  deriving DecidableEq, Repr, Inhabited

end Sys2Proof
end

