-- ==== Sys2Proof/Decode.lean ====
section
/-! DEFINITION. From bytes to an opcode and back (spec/30_encoding.md R80 to R95), and the opcode
table's rows (spec/opcode_table.json). -/

namespace Sys2Proof

/-- `b[lo+w-1 : lo]` of 00_scope.md R12: the unsigned number made of `w` bits from bit `lo` up. -/
def bitField (b : Byte) (lo w : Nat) : Nat := b.toNat / 2 ^ lo % 2 ^ w

/-- `b[7:6]`, "the two-bit tag" of an opcode byte (00_scope.md R12). -/
def twoBitTag (b : Byte) : Nat := bitField b 6 2

/-- `TAG_RGB` and `TAG_RGBA` of 00_scope.md R10. -/
def tagRgb : Byte := 0xFE#8

def tagRgba : Byte := 0xFF#8

/-- 30_encoding.md R80: the first byte alone fixes the length. -/
def opcodeLength (b1 : Byte) : Nat :=
  if b1 = tagRgb then 4
  else if b1 = tagRgba then 5
  else if twoBitTag b1 = 2 then 2
  else 1

/-- Why bytes do not begin with a complete opcode.  No first byte is illegal (R89), so the bytes can
only be too few. -/
inductive DecodeError where
  | noByte
  | operandsMissing (mnemonic : String)
  deriving DecidableEq, Repr

/-- 30_encoding.md R84: the biased fields of a DIFF byte. -/
def diffOf (b1 : Byte) : Instr :=
  .diff ((bitField b1 4 2 : Int) - 2) ((bitField b1 2 2 : Int) - 2) ((bitField b1 0 2 : Int) - 2)

/-- 30_encoding.md R85: the biased fields of the two LUMA bytes. -/
def lumaOf (b1 b2 : Byte) : Instr :=
  .luma ((bitField b1 0 6 : Int) - 32) ((bitField b2 4 4 : Int) - 8) ((bitField b2 0 4 : Int) - 8)

/-- 30_encoding.md R81: the two full-byte tags first, then the two-bit tag; the fields are those of
R83 to R88.  Answers the opcode and the bytes after it. -/
def decode : List Byte → Except DecodeError (Instr × List Byte)
  | [] => .error .noByte
  | b1 :: rest =>
    if b1 = tagRgb then
      match rest with
      | r :: g :: b :: rest' => .ok (.rgb r g b, rest')
      | _ => .error (.operandsMissing "RGB")
    else if b1 = tagRgba then
      match rest with
      | r :: g :: b :: a :: rest' => .ok (.rgba r g b a, rest')
      | _ => .error (.operandsMissing "RGBA")
    else if twoBitTag b1 = 0 then .ok (.index (Fin.ofNat 64 (bitField b1 0 6)), rest)
    else if twoBitTag b1 = 1 then .ok (diffOf b1, rest)
    else if twoBitTag b1 = 2 then
      match rest with
      | b2 :: rest' => .ok (lumaOf b1 b2, rest')
      | _ => .error (.operandsMissing "LUMA")
    else .ok (.run (bitField b1 0 6 + 1), rest)

/-- `encode_op` of 30_encoding.md R95. -/
def encode : Instr → List Byte
  | .index slot => [BitVec.ofNat 8 slot.val]
  | .diff dr dg db => [BitVec.ofInt 8 (0x40 + (dr + 2) * 16 + (dg + 2) * 4 + (db + 2))]
  | .luma dg drg dbg =>
    [BitVec.ofInt 8 (0x80 + (dg + 32)), BitVec.ofInt 8 ((drg + 8) * 16 + (dbg + 8))]
  | .run n => [BitVec.ofNat 8 (0xC0 + (n - 1))]
  | .rgb r g b => [tagRgb, r, g, b]
  | .rgba r g b a => [tagRgba, r, g, b, a]

/-- The name of an opcode as spec/opcode_table.json spells it. -/
def Instr.mnemonic : Instr → String
  | .index _ => "INDEX"
  | .diff _ _ _ => "DIFF"
  | .luma _ _ _ => "LUMA"
  | .run _ => "RUN"
  | .rgb _ _ _ => "RGB"
  | .rgba _ _ _ _ => "RGBA"

/-- One row of spec/opcode_table.json: `match`, `mask` and `exclude` apply to the first byte. -/
structure OpcodeRow where
  mnemonic : String
  value : Byte
  mask : Byte
  exclude : List Byte
  lengthBytes : Nat
  deriving DecidableEq, Repr

/-- The six rows, in the table's order. -/
def opcodeRows : List OpcodeRow :=
  [ ⟨"RGB", 0xFE#8, 0xFF#8, [], 4⟩,
    ⟨"RGBA", 0xFF#8, 0xFF#8, [], 5⟩,
    ⟨"INDEX", 0x00#8, 0xC0#8, [], 1⟩,
    ⟨"DIFF", 0x40#8, 0xC0#8, [], 1⟩,
    ⟨"LUMA", 0x80#8, 0xC0#8, [], 2⟩,
    ⟨"RUN", 0xC0#8, 0xC0#8, [0xFE#8, 0xFF#8], 1⟩ ]

/-- Does a first byte select the row? -/
def OpcodeRow.selects (row : OpcodeRow) (b1 : Byte) : Bool :=
  (b1 &&& row.mask == row.value) && !row.exclude.contains b1

/-- Bytes 0 to 4 of a number whose bits the opcode table numbers from the first byte up, bits from
`nbits` on taken as zero.  Five bytes are the longest opcode (30_encoding.md R80). -/
def tableBytes (nbits w : Nat) : List Byte :=
  [0, 8, 16, 24, 32].map fun k => BitVec.ofNat 8 (w % 2 ^ nbits / 2 ^ k)

/-- The opcode the decoder reads from those bytes. -/
def decodeTableWord (nbits w : Nat) : Option Instr :=
  match decode (tableBytes nbits w) with
  | .ok (i, _) => some i
  | .error _ => none

end Sys2Proof
end

