-- ==== Sys2Proof/Machine/Operands.lean ====
section
/-! DEFINITION. Constants, 8-bit arithmetic, byte order, the pixel layout and the hash: everything a
meaning computes from operands alone (spec/00_scope.md R10, R12; 20_memory.md R52, R54;
41_pixel_cache_hash.md R120). -/

namespace Sys2Proof.Machine

/-! ### Constants (00_scope.md R10) -/

/-- `HEADER_LEN`: where decoding starts and where the encoder's opcode stream starts. -/
def headerLen : Nat := 14

/-- `END_LEN`, the document's `src_end` (90_conflicts.md C8). -/
def endLen : Nat := 8

/-- `MIN_STREAM_LEN`. -/
def minStreamLen : Nat := 22

/-- `MAGIC`, the bytes of ASCII "qoif" (40_header_serializer.md R111). -/
def magic : List Byte := [0x71#8, 0x6F#8, 0x69#8, 0x66#8]

/-- `END_MARKER`. -/
def endMarker : List Byte := [0#8, 0#8, 0#8, 0#8, 0#8, 0#8, 0#8, 1#8]

/-- `PIXELS_GUARD`. -/
def pixelsGuard : Nat := 400000000

/-- `RUN_MAX`: pixels in one RUN opcode. -/
def runMax : BitVec 6 := 62#6

/-- `INIT_PREV`. -/
def initPrev : Pixel := ⟨0#8, 0#8, 0#8, 255#8⟩

/-- One slot of `INIT_CACHE`. -/
def zeroPixel : Pixel := ⟨0#8, 0#8, 0#8, 0#8⟩

/-- `INIT_CACHE`: 64 zero slots. -/
def initCache : Cache := Vector.replicate 64 zeroPixel

/-! ### Wrapping 8-bit arithmetic (00_scope.md R12) -/

/-- `add8(x, d) = (x + d) mod 256`, for any integer `d`. -/
def add8 (x : Byte) (d : Int) : Byte := BitVec.ofInt 8 ((x.toNat : Int) + d)

/-- `s8(v)`: the signed reading of the low 8 bits of an integer. -/
def s8 (v : Int) : Int := if v % 256 < 128 then v % 256 else v % 256 - 256

/-- `delta8(x, y) = s8(x - y)`, the "wrapping 8-bit signed difference". -/
def delta8 (x y : Byte) : Int := s8 ((x.toNat : Int) - (y.toNat : Int))

/-- The colour channels moved by three deltas, alpha kept: the shared arithmetic of DIFF and LUMA
(43_opcode_decoder.md R187, R188). -/
def addDeltas (p : Pixel) (dr dg db : Int) : Pixel :=
  { r := add8 p.r dr, g := add8 p.g dg, b := add8 p.b db, a := p.a }

/-! ### Byte order (20_memory.md R52) -/

/-- `BE32`: the byte at the lower address is the more significant. -/
def ofBE32 (b0 b1 b2 b3 : Byte) : Word :=
  BitVec.ofNat 32 (b0.toNat * 2 ^ 24 + b1.toNat * 2 ^ 16 + b2.toNat * 2 ^ 8 + b3.toNat)

/-- `be32`, its inverse: four bytes, most significant first. -/
def be32 (v : Word) : List Byte :=
  [BitVec.ofNat 8 (v.toNat / 2 ^ 24), BitVec.ofNat 8 (v.toNat / 2 ^ 16),
    BitVec.ofNat 8 (v.toNat / 2 ^ 8), BitVec.ofNat 8 v.toNat]

/-! ### Pixels in a raw buffer (20_memory.md R54) -/

/-- How many bytes a pixel step reads or writes: three, and a fourth with four channels
(42_opcode_encoder.md R143; 43_opcode_decoder.md R193). -/
def pixelWidth (channels : Byte) : Nat := if channels = 4#8 then 4 else 3

/-- The bytes of one pixel, in the order r, g, b and, with four channels, a (R54; 43 R193). -/
def pixelBytes (channels : Byte) (p : Pixel) : List Byte :=
  if channels = 4#8 then [p.r, p.g, p.b, p.a] else [p.r, p.g, p.b]

/-! ### The pixelHash (41_pixel_cache_hash.md R120) -/

/-- `hash(p) = (p.r*3 + p.g*5 + p.b*7 + p.a*11) mod 64`, summed exactly. -/
def pixelHash (p : Pixel) : Fin 64 :=
  Fin.ofNat 64 (p.r.toNat * 3 + p.g.toNat * 5 + p.b.toNat * 7 + p.a.toNat * 11)

end Sys2Proof.Machine
end

