-- ==== Sys2Proof/Machine/State.lean ====
section
/-! DEFINITION. The machine's state (spec/10_state.md, spec/20_memory.md R50), the host's inputs, the
reasons a step can stop, and the state after power-on. -/

namespace Sys2Proof.Machine

/-! ### Byte spaces -/

/-- What the host says a buffer holds: the facts behind duties 2 and 7 of 70_reset_and_hazards.md R252
(log entry 7). -/
inductive Content where
  /-- Pixels in the layout of 20_memory.md R54, with this many bytes each. -/
  | raw (channels : Byte)
  /-- A qoif bitstream of this length. -/
  | stream (length : Nat)
  /-- Neither. -/
  | other
  deriving DecidableEq, Repr, Inhabited

/-- One of the byte spaces of 20_memory.md R50: an array of `size` bytes addressed from 0.  `cells`
lists the bytes other than 0, addresses strictly rising (log entry 2).  `base` is where the host keeps
the buffer and `content` what it says the buffer holds; the block never sees them, and only the host's
duties read them (log entries 3 and 7). -/
structure Memory where
  base : Nat
  content : Content
  size : Nat
  cells : List Host.Cell
  deriving DecidableEq, Repr, Inhabited

/-- The six spaces of 20_memory.md R50. -/
inductive SpaceName where
  | encSrc
  | encDst
  | decSrc
  | decDst
  | heDst
  | hdSrc
  deriving DecidableEq, Repr

/-! ### Results -/

/-- The failure kinds of 60_exceptions.md R221, with OK: the value of a `STATUS` register.  Its 2-bit
code is `Status.code`. -/
inductive Status where
  | ok
  | invalidHeader
  | bufferTooSmall
  | encodeFailure
  deriving DecidableEq, Repr, Inhabited

/-! ### The units -/

/-- ENC: the registers of 10_state.md R24, R27, R28, its parameter and result registers (R30, R31) and
its two spaces. -/
structure EncEngine where
  prev : Pixel
  px : Pixel
  run : BitVec 6
  cache : Cache
  i : Nat
  o : Nat
  flip : Bool
  srcLen : Nat
  dstCap : Nat
  outLen : Nat
  status : Status
  src : Memory
  dst : Memory
  /-- An ENCODE command is in progress. -/
  busy : Bool
  /-- How many ENCODE commands have failed: the index of the next free values. -/
  free : Nat
  deriving DecidableEq, Repr, Inhabited

/-- DEC: the registers of 10_state.md R25, R26, R27, R28, its parameter and result registers (R30,
R31) and its two spaces. -/
structure DecEngine where
  px : Pixel
  run : BitVec 6
  cache : Cache
  p : Nat
  i : Nat
  width : Word
  height : Word
  channels : Byte
  srcLen : Nat
  dstCap : Nat
  ok : Bool
  status : Status
  src : Memory
  dst : Memory
  /-- A DECODE command is in progress. -/
  busy : Bool
  /-- How many DECODE commands have failed: the index of the next free values. -/
  free : Nat
  deriving DecidableEq, Repr, Inhabited

/-- ENCODE_HEADER: its result registers (10_state.md R31) and its destination. -/
structure HeUnit where
  ok : Bool
  status : Status
  dst : Memory
  deriving DecidableEq, Repr, Inhabited

/-- DECODE_HEADER: its parameter and result registers (10_state.md R30, R31) and its source. -/
structure HdUnit where
  srcLen : Nat
  src : Memory
  ok : Bool
  status : Status
  width : Word
  height : Word
  channels : Byte
  colorspace : Byte
  /-- How many DECODE_HEADER commands have failed: the index of the next free values. -/
  free : Nat
  deriving DecidableEq, Repr, Inhabited

/-! ### The host's inputs -/

/-- The five commands of 00_scope.md R8. -/
inductive Command where
  | encodeHeader
  | decodeHeader
  | maxSize
  | encode
  | decode
  deriving DecidableEq, Repr

/-- What the host can do to the block: write a parameter register (10_state.md R30), hand over a
buffer (20_memory.md R50), touch a byte of a buffer it owns (R64), pass an encoded stream on to the
decoder (R65), issue a command (00_scope.md R8). -/
inductive HostOp where
  | setHdr (header : Header)
  | setEnc (flip : Bool) (srcLen dstCap : Nat)
  | setDec (width height : Word) (channels : Byte) (srcLen dstCap : Nat)
  | setHd (srcLen : Nat)
  | give (space : SpaceName) (base : Nat) (content : Content) (bytes : List Byte)
  | writeByte (space : SpaceName) (address : Nat) (value : Byte)
  | readByte (space : SpaceName) (address : Nat)
  | passStream
  | issue (command : Command)
  deriving DecidableEq, Repr

/-- The agents of 00_scope.md R9. -/
inductive Agent where
  | host
  | enc
  | dec
  deriving DecidableEq, Repr

/-- All of it.  `hdr` holds the parameter registers `HDR.*`, `ms` the result register `MS.size`.
`script` is what the host will do, in order; `sched` says which agents move next (log entry 4). -/
structure State where
  hdr : Header
  enc : EncEngine
  dec : DecEngine
  he : HeUnit
  hd : HdUnit
  ms : Nat
  script : List HostOp
  sched : List Agent
  deriving DecidableEq, Repr, Inhabited

/-! ### Reasons to stop -/

/-- Faults: the machine has no next state.  20_memory.md R51 gives an access outside a space no
meaning and says that no command makes one. -/
inductive Fault where
  /-- A read outside a space: raised by an engine whose lengths a launch did not check.  No run
  reaches it.  Safe: the model stops. -/
  | readOutside (space : SpaceName) (address : Nat)
  /-- A write outside a space: as above.  Safe. -/
  | writeOutside (space : SpaceName) (address : Nat)
  /-- The bytes fetched for an opcode are no complete opcode: raised by the decoder's fetch, which
  always reads a complete one, so no state reaches it.  Safe. -/
  | undecodable (reason : DecodeError)
  deriving DecidableEq, Repr

/-- Refusals: launches and host acts to which the spec gives no meaning
(93_implementation_defined.md U14, U15).  Each is safe: the model claims nothing. -/
inductive Refusal where
  /-- An instruction without a meaning.  Raised by no arm of `exec`.  Safe. -/
  | notModelled (mnemonic : String)
  /-- A command issued to a running engine (60_exceptions.md R232).  Raised by a launch.  Safe. -/
  | engineBusy (command : Command)
  /-- A length register above the real size of its buffer (70_reset_and_hazards.md R252 duty 4).
  Raised by a launch.  Safe. -/
  | lengthNotTrue (space : SpaceName)
  /-- `HDR.channels` is not the bytes per pixel of the buffer in `ENC.src` (R252 duty 2).  Raised by a
  launch.  Safe. -/
  | channelsNotTrue
  /-- `DEC.src_len` is not the length of the bitstream in `DEC.src` (R252 duty 7).  Raised by a launch.
  Safe. -/
  | streamLengthNotTrue
  /-- Spaces that overlap in the host's memory, not all of them read only (20_memory.md R64 (c)).
  Raised by a launch.  Safe. -/
  | overlap (command : Command)
  /-- A parameter register written, or a buffer exchanged, while a command uses it
  (60_exceptions.md R230).  Raised by the host's act.  Safe. -/
  | changedDuringCommand
  /-- A byte of a running command's space changed by the host, or touched where the command writes
  (20_memory.md R64 (a), (b)).  Raised by the host's act.  Safe. -/
  | touchedDuringCommand (space : SpaceName)
  /-- A host act on a byte its buffer does not have.  Raised by the host's act.  Safe. -/
  | outsideBuffer (space : SpaceName)
  deriving DecidableEq, Repr

/-! ### Power-on -/

/-- No buffer given: no byte, and so a bitstream of length 0 (log entry 5). -/
def Memory.absent : Memory := { base := 0, content := .stream 0, size := 0, cells := [] }

/-- ENC after power-on: 10_state.md R37 leaves every register open, so the registers hold the call-start
values of R36 and the rest zero (log entry 5). -/
def EncEngine.atReset : EncEngine :=
  { prev := initPrev, px := zeroPixel, run := 0#6, cache := initCache, i := 0, o := 0,
    flip := false, srcLen := 0, dstCap := 0, outLen := 0, status := .ok,
    src := Memory.absent, dst := Memory.absent, busy := false, free := 0 }

/-- DEC after power-on, in the same way (log entry 5). -/
def DecEngine.atReset : DecEngine :=
  { px := initPrev, run := 0#6, cache := initCache, p := headerLen, i := 0,
    width := 0#32, height := 0#32, channels := 0#8, srcLen := 0, dstCap := 0, ok := false,
    status := .ok, src := Memory.absent, dst := Memory.absent, busy := false, free := 0 }

/-- The machine after power-on: no command in progress, no buffer, no host act (10_state.md R37). -/
def State.reset : State :=
  { hdr := { width := 0#32, height := 0#32, channels := 0#8, colorspace := 0#8 },
    enc := EncEngine.atReset,
    dec := DecEngine.atReset,
    he := { ok := false, status := .ok, dst := Memory.absent },
    hd := { srcLen := 0, src := Memory.absent, ok := false, status := .ok, width := 0#32,
            height := 0#32, channels := 0#8, colorspace := 0#8, free := 0 },
    ms := 0,
    script := [],
    sched := [] }

end Sys2Proof.Machine
end

