-- ==== Sys2Proof/Machine/Flags.lean ====
section
/-! DEFINITION. The block has no flag (spec/10_state.md R32): here stand the combinational tests that
take a flag's place, the validity checks of the commands, and the status codes
(spec/42_opcode_encoder.md R145 to R153; 40_header_serializer.md R100; 60_exceptions.md R221, R222). -/

namespace Sys2Proof.Machine

/-! ### The encoder's tests -/

/-- 42_opcode_encoder.md R150: "each of `dr,dg,db ∈ [-2,1]`". -/
def diffFits (dr dg db : Int) : Bool :=
  inRange (-2) 1 dr && inRange (-2) 1 dg && inRange (-2) 1 db

/-- 42_opcode_encoder.md R151: `dg ∈ [-32,31]`, `dr-dg ∈ [-8,7]`, `db-dg ∈ [-8,7]`, plain integer
differences (R149). -/
def lumaFits (dr dg db : Int) : Bool :=
  inRange (-32) 31 dg && inRange (-8) 7 (dr - dg) && inRange (-8) 7 (db - dg)

/-! ### Validity -/

/-- The dimension conditions 1, 2 and 5 of 40_header_serializer.md R100.  `div` is floor division and
counts only when the width is not zero (R101). -/
def dimsValid (width height : Word) : Bool :=
  decide (width.toNat ≠ 0) && decide (height.toNat ≠ 0) &&
    decide (height.toNat < pixelsGuard / width.toNat)

/-- Condition 3 of R100. -/
def channelsValid (channels : Byte) : Bool := channels == 3#8 || channels == 4#8

/-- Condition 4 of R100. -/
def colorspaceValid (colorspace : Byte) : Bool := colorspace == 0#8 || colorspace == 1#8

/-- `hdr_valid` of 40_header_serializer.md R100. -/
def hdrValid (h : Header) : Bool :=
  dimsValid h.width h.height && channelsValid h.channels && colorspaceValid h.colorspace

/-- `w*h`, in naturals (00_scope.md R11). -/
def pixelCount (width height : Word) : Nat := width.toNat * height.toNat

/-- `w*h*c`, the length of a raw pixel buffer (20_memory.md R54). -/
def rawLength (width height : Word) (channels : Byte) : Nat :=
  pixelCount width height * channels.toNat

/-- `w*h*(c+1) + 22`, "the documented worst-case bound" (40_header_serializer.md R110). -/
def worstCaseLength (width height : Word) (channels : Byte) : Nat :=
  pixelCount width height * (channels.toNat + 1) + minStreamLen

/-! ### Failures -/

/-- 60_exceptions.md R221: the 2-bit code of a `STATUS` register. -/
def Status.code : Status → BitVec 2
  | .ok => 0#2
  | .invalidHeader => 1#2
  | .bufferTooSmall => 2#2
  | .encodeFailure => 3#2

/-- One cause of failure for each row of 60_exceptions.md R222.  The cause is no hardware value
(R221). -/
inductive Cause where
  | heHeader
  | hdShort
  | hdMagic
  | hdFields
  | encHeader
  | encSource
  | encDestination
  | decSource
  | decDimensions
  | decChannels
  | decDestination
  | decExhausted
  deriving DecidableEq, Repr

/-- The failure kind of a cause: the column "failure" of 60_exceptions.md R222. -/
def Cause.status : Cause → Status
  | .heHeader => .invalidHeader
  | .hdShort => .bufferTooSmall
  | .hdMagic => .invalidHeader
  | .hdFields => .invalidHeader
  | .encHeader => .encodeFailure
  | .encSource => .encodeFailure
  | .encDestination => .bufferTooSmall
  | .decSource => .bufferTooSmall
  | .decDimensions => .invalidHeader
  | .decChannels => .invalidHeader
  | .decDestination => .bufferTooSmall
  | .decExhausted => .bufferTooSmall

/-- The command that fails: the column "command" of 60_exceptions.md R222. -/
def Cause.command : Cause → Command
  | .heHeader => .encodeHeader
  | .hdShort | .hdMagic | .hdFields => .decodeHeader
  | .encHeader | .encSource | .encDestination => .encode
  | .decSource | .decDimensions | .decChannels | .decDestination | .decExhausted => .decode

/-- 42_opcode_encoder.md R141: the checks of ENCODE, the first that fails decides. -/
def encodeCheck (h : Header) (srcLen dstCap : Nat) : Option Cause :=
  if !hdrValid h then some .encHeader
  else if srcLen < rawLength h.width h.height h.channels then some .encSource
  else if dstCap < worstCaseLength h.width h.height h.channels then some .encDestination
  else none

/-- 43_opcode_decoder.md R181: the checks of DECODE, the first that fails decides. -/
def decodeCheck (width height : Word) (channels : Byte) (srcLen dstCap : Nat) : Option Cause :=
  if srcLen < minStreamLen then some .decSource
  else if !dimsValid width height then some .decDimensions
  else if !channelsValid channels then some .decChannels
  else if dstCap < rawLength width height channels then some .decDestination
  else none

end Sys2Proof.Machine
end

