-- ==== Sys2Proof/Machine/Ops.lean ====
section
/-! DEFINITION. The operations every meaning shares: byte spaces (spec/20_memory.md R50, R51), the
cache (spec/41_pixel_cache_hash.md R122, R123), the units of the state, raising a failure
(spec/60_exceptions.md R225) and picking the agent that moves. -/

namespace Sys2Proof.Machine

/-! ### Byte spaces -/

/-- What an address that no cell lists reads as (log entry 2). -/
def unlistedByte : Byte := 0#8

/-- The byte a list of cells gives an address. -/
def lookupCell (a : Nat) : List Host.Cell → Byte
  | [] => unlistedByte
  | (k, v) :: rest => if k = a then v else lookupCell a rest

/-- The list with one byte changed, in canonical form again. -/
def putCell (a : Nat) (v : Byte) : List Host.Cell → List Host.Cell
  | [] => if v = unlistedByte then [] else [(a, v)]
  | (k, w) :: rest =>
    if a < k then (if v = unlistedByte then (k, w) :: rest else (a, v) :: (k, w) :: rest)
    else if a = k then (if v = unlistedByte then rest else (a, v) :: rest)
    else (k, w) :: putCell a v rest

/-- The cells of a byte sequence that starts at address `a`. -/
def cellsOf (a : Nat) : List Byte → List Host.Cell
  | [] => []
  | v :: rest => if v = unlistedByte then cellsOf (a + 1) rest else (a, v) :: cellsOf (a + 1) rest

/-- Canonical form: addresses strictly rising from `lo` and below `size`, no byte that an unlisted
address reads as. -/
def cellsWf (size : Nat) : Nat → List Host.Cell → Bool
  | _, [] => true
  | lo, (k, v) :: rest =>
    decide (lo ≤ k) && decide (k < size) && decide (v ≠ unlistedByte) && cellsWf size (k + 1) rest

/-- The canonical form of a space. -/
def Memory.wf (m : Memory) : Bool := cellsWf m.size 0 m.cells

/-- The byte at an address of a space. -/
def Memory.byteAt (m : Memory) (a : Nat) : Byte := lookupCell a m.cells

/-- A space holding exactly these bytes. -/
def Memory.ofBytes (base : Nat) (content : Content) (bytes : List Byte) : Memory :=
  { base := base, content := content, size := bytes.length, cells := cellsOf 0 bytes }

/-- One byte changed.  An address the buffer does not have is left alone; `Memory.store` never asks
for one. -/
def Memory.write (m : Memory) (a : Nat) (v : Byte) : Memory :=
  if a < m.size then { m with cells := putCell a v m.cells } else m

/-- Consecutive bytes changed, lowest address first. -/
def Memory.writeList (m : Memory) (a : Nat) : List Byte → Memory
  | [] => m
  | v :: rest => (m.write a v).writeList (a + 1) rest

/-- 20_memory.md R51: an access of `n` bytes at `a` is inside the length the command was given, and
inside the real buffer. -/
def Memory.covers (m : Memory) (len a n : Nat) : Bool :=
  decide (a + n ≤ len) && decide (a + n ≤ m.size)

/-- `MemRead(S, a, n)` of 00_scope.md R12, the lowest address first. -/
def Memory.load (m : Memory) (len a n : Nat) : Option (List Byte) :=
  if m.covers len a n then some ((List.range n).map fun j => m.byteAt (a + j)) else none

/-- `MemWrite(S, a, n, bytes)` of 00_scope.md R12. -/
def Memory.store (m : Memory) (cap a : Nat) (bytes : List Byte) : Option Memory :=
  if m.covers cap a bytes.length then some (m.writeList a bytes) else none

/-- 20_memory.md R67: every byte below the capacity replaced by the byte `f` gives it. -/
def Memory.fill (m : Memory) (cap : Nat) (f : Nat → Byte) : Memory :=
  (List.range cap).foldl (fun m a => m.write a (f a)) m

/-! ### Extents in the host's memory (20_memory.md R64) -/

/-- Where `len` bytes of a space lie in the host's memory: first address and length. -/
def Memory.extent (m : Memory) (len : Nat) : Nat × Nat := (m.base, len)

/-- Do two extents share a byte? -/
def extentsMeet (x y : Nat × Nat) : Bool :=
  decide (0 < x.2) && decide (0 < y.2) && decide (x.1 < y.1 + y.2) && decide (y.1 < x.1 + x.2)

/-- Does any extent of the first list share a byte with one of the second? -/
def anyMeet (xs ys : List (Nat × Nat)) : Bool := xs.any fun x => ys.any (extentsMeet x)

/-! ### The cache (41_pixel_cache_hash.md) -/

/-- R122: the pixel in a slot. -/
def cacheRead (cache : Cache) (h : Fin 64) : Pixel := cache[h]

/-- R123: a pixel goes to the slot it hashes to, and to no other. -/
def cacheWrite (cache : Cache) (p : Pixel) : Cache := cache.set (pixelHash p).val p (pixelHash p).isLt

/-! ### The units of the state -/

def State.setHdr (s : State) (h : Header) : State := { s with hdr := h }

def State.setEnc (s : State) (e : EncEngine) : State := { s with enc := e }

def State.setDec (s : State) (d : DecEngine) : State := { s with dec := d }

def State.setHe (s : State) (u : HeUnit) : State := { s with he := u }

def State.setHd (s : State) (u : HdUnit) : State := { s with hd := u }

/-- One of the six spaces by its name. -/
def State.space (s : State) : SpaceName → Memory
  | .encSrc => s.enc.src
  | .encDst => s.enc.dst
  | .decSrc => s.dec.src
  | .decDst => s.dec.dst
  | .heDst => s.he.dst
  | .hdSrc => s.hd.src

def EncEngine.setSrc (e : EncEngine) (m : Memory) : EncEngine := { e with src := m }

def EncEngine.setDst (e : EncEngine) (m : Memory) : EncEngine := { e with dst := m }

def DecEngine.setSrc (d : DecEngine) (m : Memory) : DecEngine := { d with src := m }

def DecEngine.setDst (d : DecEngine) (m : Memory) : DecEngine := { d with dst := m }

def HeUnit.setDst (u : HeUnit) (m : Memory) : HeUnit := { u with dst := m }

def HdUnit.setSrc (u : HdUnit) (m : Memory) : HdUnit := { u with src := m }

/-- The state with one of the six spaces replaced. -/
def State.setSpace (s : State) (sp : SpaceName) (m : Memory) : State :=
  match sp with
  | .encSrc => s.setEnc (s.enc.setSrc m)
  | .encDst => s.setEnc (s.enc.setDst m)
  | .decSrc => s.setDec (s.dec.setSrc m)
  | .decDst => s.setDec (s.dec.setDst m)
  | .heDst => s.setHe (s.he.setDst m)
  | .hdSrc => s.setHd (s.hd.setSrc m)

/-! ### What ends an opcode (43_opcode_decoder.md R192) -/

/-- An opcode of `len` bytes done: the cursor past its bytes (10_state.md R26), the new pixel in
`DEC.px`, and the new pixel in the cache slot it hashes to (R192, R259). -/
def DecEngine.retire (d : DecEngine) (len : Nat) (px : Pixel) : DecEngine :=
  { d with p := d.p + len, px := px, cache := cacheWrite d.cache px }

/-- `DEC.run <- frun`. -/
def DecEngine.setRun (d : DecEngine) (frun : BitVec 6) : DecEngine := { d with run := frun }

/-! ### Raising a failure -/

/-- ENC after a failed ENCODE: sentinel 0 and status (60_exceptions.md R223), idle (R228), the
destination and the internal registers open (R226; 20_memory.md R67). -/
def EncEngine.fail (e : EncEngine) (st : Status) : EncEngine :=
  { e with
    outLen := 0
    status := st
    busy := false
    free := e.free + 1
    dst := e.dst.fill e.dstCap (Config.freeByte .enc e.free)
    prev := Config.freePixel .enc e.free 0
    px := Config.freePixel .enc e.free 1
    cache := Vector.ofFn fun h => Config.freePixel .enc e.free (2 + h.val)
    run := BitVec.ofNat 6 (Config.freeNat .enc e.free 0)
    i := Config.freeNat .enc e.free 1
    o := Config.freeNat .enc e.free 2 }

/-- DEC after a failed DECODE, in the same way. -/
def DecEngine.fail (d : DecEngine) (st : Status) : DecEngine :=
  { d with
    ok := false
    status := st
    busy := false
    free := d.free + 1
    dst := d.dst.fill d.dstCap (Config.freeByte .dec d.free)
    px := Config.freePixel .dec d.free 0
    cache := Vector.ofFn fun h => Config.freePixel .dec d.free (2 + h.val)
    run := BitVec.ofNat 6 (Config.freeNat .dec d.free 0)
    i := Config.freeNat .dec d.free 1
    p := Config.freeNat .dec d.free 2 }

/-- ENCODE_HEADER failed: no byte written (40_header_serializer.md R103). -/
def HeUnit.fail (u : HeUnit) (st : Status) : HeUnit := { u with ok := false, status := st }

/-- DECODE_HEADER failed: its four field registers hold no meaning (60_exceptions.md R226). -/
def HdUnit.fail (u : HdUnit) (st : Status) : HdUnit :=
  { u with
    ok := false
    status := st
    free := u.free + 1
    width := BitVec.ofNat 32 (Config.freeNat .hd u.free 0)
    height := BitVec.ofNat 32 (Config.freeNat .hd u.free 1)
    channels := Config.freeByte .hd u.free 0
    colorspace := Config.freeByte .hd u.free 1 }

/-- `raise <Failure>(info)` of 60_exceptions.md R225, the one way a command fails: the command's unit
gets its failure value and its status code, and is idle.  Nothing is saved and there is no handler, so
no operation returns from a failure (R228). -/
def raiseFailure (c : Cause) (s : State) : State :=
  match c.command with
  | .encodeHeader => s.setHe (s.he.fail c.status)
  | .decodeHeader => s.setHd (s.hd.fail c.status)
  | .maxSize => s
  | .encode => s.setEnc (s.enc.fail c.status)
  | .decode => s.setDec (s.dec.fail c.status)

/-! ### Whose turn it is (log entry 4) -/

/-- The agent that moves: the one the schedule names, and with an empty schedule a running engine
before the host. -/
def State.mover (s : State) : Agent :=
  match s.sched with
  | a :: _ => a
  | [] => if s.dec.busy then .dec else if s.enc.busy then .enc else .host

/-- The schedule without its first entry. -/
def State.popTurn (s : State) : State := { s with sched := s.sched.tail }

end Sys2Proof.Machine
end

