-- ==== Sys2Proof/Machine/Cached.lean ====
section
/-! DEFINITION. The opcode that reads the cache: INDEX. -/

namespace Sys2Proof.Machine

/-- INDEX (43_opcode_decoder.md R186): `DEC.px <- DEC.cache[slot]`, all four fields, read before the
cache update of R192. -/
def execIndex (slot : Fin 64) (s : State) : Host.Outcome State Fault Refusal :=
  .next (s.setDec (s.dec.retire 1 (cacheRead s.dec.cache slot)))

end Sys2Proof.Machine
end

