-- ==== Sys2Proof/Machine/Delta.lean ====
section
/-! DEFINITION. The opcodes that move the previous pixel by deltas: DIFF and LUMA. -/

namespace Sys2Proof.Machine

/-- DIFF (43_opcode_decoder.md R187): each delta added modulo 256, alpha unchanged. -/
def execDiff (dr dg db : Int) (s : State) : Host.Outcome State Fault Refusal :=
  .next (s.setDec (s.dec.retire 1 (addDeltas s.dec.px dr dg db)))

/-- LUMA (43_opcode_decoder.md R188): green moves by `dg`, red by `dg + (dr - dg)`, blue by
`dg + (db - dg)`, modulo 256, alpha unchanged. -/
def execLuma (dg drg dbg : Int) (s : State) : Host.Outcome State Fault Refusal :=
  .next (s.setDec (s.dec.retire 2 (addDeltas s.dec.px (dg + drg) dg (dg + dbg))))

end Sys2Proof.Machine
end

