-- ==== Sys2Proof/Machine/Literal.lean ====
section
/-! DEFINITION. The opcodes that carry channel bytes: RGB and RGBA. -/

namespace Sys2Proof.Machine

/-- RGB (43_opcode_decoder.md R190): three channels from the stream, alpha unchanged. -/
def execRgb (r g b : Byte) (s : State) : Host.Outcome State Fault Refusal :=
  .next (s.setDec (s.dec.retire 4 { r := r, g := g, b := b, a := s.dec.px.a }))

/-- RGBA (43_opcode_decoder.md R191): all four channels from the stream, whatever the output channel
count. -/
def execRgba (r g b a : Byte) (s : State) : Host.Outcome State Fault Refusal :=
  .next (s.setDec (s.dec.retire 5 { r := r, g := g, b := b, a := a }))

end Sys2Proof.Machine
end

