-- ==== Sys2Proof/Machine/Repeat.lean ====
section
/-! DEFINITION. The opcode that repeats the previous pixel: RUN. -/

namespace Sys2Proof.Machine

/-- RUN (43_opcode_decoder.md R189): `DEC.run <- frun`, one less than the pixels it stands for;
`DEC.px` unchanged and written to the cache once (R192). -/
def execRun (n : Nat) (s : State) : Host.Outcome State Fault Refusal :=
  .next (s.setDec ((s.dec.retire 1 s.dec.px).setRun (BitVec.ofNat 6 (n - 1))))

end Sys2Proof.Machine
end

