-- ==== Sys2Proof/Machine/Decoder.lean ====
section
/-! DEFINITION. opcode_decoder: the start, the step and the end of the DECODE command, the fetch
among them (spec/43_opcode_decoder.md). -/

namespace Sys2Proof.Machine

/-- The registers at call start (43_opcode_decoder.md R182; 10_state.md R36). -/
def DecEngine.callStart (d : DecEngine) : DecEngine :=
  { d with p := headerLen, px := initPrev, run := 0#6, cache := initCache, i := 0, busy := true }

/-- DECODE from its checks to its start (43_opcode_decoder.md R181, R182). -/
def decodeStart (s : State) : Host.Outcome State Fault Refusal :=
  match decodeCheck s.dec.width s.dec.height s.dec.channels s.dec.srcLen s.dec.dstCap with
  | some c => .next (raiseFailure c s)
  | none => .next (s.setDec s.dec.callStart)

/-- `n = w*h` of 43_opcode_decoder.md R180. -/
def DecEngine.pixels (d : DecEngine) : Nat := pixelCount d.width d.height

/-- 43_opcode_decoder.md R184: may an opcode's first byte be fetched here? -/
def DecEngine.mayFetch (d : DecEngine) : Bool := decide (d.p + endLen < d.srcLen)

/-- The opcode at the cursor: its first byte, which fixes its length (30_encoding.md R80), and the
bytes of that length.  Operand bytes have no guard of their own (43_opcode_decoder.md R197). -/
def DecEngine.fetch (d : DecEngine) : Except Fault Instr :=
  match d.src.load d.srcLen d.p 1 with
  | some [b1] =>
    match d.src.load d.srcLen d.p (opcodeLength b1) with
    | some bytes =>
      match decode bytes with
      | .ok (i, _) => .ok i
      | .error reason => .error (.undecodable reason)
    | none => .error (.readOutside .decSrc d.p)
  | _ => .error (.readOutside .decSrc d.p)

/-- `k = DEC.i * c` of 43_opcode_decoder.md R193. -/
def DecEngine.slotAddress (d : DecEngine) : Nat := d.i * d.channels.toNat

/-- DEC with its slot stored and the next one current. -/
def DecEngine.stored (d : DecEngine) (dst : Memory) : DecEngine := { d with dst := dst, i := d.i + 1 }

/-- The pixel store (43_opcode_decoder.md R193) and the advance of `DEC.i`. -/
def storePixel (s : State) : Host.Outcome State Fault Refusal :=
  match s.dec.dst.store s.dec.dstCap s.dec.slotAddress (pixelBytes s.dec.channels s.dec.px) with
  | some dst => .next (s.setDec (s.dec.stored dst))
  | none => .fault (.writeOutside .decDst s.dec.slotAddress)

/-- The run path (43_opcode_decoder.md R183): the counter down by one, nothing else. -/
def runPath (s : State) : State := s.setDec (s.dec.setRun (s.dec.run - 1#6))

/-- An opcode fetched and executed (43_opcode_decoder.md R183). -/
def execFetched (s : State) : Host.Outcome State Fault Refusal :=
  match s.dec.fetch with
  | .ok i => exec i s
  | .error f => .fault f

/-- What comes after the opcode in its step: the pixel store. -/
def thenStore : Host.Outcome State Fault Refusal → Host.Outcome State Fault Refusal
  | .next t => storePixel t
  | .fault f => .fault f
  | .refused r => .refused r

/-- One pixel slot (43_opcode_decoder.md R183): the run path, or an opcode, or exhaustion (R185). -/
def decodeOnePixel (s : State) : Host.Outcome State Fault Refusal :=
  if s.dec.run ≠ 0#6 then storePixel (runPath s)
  else if s.dec.mayFetch then thenStore (execFetched s)
  else .next (raiseFailure .decExhausted s)

/-- The end (43_opcode_decoder.md R194): what is left over is ignored. -/
def DecEngine.finish (d : DecEngine) : DecEngine := { d with ok := true, status := .ok, busy := false }

/-- A completed DECODE. -/
def decodeEnd (s : State) : State := s.setDec s.dec.finish

/-- DEC moves: a pixel slot while slots are left, then the end.  Idle, it does nothing. -/
def decodeStep (s : State) : Host.Outcome State Fault Refusal :=
  if s.dec.busy then
    if s.dec.i < s.dec.pixels then decodeOnePixel s else .next (decodeEnd s)
  else .next s

/-! ### Placing an opcode where the decoder fetches next (log entry 8) -/

/-- Can the pixel slot at `DEC.i` be produced? -/
def DecEngine.slotReady (d : DecEngine) : Bool :=
  decide (d.i < d.pixels) &&
    d.dst.covers d.dstCap d.slotAddress (pixelBytes d.channels d.px).length

/-- A DECODE command of a 64 by 1 image with four channels in progress at its first slot, for a
decoder that has no slot left to produce. -/
def DecEngine.withSlot (d : DecEngine) : DecEngine :=
  if d.slotReady then d
  else
    { d with
      width := 64#32
      height := 1#32
      channels := 4#8
      i := 0
      dstCap := 256
      dst := { d.dst with size := max d.dst.size 256 } }

/-- The bytes stored at the cursor of a decoder that fetches next, with the 8 bytes of the tail after
the first of them. -/
def DecEngine.withBytes (d : DecEngine) (bytes : List Byte) (len : Nat) : DecEngine :=
  { d.withSlot with
    run := 0#6
    busy := true
    srcLen := len
    src := { d.src with size := max d.src.size len, content := .stream len }.writeList d.p bytes }

/-- The state whose next step runs the opcode with these bytes. -/
def placeOpcode (bytes : List Byte) (s : State) : State :=
  { s with
    dec := s.dec.withBytes bytes (max s.dec.srcLen (s.dec.p + endLen + bytes.length))
    sched := .dec :: s.sched }

end Sys2Proof.Machine
end

