-- ==== Sys2Proof/Machine/HeaderSerializer.lean ====
section
/-! DEFINITION. header_serializer: ENCODE_HEADER, DECODE_HEADER and MAX_SIZE
(spec/40_header_serializer.md).  Each command is one act. -/

namespace Sys2Proof.Machine

/-- `hdr_bytes` of 40_header_serializer.md R102: magic, width and height big-endian, channels,
colorspace. -/
def hdrBytes (h : Header) : List Byte :=
  magic ++ be32 h.width ++ be32 h.height ++ [h.channels, h.colorspace]

/-- 40_header_serializer.md R106: the fields in 14 header bytes. -/
def headerOf : List Byte → Option Header
  | [_, _, _, _, w0, w1, w2, w3, h0, h1, h2, h3, c, cs] =>
    some { width := ofBE32 w0 w1 w2 w3, height := ofBE32 h0 h1 h2 h3, channels := c, colorspace := cs }
  | _ => none

/-- The result registers of ENCODE_HEADER on success (40_header_serializer.md R102). -/
def HeUnit.accept (u : HeUnit) (dst : Memory) : HeUnit :=
  { u with dst := dst, ok := true, status := .ok }

/-- ENCODE_HEADER (40_header_serializer.md R102, R103). -/
def encodeHeader (s : State) : Host.Outcome State Fault Refusal :=
  if hdrValid s.hdr then
    match s.he.dst.store headerLen 0 (hdrBytes s.hdr) with
    | some dst => .next (s.setHe (s.he.accept dst))
    | none => .fault (.writeOutside .heDst 0)
  else .next (raiseFailure .heHeader s)

/-- 40_header_serializer.md R107: the four result registers on success. -/
def HdUnit.accept (u : HdUnit) (h : Header) : HdUnit :=
  { u with
    width := h.width
    height := h.height
    channels := h.channels
    colorspace := h.colorspace
    ok := true
    status := .ok }

/-- DECODE_HEADER (40_header_serializer.md R104 to R107): length, then magic, then fields.  Only bytes
0..13 are read (R108). -/
def decodeHeader (s : State) : Host.Outcome State Fault Refusal :=
  if s.hd.srcLen < minStreamLen then .next (raiseFailure .hdShort s)
  else
    match s.hd.src.load s.hd.srcLen 0 headerLen with
    | none => .fault (.readOutside .hdSrc 0)
    | some bytes =>
      if bytes.take 4 ≠ magic then .next (raiseFailure .hdMagic s)
      else
        match headerOf bytes with
        | none => .fault (.readOutside .hdSrc 0)
        | some h =>
          if hdrValid h then .next (s.setHd (s.hd.accept h))
          else .next (raiseFailure .hdFields s)

/-- `MS.size <- n`. -/
def State.setMs (s : State) (n : Nat) : State := { s with ms := n }

/-- MAX_SIZE (40_header_serializer.md R110): the formula in naturals, no check. -/
def maxSize (s : State) : Host.Outcome State Fault Refusal :=
  .next (s.setMs (worstCaseLength s.hdr.width s.hdr.height s.hdr.channels))

end Sys2Proof.Machine
end

