-- ==== Sys2Proof/Machine/Encoder.lean ====
section
/-! DEFINITION. opcode_encoder: the start, the step and the end of the ENCODE command
(spec/42_opcode_encoder.md). -/

namespace Sys2Proof.Machine

/-! ### Choosing opcodes: pure functions of the registers -/

/-- 42_opcode_encoder.md R150 to R152: the opcode of a pixel whose alpha is the previous one's, from
its three deltas. -/
def chooseByDeltas (px : Pixel) (dr dg db : Int) : Instr :=
  if diffFits dr dg db then .diff dr dg db
  else if lumaFits dr dg db then .luma dg (dr - dg) (db - dg)
  else .rgb px.r px.g px.b

/-- 42_opcode_encoder.md R149, R153: the opcode of a pixel that missed the cache. -/
def chooseOnMiss (prev px : Pixel) : Instr :=
  if px.a ≠ prev.a then .rgba px.r px.g px.b px.a
  else chooseByDeltas px (delta8 px.r prev.r) (delta8 px.g prev.g) (delta8 px.b prev.b)

/-- 42_opcode_encoder.md R147, R148: INDEX on a hit, with the cache as it is; on a miss the pixel is
stored first. -/
def chooseOpcode (prev : Pixel) (cache : Cache) (px : Pixel) : Instr × Cache :=
  if cacheRead cache (pixelHash px) = px then (.index (pixelHash px), cache)
  else (chooseOnMiss prev px, cacheWrite cache px)

/-- 42_opcode_encoder.md R146: the RUN opcode of a pending run, nothing when none is pending. -/
def flushRun (run : BitVec 6) : List Instr := if run = 0#6 then [] else [.run run.toNat]

/-- One step of 42_opcode_encoder.md R144 after the fetch: the opcodes emitted, the new run counter
and the new cache.  `last` says that the pixel is the last of the scan. -/
def encodePixel (prev : Pixel) (run : BitVec 6) (cache : Cache) (last : Bool) (px : Pixel) :
    List Instr × BitVec 6 × Cache :=
  if px = prev then
    if run + 1#6 = runMax ∨ last then ([.run (run + 1#6).toNat], 0#6, cache)
    else ([], run + 1#6, cache)
  else
    (flushRun run ++ [(chooseOpcode prev cache px).1], 0#6, (chooseOpcode prev cache px).2)

/-- The bytes of a sequence of opcodes. -/
def encodeAll (ops : List Instr) : List Byte := ops.flatMap encode

/-! ### The fetch -/

/-- `sy` of 42_opcode_encoder.md R143: the source row of destination row `y`. -/
def sourceRow (h : Header) (flip : Bool) (y : Nat) : Nat :=
  if flip then h.height.toNat - 1 - y else y

/-- `k` of 42_opcode_encoder.md R143: where step `i` reads its pixel. -/
def sourceAddress (h : Header) (flip : Bool) (i : Nat) : Nat :=
  (sourceRow h flip (i / h.width.toNat) * h.width.toNat + i % h.width.toNat) * h.channels.toNat

/-- 42_opcode_encoder.md R143: the pixel at an address; alpha is 255 unless there are four channels. -/
def fetchPixel (m : Memory) (len : Nat) (channels : Byte) (k : Nat) : Option Pixel :=
  if m.covers len k (pixelWidth channels) then
    some
      { r := m.byteAt k
        g := m.byteAt (k + 1)
        b := m.byteAt (k + 2)
        a := if channels = 4#8 then m.byteAt (k + 3) else 255#8 }
  else none

/-! ### The command -/

/-- ENC with its destination written and its write cursor past `n` bytes. -/
def EncEngine.emitted (e : EncEngine) (dst : Memory) (n : Nat) : EncEngine :=
  { e with dst := dst, o := e.o + n }

/-- `emit` of 00_scope.md R12 for consecutive bytes, inside the destination's capacity (20_memory.md
R51). -/
def EncEngine.emit (e : EncEngine) (bytes : List Byte) : Option EncEngine :=
  match e.dst.store e.dstCap e.o bytes with
  | some dst => some (e.emitted dst bytes.length)
  | none => none

/-- The registers at call start (42_opcode_encoder.md R142; 10_state.md R36).  `ENC.px` is not
initialised. -/
def EncEngine.callStart (e : EncEngine) : EncEngine :=
  { e with prev := initPrev, run := 0#6, cache := initCache, i := 0, o := 0, busy := true }

/-- ENCODE from its checks to its start (42_opcode_encoder.md R141, R142). -/
def encodeStart (s : State) : Host.Outcome State Fault Refusal :=
  match encodeCheck s.hdr s.enc.srcLen s.enc.dstCap with
  | some c => .next (raiseFailure c s)
  | none =>
    match s.enc.callStart.emit (hdrBytes s.hdr) with
    | some e => .next (s.setEnc e)
    | none => .fault (.writeOutside .encDst 0)

/-- The registers after a step that fetched `px` (42_opcode_encoder.md R144, R154), before its bytes
are emitted. -/
def EncEngine.consume (e : EncEngine) (px : Pixel) (run : BitVec 6) (cache : Cache) : EncEngine :=
  { e with px := px, prev := px, run := run, cache := cache, i := e.i + 1 }

/-- `n = w*h` of 42_opcode_encoder.md R140. -/
def State.encPixels (s : State) : Nat := pixelCount s.hdr.width s.hdr.height

/-- The pixel of the current step (42_opcode_encoder.md R143). -/
def State.encFetch (s : State) : Option Pixel :=
  fetchPixel s.enc.src s.enc.srcLen s.hdr.channels (sourceAddress s.hdr s.enc.flip s.enc.i)

/-- What the current step makes of its pixel (42_opcode_encoder.md R144); the last pixel is the last
in scan order. -/
def State.encChoice (s : State) (px : Pixel) : List Instr × BitVec 6 × Cache :=
  encodePixel s.enc.prev s.enc.run s.enc.cache (s.enc.i + 1 == s.encPixels) px

/-- One pixel (42_opcode_encoder.md R143, R144). -/
def encodeOnePixel (s : State) : Host.Outcome State Fault Refusal :=
  match s.encFetch with
  | none => .fault (.readOutside .encSrc (sourceAddress s.hdr s.enc.flip s.enc.i))
  | some px =>
    match (s.enc.consume px (s.encChoice px).2.1 (s.encChoice px).2.2).emit
        (encodeAll (s.encChoice px).1) with
    | some e => .next (s.setEnc e)
    | none => .fault (.writeOutside .encDst s.enc.o)

/-- The result registers of a completed ENCODE (42_opcode_encoder.md R155). -/
def EncEngine.finish (e : EncEngine) : EncEngine :=
  { e with outLen := e.o, status := .ok, busy := false }

/-- The tail (42_opcode_encoder.md R155). -/
def encodeEnd (s : State) : Host.Outcome State Fault Refusal :=
  match s.enc.emit endMarker with
  | some e => .next (s.setEnc e.finish)
  | none => .fault (.writeOutside .encDst s.enc.o)

/-- ENC moves: a pixel while pixels are left, then the tail.  Idle, it does nothing. -/
def encodeStep (s : State) : Host.Outcome State Fault Refusal :=
  if s.enc.busy then
    if s.enc.i < s.encPixels then encodeOnePixel s else encodeEnd s
  else .next s

end Sys2Proof.Machine
end

