-- ==== Sys2Proof/Machine/HostPort.lean ====
section
/-! DEFINITION. What the host can do to the block: parameter registers, buffers, commands, and the
duties a launch is held to (spec/10_state.md R30; 20_memory.md R64, R65; 60_exceptions.md R230, R232;
70_reset_and_hazards.md R252). -/

namespace Sys2Proof.Machine

/-! ### What running commands use -/

/-- Extents that running commands read. -/
def State.liveReads (s : State) : List (Nat × Nat) :=
  (if s.enc.busy then [s.enc.src.extent s.enc.srcLen] else []) ++
    (if s.dec.busy then [s.dec.src.extent s.dec.srcLen] else [])

/-- Extents that running commands write. -/
def State.liveWrites (s : State) : List (Nat × Nat) :=
  (if s.enc.busy then [s.enc.dst.extent s.enc.dstCap] else []) ++
    (if s.dec.busy then [s.dec.dst.extent s.dec.dstCap] else [])

/-- 20_memory.md R64 (c): what a command would read and write shares no byte with what it or a running
command writes, and what it would write shares none with what a running command reads. -/
def State.independent (s : State) (reads writes : List (Nat × Nat)) : Bool :=
  !anyMeet reads (writes ++ s.liveWrites) && !anyMeet writes (s.liveReads ++ s.liveWrites)

/-! ### Launches -/

/-- The first length register above the real size of its buffer (70_reset_and_hazards.md R252
duty 4). -/
def firstUntrue : List (SpaceName × Nat × Nat) → Option SpaceName
  | [] => none
  | (sp, len, size) :: rest => if size < len then some sp else firstUntrue rest

/-- Lengths a command relies on: space, stated length, real size. -/
def State.statedLengths (s : State) : Command → List (SpaceName × Nat × Nat)
  | .encodeHeader => [(.heDst, headerLen, s.he.dst.size)]
  | .decodeHeader => [(.hdSrc, s.hd.srcLen, s.hd.src.size)]
  | .maxSize => []
  | .encode => [(.encSrc, s.enc.srcLen, s.enc.src.size), (.encDst, s.enc.dstCap, s.enc.dst.size)]
  | .decode => [(.decSrc, s.dec.srcLen, s.dec.src.size), (.decDst, s.dec.dstCap, s.dec.dst.size)]

/-- What a command would read. -/
def State.readsOf (s : State) : Command → List (Nat × Nat)
  | .encodeHeader => []
  | .decodeHeader => [s.hd.src.extent s.hd.srcLen]
  | .maxSize => []
  | .encode => [s.enc.src.extent s.enc.srcLen]
  | .decode => [s.dec.src.extent s.dec.srcLen]

/-- What a command would write. -/
def State.writesOf (s : State) : Command → List (Nat × Nat)
  | .encodeHeader => [s.he.dst.extent headerLen]
  | .decodeHeader => []
  | .maxSize => []
  | .encode => [s.enc.dst.extent s.enc.dstCap]
  | .decode => [s.dec.dst.extent s.dec.dstCap]

/-- Is the engine of a command running already (60_exceptions.md R232)? -/
def State.engineBusy (s : State) : Command → Bool
  | .encode => s.enc.busy
  | .decode => s.dec.busy
  | .encodeHeader => false
  | .decodeHeader => false
  | .maxSize => false

/-- A command once its launch is accepted (00_scope.md R8). -/
def runCommand (c : Command) (s : State) : Host.Outcome State Fault Refusal :=
  match c with
  | .encodeHeader => encodeHeader s
  | .decodeHeader => decodeHeader s
  | .maxSize => maxSize s
  | .encode => encodeStart s
  | .decode => decodeStart s

/-- A launch whose operands contradict what the host says its source holds
(70_reset_and_hazards.md R252 duties 2 and 7; 93_implementation_defined.md U14).  A channel count that
is not legal fails in the command's own check instead (10_state.md R30). -/
def State.untrueContent (s : State) : Command → Option Refusal
  | .encode =>
    if channelsValid s.hdr.channels && s.enc.src.content != .raw s.hdr.channels then
      some .channelsNotTrue
    else none
  | .decode => if s.dec.src.content = .stream s.dec.srcLen then none else some .streamLengthNotTrue
  | .encodeHeader | .decodeHeader | .maxSize => none

/-- Why the model refuses a launch, if it does (93_implementation_defined.md U14, U15). -/
def launchRefusal (c : Command) (s : State) : Option Refusal :=
  if s.engineBusy c then some (.engineBusy c)
  else
    match firstUntrue (s.statedLengths c) with
    | some sp => some (.lengthNotTrue sp)
    | none =>
      match s.untrueContent c with
      | some r => some r
      | none => if s.independent (s.readsOf c) (s.writesOf c) then none else some (.overlap c)

/-- The host issues a command. -/
def issueCommand (c : Command) (s : State) : Host.Outcome State Fault Refusal :=
  match launchRefusal c s with
  | some r => .refused r
  | none => runCommand c s

/-! ### Registers and buffers -/

/-- Is a space in use by a running command? -/
def State.spaceBusy (s : State) : SpaceName → Bool
  | .encSrc | .encDst => s.enc.busy
  | .decSrc | .decDst => s.dec.busy
  | .heDst => false
  | .hdSrc => false

/-- An act that changes what a command uses: refused while the command runs (60_exceptions.md
R230). -/
def unlessBusy (busy : Bool) (t : State) : Host.Outcome State Fault Refusal :=
  if busy then .refused .changedDuringCommand else .next t

/-- Parameter registers written (10_state.md R30). -/
def EncEngine.setParams (e : EncEngine) (flip : Bool) (srcLen dstCap : Nat) : EncEngine :=
  { e with flip := flip, srcLen := srcLen, dstCap := dstCap }

def DecEngine.setParams (d : DecEngine) (width height : Word) (channels : Byte) (srcLen dstCap : Nat) :
    DecEngine :=
  { d with width := width, height := height, channels := channels, srcLen := srcLen, dstCap := dstCap }

def HdUnit.setParams (u : HdUnit) (srcLen : Nat) : HdUnit := { u with srcLen := srcLen }

/-- Is there another byte than `v` at place `x` of the host's memory, in the first `len` bytes of a
space? -/
def Memory.holdsOther (m : Memory) (len x : Nat) (v : Byte) : Bool :=
  decide (m.base ≤ x) && decide (x < m.base + len) && m.byteAt (x - m.base) != v

/-- Would bytes from place `x` of the host's memory on change a byte that a running command reads, or
touch one that it writes (20_memory.md R64 (a), (b))? -/
def State.disturbs (s : State) (x : Nat) : List Byte → Bool
  | [] => false
  | v :: rest =>
    (s.enc.busy && s.enc.src.holdsOther s.enc.srcLen x v) ||
      (s.dec.busy && s.dec.src.holdsOther s.dec.srcLen x v) ||
      anyMeet [(x, 1)] s.liveWrites || s.disturbs (x + 1) rest

/-- The host hands over a buffer with its content (20_memory.md R50): not in the place of a running
command's buffer (60_exceptions.md R230), nor with other bytes where a running command reads, nor where
one writes (R64 (a), (b)).  The same bytes may serve two commands that only read them (R64 (c)). -/
def hostGive (sp : SpaceName) (base : Nat) (content : Content) (bytes : List Byte) (s : State) :
    Host.Outcome State Fault Refusal :=
  if s.spaceBusy sp then .refused .changedDuringCommand
  else if s.disturbs base bytes then .refused (.touchedDuringCommand sp)
  else .next (s.setSpace sp (Memory.ofBytes base content bytes))

/-- The host stores a byte in one of its buffers (20_memory.md R64 (a), (b)). -/
def hostWrite (sp : SpaceName) (a : Nat) (v : Byte) (s : State) : Host.Outcome State Fault Refusal :=
  if (s.space sp).size ≤ a then .refused (.outsideBuffer sp)
  else if anyMeet [((s.space sp).base + a, 1)] (s.liveReads ++ s.liveWrites) then
    .refused (.touchedDuringCommand sp)
  else .next (s.setSpace sp ((s.space sp).write a v))

/-- The host reads a byte of one of its buffers: no effect (20_memory.md R56, R64 (b)). -/
def hostRead (sp : SpaceName) (a : Nat) (s : State) : Host.Outcome State Fault Refusal :=
  if (s.space sp).size ≤ a then .refused (.outsideBuffer sp)
  else if anyMeet [((s.space sp).base + a, 1)] s.liveWrites then .refused (.touchedDuringCommand sp)
  else .next s

/-- The first `n` bytes of a buffer, as a buffer at the same place that holds a bitstream. -/
def Memory.firstBytes (m : Memory) (n : Nat) : Memory :=
  { base := m.base, content := .stream n, size := min n m.size, cells := m.cells.filter fun cell => cell.1 < n }

def DecEngine.setSrcLen (d : DecEngine) (n : Nat) : DecEngine := { d with srcLen := n }

/-- 20_memory.md R65: the bytes `ENC.dst[0 .. ENC.out_len-1]` become `DEC.src`, with
`DEC.src_len = ENC.out_len`. -/
def passStream (s : State) : State :=
  s.setDec ((s.dec.setSrc (s.enc.dst.firstBytes s.enc.outLen)).setSrcLen s.enc.outLen)

/-- One act of the host. -/
def hostAct (op : HostOp) (s : State) : Host.Outcome State Fault Refusal :=
  match op with
  | .setHdr h => unlessBusy s.enc.busy (s.setHdr h)
  | .setEnc flip srcLen dstCap =>
    unlessBusy s.enc.busy (s.setEnc (s.enc.setParams flip srcLen dstCap))
  | .setDec width height channels srcLen dstCap =>
    unlessBusy s.dec.busy (s.setDec (s.dec.setParams width height channels srcLen dstCap))
  | .setHd srcLen => .next (s.setHd (s.hd.setParams srcLen))
  | .give sp base content bytes => hostGive sp base content bytes s
  | .writeByte sp a v => hostWrite sp a v s
  | .readByte sp a => hostRead sp a s
  | .passStream => unlessBusy (s.enc.busy || s.dec.busy) (passStream s)
  | .issue c => issueCommand c s

/-- The acts the host has left. -/
def State.setScript (s : State) (script : List HostOp) : State := { s with script := script }

/-- The host moves: its next act, if it has one (10_state.md R37: without a command the block does
nothing). -/
def hostStep (s : State) : Host.Outcome State Fault Refusal :=
  match s.script with
  | [] => .next s
  | op :: rest => hostAct op (s.setScript rest)

/-- One move of an agent (00_scope.md R9). -/
def moveAgent (a : Agent) (s : State) : Host.Outcome State Fault Refusal :=
  match a with
  | .host => hostStep s
  | .enc => encodeStep s
  | .dec => decodeStep s

end Sys2Proof.Machine
end

