-- ==== Sys2Proof/Machine/Step.lean ====
section
/-! DEFINITION. One step: one move of one agent (spec/00_scope.md R7, R9). -/

namespace Sys2Proof.Machine

/-- The agent whose turn it is moves. -/
def step (s : State) : Host.Outcome State Fault Refusal := moveAgent s.mover s.popTurn

/-- The state whose next step runs the opcode that the opcode table's numbering gives (log entry 8). -/
def State.withFetchWord (s : State) (nbits w : Nat) : State := placeOpcode (tableBytes nbits w) s

end Sys2Proof.Machine
end

