-- ==== Sys2Proof/Safety.lean ====
section
/-! DEFINITION. The terms claims are stated in: what a step answers, when an engine is ready for a
step, the invariants of a run, and how two states are compared (spec/20_memory.md R51, R59, R63;
42_opcode_encoder.md R157, R158; 43_opcode_decoder.md R197; 41_pixel_cache_hash.md R126). -/

namespace Sys2Proof.Machine

/-! ### What a step answers -/

/-- The next state, if there is one. -/
def nextState : Host.Outcome State Fault Refusal → Option State
  | .next t => some t
  | .fault _ => none
  | .refused _ => none

/-- The outcome is a fault. -/
def isFault : Host.Outcome State Fault Refusal → Bool
  | .next _ => false
  | .fault _ => true
  | .refused _ => false

/-- `k` moves of one agent, stopping at the first that answers no next state. -/
def moves (f : State → Host.Outcome State Fault Refusal) : Nat → State → Host.Outcome State Fault Refusal
  | 0, s => .next s
  | k + 1, s =>
    match f s with
    | .next t => moves f k t
    | .fault r => .fault r
    | .refused r => .refused r

/-- The same outcome with its next state changed. -/
def mapNext (f : State → State) :
    Host.Outcome State Fault Refusal → Host.Outcome State Fault Refusal
  | .next t => .next (f t)
  | .fault r => .fault r
  | .refused r => .refused r

/-! ### Bytes -/

/-- The bytes of a space from an address on are these. -/
def Memory.HoldsAt (m : Memory) (a : Nat) (bytes : List Byte) : Prop :=
  ∀ j, j < bytes.length → m.byteAt (a + j) = bytes.getD j 0#8

/-- Two spaces are one buffer and read alike outside `n` bytes at `a`. -/
def Memory.SameOutside (m m' : Memory) (a n : Nat) : Prop :=
  m'.base = m.base ∧ m'.content = m.content ∧ m'.size = m.size ∧ ∀ x, x < a ∨ a + n ≤ x → m'.byteAt x = m.byteAt x

/-- `n` bytes of a space from an address on. -/
def Memory.bytesFrom (m : Memory) (a n : Nat) : List Byte := (List.range n).map fun j => m.byteAt (a + j)

/-- 20_memory.md R57, R52: the 14 header bytes of a bitstream, each one spelled out. -/
def Memory.HoldsHeader (m : Memory) (h : Header) : Prop :=
  m.byteAt 0 = 0x71#8 ∧ m.byteAt 1 = 0x6F#8 ∧ m.byteAt 2 = 0x69#8 ∧ m.byteAt 3 = 0x66#8 ∧
    (m.byteAt 4).toNat = h.width.toNat / 2 ^ 24 ∧ (m.byteAt 5).toNat = h.width.toNat / 2 ^ 16 % 256 ∧
    (m.byteAt 6).toNat = h.width.toNat / 2 ^ 8 % 256 ∧ (m.byteAt 7).toNat = h.width.toNat % 256 ∧
    (m.byteAt 8).toNat = h.height.toNat / 2 ^ 24 ∧ (m.byteAt 9).toNat = h.height.toNat / 2 ^ 16 % 256 ∧
    (m.byteAt 10).toNat = h.height.toNat / 2 ^ 8 % 256 ∧ (m.byteAt 11).toNat = h.height.toNat % 256 ∧
    m.byteAt 12 = h.channels ∧ m.byteAt 13 = h.colorspace

/-! ### What running commands use, in the host's memory -/

/-- Place `x` lies in the first `len` bytes of a space. -/
abbrev Memory.Covers (m : Memory) (len x : Nat) : Prop := m.base ≤ x ∧ x < m.base + len

/-- A running command reads place `x` (20_memory.md R64 (a)). -/
abbrev State.ReadByACommand (s : State) (x : Nat) : Prop :=
  s.enc.busy = true ∧ s.enc.src.Covers s.enc.srcLen x ∨ s.dec.busy = true ∧ s.dec.src.Covers s.dec.srcLen x

/-- A running command writes place `x` (20_memory.md R64 (b)). -/
abbrev State.WrittenByACommand (s : State) (x : Nat) : Prop :=
  s.enc.busy = true ∧ s.enc.dst.Covers s.enc.dstCap x ∨ s.dec.busy = true ∧ s.dec.dst.Covers s.dec.dstCap x

/-- A running command reads a byte other than `v` at place `x`. -/
abbrev State.OtherReadByACommand (s : State) (x : Nat) (v : Byte) : Prop :=
  s.enc.busy = true ∧ s.enc.src.Covers s.enc.srcLen x ∧ s.enc.src.byteAt (x - s.enc.src.base) ≠ v ∨
    s.dec.busy = true ∧ s.dec.src.Covers s.dec.srcLen x ∧ s.dec.src.byteAt (x - s.dec.src.base) ≠ v

/-- A space belongs to a running command. -/
abbrev State.InCommand (s : State) (sp : SpaceName) : Prop :=
  s.enc.busy = true ∧ (sp = .encSrc ∨ sp = .encDst) ∨ s.dec.busy = true ∧ (sp = .decSrc ∨ sp = .decDst)

/-- Duties 2 and 7 of 70_reset_and_hazards.md R252: the operands of a command say of its source what
the host says of it.  A channel count that is not legal is no matter of duty 2 but fails. -/
abbrev State.ContentTrue (s : State) (c : Command) : Prop :=
  (c = .encode → s.hdr.channels = 3#8 ∨ s.hdr.channels = 4#8 →
      s.enc.src.content = .raw s.hdr.channels) ∧
    (c = .decode → s.dec.src.content = .stream s.dec.srcLen)

/-! ### Ready for a step -/

/-- DEC has a pixel slot left, and room for it. -/
abbrev DecEngine.SlotOpen (d : DecEngine) : Prop :=
  d.busy = true ∧ d.i < d.pixels ∧ channelsValid d.channels = true ∧
    (d.i + 1) * d.channels.toNat ≤ d.dstCap ∧ d.dstCap ≤ d.dst.size ∧ d.dst.wf = true

/-- DEC needs an opcode for its slot and may fetch one. -/
abbrev DecEngine.OpcodeDue (d : DecEngine) : Prop :=
  d.SlotOpen ∧ d.run = 0#6 ∧ d.p + 8 < d.srcLen ∧ d.srcLen ≤ d.src.size

/-- The opcode at DEC's cursor. -/
abbrev DecEngine.NextOpcode (d : DecEngine) (i : Instr) : Prop :=
  (decode (d.src.bytesFrom d.p 5)).map Prod.fst = .ok i

/-- ENC has a pixel left, `px`, and room for the at most 6 bytes of a step (20_memory.md R56). -/
abbrev State.PixelDue (s : State) (px : Pixel) : Prop :=
  s.enc.busy = true ∧ s.enc.i < s.encPixels ∧
    s.encFetch = some px ∧
    s.enc.o + 6 ≤ s.enc.dstCap ∧ s.enc.dstCap ≤ s.enc.dst.size ∧ s.enc.dst.wf = true

/-! ### Invariants of every run -/

/-- Every space is in canonical form. -/
abbrev State.SpacesCanonical (s : State) : Prop :=
  s.enc.src.wf = true ∧ s.enc.dst.wf = true ∧ s.dec.src.wf = true ∧ s.dec.dst.wf = true ∧
    s.he.dst.wf = true ∧ s.hd.src.wf = true

/-- What holds of ENC while it runs: the checks of 42_opcode_encoder.md R141 passed, its lengths are
true, its cursors and its run counter are in range (10_state.md R24; 42 R158 (a), (c)), it has written
no more than R157 allows, and three-channel pixels have alpha 255 (R159). -/
abbrev EncRunning (h : Header) (e : EncEngine) : Prop :=
  e.busy = true →
    encodeCheck h e.srcLen e.dstCap = none ∧ e.srcLen ≤ e.src.size ∧ e.dstCap ≤ e.dst.size ∧
      e.i ≤ pixelCount h.width h.height ∧ e.run.toNat ≤ 61 ∧ 14 ≤ e.o ∧
      e.o + e.run.toNat * (h.channels.toNat + 1) ≤ 14 + e.i * (h.channels.toNat + 1) ∧
      (e.i = pixelCount h.width h.height → e.run = 0#6) ∧
      (h.channels = 3#8 → e.prev.a = 255#8)

/-- What holds of DEC while it runs: the checks of 43_opcode_decoder.md R181 passed, its lengths are
true, its cursors (R197) and its run counter (10_state.md R25) are in range. -/
abbrev DecRunning (d : DecEngine) : Prop :=
  d.busy = true →
    decodeCheck d.width d.height d.channels d.srcLen d.dstCap = none ∧ d.srcLen ≤ d.src.size ∧
      d.dstCap ≤ d.dst.size ∧ d.i ≤ d.pixels ∧ 14 ≤ d.p ∧ d.p + 4 ≤ d.srcLen ∧ d.run.toNat ≤ 61

/-- The invariant of a run. -/
abbrev State.Inv (s : State) : Prop :=
  s.SpacesCanonical ∧ EncRunning s.hdr s.enc ∧ DecRunning s.dec

/-- 20_memory.md R64 (c), while commands run: no byte that a running command writes is a byte of
another space in use. -/
abbrev State.SpacesApart (s : State) : Prop :=
  (s.enc.busy = true →
    extentsMeet (s.enc.src.extent s.enc.srcLen) (s.enc.dst.extent s.enc.dstCap) = false) ∧
  (s.dec.busy = true →
    extentsMeet (s.dec.src.extent s.dec.srcLen) (s.dec.dst.extent s.dec.dstCap) = false) ∧
  (s.enc.busy = true → s.dec.busy = true →
    extentsMeet (s.enc.dst.extent s.enc.dstCap) (s.dec.src.extent s.dec.srcLen) = false ∧
      extentsMeet (s.enc.dst.extent s.enc.dstCap) (s.dec.dst.extent s.dec.dstCap) = false ∧
      extentsMeet (s.enc.src.extent s.enc.srcLen) (s.dec.dst.extent s.dec.dstCap) = false)

/-- Every slot of a cache holds a pixel that hashes to it, or was never written
(43_opcode_decoder.md R186). -/
abbrev SlotsHashHome (c : Cache) : Prop :=
  ∀ h : Fin 64, pixelHash (cacheRead c h) = h ∨ cacheRead c h = zeroPixel

/-- The caches of running engines. -/
abbrev State.CachesHashHome (s : State) : Prop :=
  (s.enc.busy = true → SlotsHashHome s.enc.cache) ∧ (s.dec.busy = true → SlotsHashHome s.dec.cache)

/-- 42_opcode_encoder.md R158 (d): the previous pixel is in the cache at its own slot; before the
first step that is not a run, nothing is in the cache and the previous pixel is the initial one. -/
abbrev EncEngine.PrevCached (e : EncEngine) : Prop :=
  cacheRead e.cache (pixelHash e.prev) = e.prev ∨ (e.prev = initPrev ∧ e.cache = initCache)

/-! ### Comparing states -/

/-- Everything but DEC is the same. -/
abbrev State.SameButDec (s t : State) : Prop :=
  t.hdr = s.hdr ∧ t.enc = s.enc ∧ t.he = s.he ∧ t.hd = s.hd ∧ t.ms = s.ms ∧ t.script = s.script ∧
    t.sched = s.sched

/-- Everything but ENC is the same. -/
abbrev State.SameButEnc (s t : State) : Prop :=
  t.hdr = s.hdr ∧ t.dec = s.dec ∧ t.he = s.he ∧ t.hd = s.hd ∧ t.ms = s.ms ∧ t.script = s.script ∧
    t.sched = s.sched

/-- The parameter and result registers, the spaces and the mode of DEC are the same
(10_state.md R30, R31). -/
abbrev DecEngine.SameOutsideRegisters (d e : DecEngine) : Prop :=
  e.width = d.width ∧ e.height = d.height ∧ e.channels = d.channels ∧ e.srcLen = d.srcLen ∧
    e.dstCap = d.dstCap ∧ e.ok = d.ok ∧ e.status = d.status ∧ e.src = d.src ∧ e.dst = d.dst ∧
    e.busy = d.busy ∧ e.free = d.free

/-- The parameter registers and the spaces of ENC are the same, the destination apart. -/
abbrev EncEngine.SameInputs (d e : EncEngine) : Prop :=
  e.flip = d.flip ∧ e.srcLen = d.srcLen ∧ e.dstCap = d.dstCap ∧ e.src = d.src

/-- The parameter registers and the source of DEC are the same. -/
abbrev DecEngine.SameInputs (d e : DecEngine) : Prop :=
  e.width = d.width ∧ e.height = d.height ∧ e.channels = d.channels ∧ e.srcLen = d.srcLen ∧
    e.dstCap = d.dstCap ∧ e.src = d.src

/-! ### Effects, in the spec's terms -/

/-- One opcode executed (43_opcode_decoder.md R183, R192): the cursor past its `len` bytes, the new
pixel and run counter, the new pixel in the slot `(3r + 5g + 7b + 11a) mod 64`, every other slot and
everything else as before. -/
def OpcodeDid (s t : State) (len : Nat) (px : Pixel) (run : BitVec 6) : Prop :=
  t = s.setDec { s.dec with p := s.dec.p + len, px := px, run := run, cache := t.dec.cache } ∧
    ∀ h : Fin 64, cacheRead t.dec.cache h =
      if h.val = (px.r.toNat * 3 + px.g.toNat * 5 + px.b.toNat * 7 + px.a.toNat * 11) % 64 then px
      else cacheRead s.dec.cache h

/-- One pixel encoded (42_opcode_encoder.md R144, R154): these bytes at the write cursor and no other
byte changed, the pixel in `ENC.px` and `ENC.prev`, the new run counter and cache, the step counter up
by one, everything else as before. -/
def PixelDid (s t : State) (px : Pixel) (bytes : List Byte) (run : BitVec 6) (cache : Cache) : Prop :=
  t = s.setEnc
      { s.enc with
        prev := px, px := px, run := run, cache := cache, i := s.enc.i + 1
        o := s.enc.o + bytes.length, dst := t.enc.dst } ∧
    t.enc.dst.HoldsAt s.enc.o bytes ∧ s.enc.dst.SameOutside t.enc.dst s.enc.o bytes.length

/-- A slot stored (43_opcode_decoder.md R193): the channel bytes at `i*c` and no other byte changed. -/
def SlotDid (d e : DecEngine) (px : Pixel) : Prop :=
  e.i = d.i + 1 ∧
    e.dst.HoldsAt (d.i * d.channels.toNat)
      (if d.channels.toNat = 4 then [px.r, px.g, px.b, px.a] else [px.r, px.g, px.b]) ∧
    d.dst.SameOutside e.dst (d.i * d.channels.toNat) d.channels.toNat

/-- A failed DECODE (60_exceptions.md R223, R225, R226): sentinel and status, idle, inputs and every
other unit as before, no byte outside the capacity changed. -/
def DecodeFailed (s t : State) (st : Status) : Prop :=
  t.dec.ok = false ∧ t.dec.status = st ∧ t.dec.busy = false ∧ s.SameButDec t ∧
    s.dec.SameInputs t.dec ∧ t.dec.dst.base = s.dec.dst.base ∧
    t.dec.dst.content = s.dec.dst.content ∧ t.dec.dst.size = s.dec.dst.size ∧
    ∀ a, s.dec.dstCap ≤ a → t.dec.dst.byteAt a = s.dec.dst.byteAt a

/-- A failed ENCODE, in the same way; the sentinel is a length of 0. -/
def EncodeFailed (s t : State) (st : Status) : Prop :=
  t.enc.outLen = 0 ∧ t.enc.status = st ∧ t.enc.busy = false ∧ s.SameButEnc t ∧
    s.enc.SameInputs t.enc ∧ t.enc.dst.base = s.enc.dst.base ∧
    t.enc.dst.content = s.enc.dst.content ∧ t.enc.dst.size = s.enc.dst.size ∧
    ∀ a, s.enc.dstCap ≤ a → t.enc.dst.byteAt a = s.enc.dst.byteAt a

/-- `d = delta8(x, y)` of 00_scope.md R12: the integer in -128..127 congruent to `x - y` modulo 256. -/
abbrev IsDelta (x y : Byte) (d : Int) : Prop :=
  -128 ≤ d ∧ d ≤ 127 ∧ ((x.toNat : Int) - (y.toNat : Int) - d) % 256 = 0

/-- The byte of a pending run's flush, nothing without one (42_opcode_encoder.md R146). -/
def flushBytes (run : BitVec 6) : List Byte :=
  if run.toNat = 0 then [] else [BitVec.ofNat 8 (0xC0 + (run.toNat - 1))]

/-- 41_pixel_cache_hash.md R126: an encoder's and a decoder's cache agree in every slot but perhaps
53, and there the encoder's is zero and the decoder's holds the initial pixel. -/
abbrev CachesAgree (ec dc : Cache) : Prop :=
  ∀ h : Fin 64, cacheRead ec h = cacheRead dc h ∨
    (h = 53 ∧ cacheRead ec h = zeroPixel ∧ cacheRead dc h = initPrev)

end Sys2Proof.Machine
end

