-- ==== Sys2Proof/Certificates/Slice0/Obligations.lean ====
section
/-! DEFINITION. The statements, from the spec's numbered rules. -/

open Sys2Proof Sys2Proof.Machine

/-! ### Encoding -/

/-- Words written out from the formats of 30_encoding.md R83 to R87. -/
def Obligations.WordsOfTheFormatsDecode : Prop :=
  decode [0b00110001#8] = .ok (.index 49, []) ∧
  decode [0b01110111#8] = .ok (.diff 1 (-1) 1, []) ∧
  decode [0b10101010#8, 0b01011101#8] = .ok (.luma 10 (-3) 5, []) ∧
  decode [0b11000001#8] = .ok (.run 2, []) ∧
  decode [0xFE#8, 0xC8#8, 0x64#8, 0x32#8] = .ok (.rgb 0xC8#8 0x64#8 0x32#8, []) ∧
  decode [0xFF#8, 0x0A#8, 0x0A#8, 0x0A#8, 0x00#8] = .ok (.rgba 0x0A#8 0x0A#8 0x0A#8 0x00#8, [])

/-- 30_encoding.md R95: the bytes of each opcode term, and decoding and encoding inverse on the ranges
of R94 and on every byte string that starts with a complete opcode. -/
def Obligations.DecodeAndEncodeAreInverse : Prop :=
  (∀ slot : Fin 64, encode (.index slot) = [BitVec.ofNat 8 slot.val]) ∧
  (∀ dr dg db : Int, (Instr.diff dr dg db).wf = true →
    encode (.diff dr dg db) = [BitVec.ofInt 8 (0x40 + (dr + 2) * 16 + (dg + 2) * 4 + (db + 2))]) ∧
  (∀ dg x y : Int, (Instr.luma dg x y).wf = true →
    encode (.luma dg x y) =
      [BitVec.ofInt 8 (0x80 + (dg + 32)), BitVec.ofInt 8 ((x + 8) * 16 + (y + 8))]) ∧
  (∀ n : Nat, (Instr.run n).wf = true → encode (.run n) = [BitVec.ofNat 8 (0xC0 + (n - 1))]) ∧
  (∀ r g b : Byte, encode (.rgb r g b) = [0xFE#8, r, g, b]) ∧
  (∀ r g b a : Byte, encode (.rgba r g b a) = [0xFF#8, r, g, b, a]) ∧
  (∀ (i : Instr) (rest : List Byte), i.wf = true → decode (encode i ++ rest) = .ok (i, rest)) ∧
  (∀ (bytes : List Byte) (i : Instr) (rest : List Byte),
    decode bytes = .ok (i, rest) → i.wf = true ∧ encode i ++ rest = bytes)

/-- 30_encoding.md R80, R89: every first byte selects exactly one row of the opcode table, the row
gives the length, and with its operand bytes there the decoder answers that row's opcode and consumes
that length. -/
def Obligations.FirstByteSelectsExactlyOneOpcode : Prop :=
  ∀ (b1 : Byte) (rest : List Byte),
    ∃ row ∈ opcodeRows, row.selects b1 = true ∧
      (∀ other ∈ opcodeRows, other.selects b1 = true → other = row) ∧
      opcodeLength b1 = row.lengthBytes ∧
      (row.lengthBytes ≤ rest.length + 1 →
        ∃ i, decode (b1 :: rest) = .ok (i, rest.drop (row.lengthBytes - 1)) ∧
          i.mnemonic = row.mnemonic)

/-- 30_encoding.md R80: bytes that do not hold a complete opcode are refused by the name of the opcode
that their first byte selects, and no others are. -/
def Obligations.OnlyIncompleteOpcodesAreRefused : Prop :=
  (∀ b1 : Byte, ∀ rest : List Byte, rest.length + 1 < opcodeLength b1 →
    ∃ row ∈ opcodeRows, row.selects b1 = true ∧
      decode (b1 :: rest) = .error (.operandsMissing row.mnemonic)) ∧
  (∀ (bytes : List Byte) (e : DecodeError), decode bytes = .error e →
    bytes = [] ∧ e = .noByte ∨ ∃ b1 rest, bytes = b1 :: rest ∧ rest.length + 1 < opcodeLength b1)

/-! ### The six opcodes, from their bytes to their effect -/

/-- 43_opcode_decoder.md R186. -/
def Obligations.IndexLoadsTheSlot : Prop :=
  ∀ (s : State) (slot : Fin 64),
    decode [BitVec.ofNat 8 slot.val] = .ok (.index slot, []) ∧
    ∃ t, exec (.index slot) s = .next t ∧ OpcodeDid s t 1 (cacheRead s.dec.cache slot) s.dec.run

/-- 43_opcode_decoder.md R187, from the stored fields. -/
def Obligations.DiffMovesThePixelByItsFields : Prop :=
  ∀ (s : State) (b1 : Byte), b1.toNat / 64 = 1 →
    ∃ dr dg db t px, decode [b1] = .ok (.diff dr dg db, []) ∧ exec (.diff dr dg db) s = .next t ∧
      OpcodeDid s t 1 px s.dec.run ∧
      (px.r.toNat : Int) = (s.dec.px.r.toNat + ((b1.toNat / 16 % 4 : Nat) : Int) - 2) % 256 ∧
      (px.g.toNat : Int) = (s.dec.px.g.toNat + ((b1.toNat / 4 % 4 : Nat) : Int) - 2) % 256 ∧
      (px.b.toNat : Int) = (s.dec.px.b.toNat + ((b1.toNat % 4 : Nat) : Int) - 2) % 256 ∧
      px.a = s.dec.px.a

/-- 43_opcode_decoder.md R188, from the stored fields. -/
def Obligations.LumaMovesThePixelByItsFields : Prop :=
  ∀ (s : State) (b1 b2 : Byte), b1.toNat / 64 = 2 →
    ∃ dg x y t px, decode [b1, b2] = .ok (.luma dg x y, []) ∧ exec (.luma dg x y) s = .next t ∧
      OpcodeDid s t 2 px s.dec.run ∧
      dg = ((b1.toNat % 64 : Nat) : Int) - 32 ∧
      (px.r.toNat : Int) = (s.dec.px.r.toNat + (dg + (((b2.toNat / 16 : Nat) : Int) - 8))) % 256 ∧
      (px.g.toNat : Int) = (s.dec.px.g.toNat + dg) % 256 ∧
      (px.b.toNat : Int) = (s.dec.px.b.toNat + (dg + (((b2.toNat % 16 : Nat) : Int) - 8))) % 256 ∧
      px.a = s.dec.px.a

/-- 43_opcode_decoder.md R189: the opcode's own step.  What its run does after it is
`RunOpcodeStandsForItsPixels`. -/
def Obligations.RunLoadsTheCounter : Prop :=
  ∀ (s : State) (b1 : Byte), b1.toNat / 64 = 3 → b1.toNat < 0xFE →
    ∃ n t, decode [b1] = .ok (.run n, []) ∧ n = b1.toNat % 64 + 1 ∧ exec (.run n) s = .next t ∧
      OpcodeDid s t 1 s.dec.px (BitVec.ofNat 6 (b1.toNat % 64))

/-- 43_opcode_decoder.md R190. -/
def Obligations.RgbLoadsThreeChannels : Prop :=
  ∀ (s : State) (r g b : Byte),
    decode [0xFE#8, r, g, b] = .ok (.rgb r g b, []) ∧
    ∃ t, exec (.rgb r g b) s = .next t ∧ OpcodeDid s t 4 ⟨r, g, b, s.dec.px.a⟩ s.dec.run

/-- 43_opcode_decoder.md R191: whatever the output channel count. -/
def Obligations.RgbaLoadsFourChannels : Prop :=
  ∀ (s : State) (r g b a : Byte),
    decode [0xFF#8, r, g, b, a] = .ok (.rgba r g b a, []) ∧
    ∃ t, exec (.rgba r g b a) s = .next t ∧ OpcodeDid s t 5 ⟨r, g, b, a⟩ s.dec.run

/-- Every opcode completes in every state (30_encoding.md R89, 43_opcode_decoder.md): the cursor moves
by the length of its encoding (10_state.md R26).  For operands outside 30_encoding.md R94, which no
bytes decode to, this is the model's choice (log entry 17). -/
def Obligations.EveryOpcodeCompletes : Prop :=
  (∀ (slot : Fin 64) (s : State),
    ∃ t, exec (.index slot) s = .next t ∧ t.dec.p = s.dec.p + (encode (.index slot)).length) ∧
  (∀ (dr dg db : Int) (s : State),
    ∃ t, exec (.diff dr dg db) s = .next t ∧ t.dec.p = s.dec.p + (encode (.diff dr dg db)).length) ∧
  (∀ (dg x y : Int) (s : State),
    ∃ t, exec (.luma dg x y) s = .next t ∧ t.dec.p = s.dec.p + (encode (.luma dg x y)).length) ∧
  (∀ (n : Nat) (s : State),
    ∃ t, exec (.run n) s = .next t ∧ t.dec.p = s.dec.p + (encode (.run n)).length) ∧
  (∀ (r g b : Byte) (s : State),
    ∃ t, exec (.rgb r g b) s = .next t ∧ t.dec.p = s.dec.p + (encode (.rgb r g b)).length) ∧
  (∀ (r g b a : Byte) (s : State),
    ∃ t, exec (.rgba r g b a) s = .next t ∧ t.dec.p = s.dec.p + (encode (.rgba r g b a)).length)

/-- The frame of every opcode: only `DEC.p`, `DEC.px`, `DEC.run` and one cache slot may change, the
run counter only by RUN, alpha only by INDEX and RGBA; every byte of every space stays. -/
def Obligations.OpcodeFrame : Prop :=
  ∀ (i : Instr) (s t : State), exec i s = .next t →
    s.SameButDec t ∧ s.dec.SameOutsideRegisters t.dec ∧ t.dec.i = s.dec.i ∧
    (∀ (sp : SpaceName) (a : Nat), (t.space sp).byteAt a = (s.space sp).byteAt a) ∧
    (∀ h : Fin 64, h ≠ pixelHash t.dec.px → cacheRead t.dec.cache h = cacheRead s.dec.cache h) ∧
    ((∀ n, i ≠ .run n) → t.dec.run = s.dec.run) ∧
    ((∀ slot, i ≠ .index slot) → (∀ r g b a, i ≠ .rgba r g b a) → t.dec.px.a = s.dec.px.a) ∧
    ((∃ n, i = .run n) → t.dec.px = s.dec.px)

/-- 43_opcode_decoder.md R192: after each opcode, and not on the run path. -/
def Obligations.CacheUpdatedByOpcodesNotByTheRunPath : Prop :=
  (∀ (i : Instr) (s t : State), exec i s = .next t →
    ∀ h : Fin 64, cacheRead t.dec.cache h = if h = pixelHash t.dec.px then t.dec.px else cacheRead s.dec.cache h) ∧
  (∀ s : State, s.dec.SlotOpen → s.dec.run ≠ 0#6 →
    ∃ t, decodeStep s = .next t ∧ t.dec.cache = s.dec.cache)

/-! ### The decoder's step -/

/-- A step runs the opcode at the cursor (43_opcode_decoder.md R183, R184): the opcode's meaning, and
after it the pixel store, in the state whose schedule has moved on. -/
def Obligations.StepRunsTheDecodedOpcode : Prop :=
  ∀ (s : State) (i : Instr), s.mover = .dec → s.dec.OpcodeDue → s.dec.NextOpcode i →
    ∃ t u, exec i s.popTurn = .next t ∧ storePixel t = .next u ∧ step s = .next u

/-- 43_opcode_decoder.md R193. -/
def Obligations.PixelStoreWritesItsSlot : Prop :=
  ∀ s : State, s.dec.SlotOpen →
    ∃ t, storePixel s = .next t ∧ SlotDid s.dec t.dec s.dec.px ∧
      t = s.setDec { s.dec with dst := t.dec.dst, i := s.dec.i + 1 }

/-- The run path of 43_opcode_decoder.md R183, wherever the cursor stands (70_reset_and_hazards.md
R260). -/
def Obligations.RunPathRepeatsThePixel : Prop :=
  ∀ s : State, s.dec.SlotOpen → s.dec.run ≠ 0#6 →
    ∃ t, decodeStep s = .next t ∧ SlotDid s.dec t.dec s.dec.px ∧
      t = s.setDec { s.dec with run := t.dec.run, dst := t.dec.dst, i := s.dec.i + 1 } ∧
      t.dec.run.toNat + 1 = s.dec.run.toNat

/-- 43_opcode_decoder.md R185. -/
def Obligations.ExhaustedStreamFails : Prop :=
  ∀ s : State, s.dec.busy = true → s.dec.i < s.dec.pixels → s.dec.run = 0#6 →
    s.dec.srcLen ≤ s.dec.p + 8 → s.dec.dst.wf = true → s.dec.dstCap ≤ s.dec.dst.size →
    ∃ t, decodeStep s = .next t ∧ DecodeFailed s t .bufferTooSmall

/-- 43_opcode_decoder.md R194: what is left over is no failure.  That DEC's registers keep their last
values after the end is the model's choice (log entry 11). -/
def Obligations.DecodeEndsAfterItsLastSlot : Prop :=
  ∀ s : State, s.dec.busy = true → s.dec.pixels ≤ s.dec.i →
    decodeStep s = .next (s.setDec { s.dec with ok := true, status := .ok, busy := false })

/-- 43_opcode_decoder.md R189: a RUN opcode's step and the next ones store the pixel `n` times, and
only the opcode's own step moves the cursor. -/
def Obligations.RunOpcodeStandsForItsPixels : Prop :=
  ∀ (s : State) (n : Nat), s.SpacesCanonical → DecRunning s.dec → s.dec.OpcodeDue →
    s.dec.NextOpcode (.run n) → s.dec.i + n ≤ s.dec.pixels →
    ∃ t, moves decodeStep n s = .next t ∧ t.dec.i = s.dec.i + n ∧ t.dec.p = s.dec.p + 1 ∧
      t.dec.run = 0#6 ∧ t.dec.px = s.dec.px ∧
      ∀ j, j < n →
        t.dec.dst.HoldsAt ((s.dec.i + j) * s.dec.channels.toNat) (pixelBytes s.dec.channels s.dec.px)

/-- 43_opcode_decoder.md R181, R182: the checks of DECODE in their order, and the start. -/
def Obligations.DecodeChecksThenStarts : Prop :=
  ∀ s : State, s.dec.dst.wf = true → s.dec.dstCap ≤ s.dec.dst.size →
    (s.dec.srcLen < 22 → ∃ t, decodeStart s = .next t ∧ DecodeFailed s t .bufferTooSmall) ∧
    (22 ≤ s.dec.srcLen →
      s.dec.width.toNat = 0 ∨ s.dec.height.toNat = 0 ∨
        400000000 / s.dec.width.toNat ≤ s.dec.height.toNat →
      ∃ t, decodeStart s = .next t ∧ DecodeFailed s t .invalidHeader) ∧
    (22 ≤ s.dec.srcLen → s.dec.width.toNat ≠ 0 → s.dec.height.toNat ≠ 0 →
      s.dec.height.toNat < 400000000 / s.dec.width.toNat →
      (s.dec.channels.toNat ≠ 3 → s.dec.channels.toNat ≠ 4 →
        ∃ t, decodeStart s = .next t ∧ DecodeFailed s t .invalidHeader) ∧
      (s.dec.channels.toNat = 3 ∨ s.dec.channels.toNat = 4 →
        (s.dec.dstCap < s.dec.width.toNat * s.dec.height.toNat * s.dec.channels.toNat →
          ∃ t, decodeStart s = .next t ∧ DecodeFailed s t .bufferTooSmall) ∧
        (s.dec.width.toNat * s.dec.height.toNat * s.dec.channels.toNat ≤ s.dec.dstCap →
          decodeStart s = .next (s.setDec
            { s.dec with
              p := 14, px := ⟨0#8, 0#8, 0#8, 255#8⟩, run := 0#6
              cache := Vector.replicate 64 ⟨0#8, 0#8, 0#8, 0#8⟩, i := 0, busy := true }))))

/-- 43_opcode_decoder.md R195 (a): no step of DECODE depends on bytes 0..13 of its source.  Where both
steps end in exhaustion, that they leave the same free values is the model's choice (log entry 1). -/
def Obligations.DecodeIgnoresTheHeaderBytes : Prop :=
  ∀ (s : State) (m : Memory), 14 ≤ s.dec.p → m.size = s.dec.src.size →
    (∀ a, 14 ≤ a → m.byteAt a = s.dec.src.byteAt a) →
    decodeStep (s.setDec (s.dec.setSrc m)) =
      mapNext (fun t => t.setDec (t.dec.setSrc m)) (decodeStep s)

/-- 43_opcode_decoder.md R200: the output channel count changes only what is stored. -/
def Obligations.ChannelCountChangesOnlyTheStore : Prop :=
  ∀ (s : State) (c : Byte) (cap : Nat) (dst : Memory),
    s.dec.SlotOpen → DecEngine.SlotOpen { s.dec with channels := c, dstCap := cap, dst := dst } →
    (0#6 ≠ s.dec.run ∨ s.dec.OpcodeDue) →
    ∃ t u, decodeStep s = .next t ∧
      decodeStep (s.setDec { s.dec with channels := c, dstCap := cap, dst := dst }) = .next u ∧
      u.dec.px = t.dec.px ∧ u.dec.cache = t.dec.cache ∧ u.dec.p = t.dec.p ∧ u.dec.run = t.dec.run ∧
      u.dec.i = t.dec.i

/-- 43_opcode_decoder.md R198: a running DECODE ends within its remaining slots and one move more, and
it ends well only with every slot produced.  That `DEC.i` still says so after the end is the model's
choice (log entry 11). -/
def Obligations.DecodeTerminates : Prop :=
  ∀ s : State, s.Inv → s.dec.busy = true →
    ∃ k t, k ≤ s.dec.pixels - s.dec.i + 1 ∧ moves decodeStep k s = .next t ∧ t.dec.busy = false ∧
      (t.dec.ok = true → t.dec.i = s.dec.pixels)

/-! ### The encoder's command and step -/

/-- 42_opcode_encoder.md R141, R142: the checks of ENCODE in their order, and the start with the
header written. -/
def Obligations.EncodeChecksThenStarts : Prop :=
  ∀ s : State, s.enc.dst.wf = true → s.enc.dstCap ≤ s.enc.dst.size →
    (hdrValid s.hdr = false → ∃ t, encodeStart s = .next t ∧ EncodeFailed s t .encodeFailure) ∧
    (hdrValid s.hdr = true →
      (s.enc.srcLen < s.hdr.width.toNat * s.hdr.height.toNat * s.hdr.channels.toNat →
        ∃ t, encodeStart s = .next t ∧ EncodeFailed s t .encodeFailure) ∧
      (s.hdr.width.toNat * s.hdr.height.toNat * s.hdr.channels.toNat ≤ s.enc.srcLen →
        (s.enc.dstCap < s.hdr.width.toNat * s.hdr.height.toNat * (s.hdr.channels.toNat + 1) + 22 →
          ∃ t, encodeStart s = .next t ∧ EncodeFailed s t .bufferTooSmall) ∧
        (s.hdr.width.toNat * s.hdr.height.toNat * (s.hdr.channels.toNat + 1) + 22 ≤ s.enc.dstCap →
          ∃ t, encodeStart s = .next t ∧
            t = s.setEnc
              { s.enc with
                prev := ⟨0#8, 0#8, 0#8, 255#8⟩, run := 0#6
                cache := Vector.replicate 64 ⟨0#8, 0#8, 0#8, 0#8⟩
                i := 0, o := 14, busy := true, dst := t.enc.dst } ∧
            t.enc.dst.HoldsHeader s.hdr ∧ s.enc.dst.SameOutside t.enc.dst 0 14)))

/-- 42_opcode_encoder.md R143: the address of each pixel of the scan, rows last to first with the
flip flag, and the pixel read there. -/
def Obligations.PixelFetchFollowsTheScan : Prop :=
  (∀ (s : State) (x y : Nat), x < s.hdr.width.toNat → y < s.hdr.height.toNat →
    s.enc.i = y * s.hdr.width.toNat + x →
    ∀ k sy : Nat, sy = (if s.enc.flip = true then s.hdr.height.toNat - 1 - y else y) →
      k = (sy * s.hdr.width.toNat + x) * s.hdr.channels.toNat →
      channelsValid s.hdr.channels = true → k + s.hdr.channels.toNat ≤ s.enc.srcLen →
      s.enc.srcLen ≤ s.enc.src.size →
      s.encFetch = some
        { r := s.enc.src.byteAt k
          g := s.enc.src.byteAt (k + 1)
          b := s.enc.src.byteAt (k + 2)
          a := if s.hdr.channels.toNat = 4 then s.enc.src.byteAt (k + 3) else 255#8 }) ∧
  (∀ (h : Header) (i : Nat), sourceAddress h false i = i * h.channels.toNat)

/-- 42_opcode_encoder.md R145: a pixel equal to the previous one counts; at 62, or at the last pixel,
one byte goes out and the counter restarts.  The cache is left alone. -/
def Obligations.EqualPixelCountsIntoTheRun : Prop :=
  ∀ (s : State) (px : Pixel), s.PixelDue px → px = s.enc.prev → s.enc.run.toNat ≤ 61 →
    ∃ t, encodeStep s = .next t ∧
      ((s.enc.run.toNat + 1 = 62 ∨ s.enc.i + 1 = s.encPixels) →
        PixelDid s t px [BitVec.ofNat 8 (0xC0 + s.enc.run.toNat)] 0#6 s.enc.cache) ∧
      (s.enc.run.toNat + 1 ≠ 62 → s.enc.i + 1 ≠ s.encPixels →
        PixelDid s t px [] (s.enc.run + 1#6) s.enc.cache)

/-- 42_opcode_encoder.md R146, R147: a different pixel that its slot holds goes out as INDEX, after
the flush of a pending run; the cache is not written. -/
def Obligations.CachedPixelGoesOutAsIndex : Prop :=
  ∀ (s : State) (px : Pixel), s.PixelDue px → px ≠ s.enc.prev → s.enc.run.toNat ≤ 61 →
    cacheRead s.enc.cache (pixelHash px) = px →
    ∃ t, encodeStep s = .next t ∧
      PixelDid s t px (flushBytes s.enc.run ++ [BitVec.ofNat 8 (pixelHash px).val]) 0#6 s.enc.cache

/-- 42_opcode_encoder.md R146, R148, R149, R153: on a miss the pixel is stored in its slot, and with a
changed alpha it goes out as RGBA after the flush. -/
def Obligations.ChangedAlphaGoesOutAsRgba : Prop :=
  ∀ (s : State) (px : Pixel), s.PixelDue px → px ≠ s.enc.prev → s.enc.run.toNat ≤ 61 →
    cacheRead s.enc.cache (pixelHash px) ≠ px → px.a ≠ s.enc.prev.a →
    ∃ t, encodeStep s = .next t ∧
      PixelDid s t px (flushBytes s.enc.run ++ [0xFF#8, px.r, px.g, px.b, px.a]) 0#6
        (cacheWrite s.enc.cache px)

/-- 42_opcode_encoder.md R148 to R152, R156: on a miss with the previous alpha, DIFF where its range
permits, else LUMA where its ranges permit, else RGB, after the flush and the store. -/
def Obligations.MissedPixelGoesOutAsDiffLumaOrRgb : Prop :=
  ∀ (s : State) (px : Pixel) (dr dg db : Int), s.PixelDue px → px ≠ s.enc.prev →
    s.enc.run.toNat ≤ 61 → cacheRead s.enc.cache (pixelHash px) ≠ px → px.a = s.enc.prev.a →
    IsDelta px.r s.enc.prev.r dr → IsDelta px.g s.enc.prev.g dg → IsDelta px.b s.enc.prev.b db →
    ∃ t, encodeStep s = .next t ∧
      ((-2 ≤ dr ∧ dr ≤ 1 ∧ -2 ≤ dg ∧ dg ≤ 1 ∧ -2 ≤ db ∧ db ≤ 1) →
        PixelDid s t px
          (flushBytes s.enc.run ++ [BitVec.ofInt 8 (0x40 + (dr + 2) * 16 + (dg + 2) * 4 + (db + 2))])
          0#6 (cacheWrite s.enc.cache px)) ∧
      (¬(-2 ≤ dr ∧ dr ≤ 1 ∧ -2 ≤ dg ∧ dg ≤ 1 ∧ -2 ≤ db ∧ db ≤ 1) →
        (-32 ≤ dg ∧ dg ≤ 31 ∧ -8 ≤ dr - dg ∧ dr - dg ≤ 7 ∧ -8 ≤ db - dg ∧ db - dg ≤ 7) →
        PixelDid s t px
          (flushBytes s.enc.run ++
            [BitVec.ofInt 8 (0x80 + (dg + 32)), BitVec.ofInt 8 ((dr - dg + 8) * 16 + (db - dg + 8))])
          0#6 (cacheWrite s.enc.cache px)) ∧
      (¬(-2 ≤ dr ∧ dr ≤ 1 ∧ -2 ≤ dg ∧ dg ≤ 1 ∧ -2 ≤ db ∧ db ≤ 1) →
        ¬(-32 ≤ dg ∧ dg ≤ 31 ∧ -8 ≤ dr - dg ∧ dr - dg ≤ 7 ∧ -8 ≤ db - dg ∧ db - dg ≤ 7) →
        PixelDid s t px (flushBytes s.enc.run ++ [0xFE#8, px.r, px.g, px.b]) 0#6
          (cacheWrite s.enc.cache px))

/-- 42_opcode_encoder.md R159: with three channels every pixel the encoder handles has alpha 255 and
it emits no RGBA. -/
def Obligations.ThreeChannelsNeverEmitRgba : Prop :=
  ∀ (s : State) (px : Pixel), EncRunning s.hdr s.enc → s.enc.busy = true → s.hdr.channels = 3#8 →
    s.encFetch = some px →
    px.a = 255#8 ∧ ∀ i ∈ (s.encChoice px).1, ∀ r g b a, i ≠ .rgba r g b a

/-- 42_opcode_encoder.md R155: after the last pixel the end marker, the length and the status.  That
ENC's registers keep their last values after the end is the model's choice (log entry 11). -/
def Obligations.EncodeTailWritesTheEndMarker : Prop :=
  ∀ s : State, s.enc.busy = true → s.encPixels ≤ s.enc.i → s.enc.o + 8 ≤ s.enc.dstCap →
    s.enc.dstCap ≤ s.enc.dst.size → s.enc.dst.wf = true →
    ∃ t, encodeStep s = .next t ∧
      t = s.setEnc
        { s.enc with
          o := s.enc.o + 8, outLen := s.enc.o + 8, status := .ok, busy := false, dst := t.enc.dst } ∧
      t.enc.dst.HoldsAt s.enc.o [0#8, 0#8, 0#8, 0#8, 0#8, 0#8, 0#8, 1#8] ∧
      s.enc.dst.SameOutside t.enc.dst s.enc.o 8

/-- 42_opcode_encoder.md R157, R160: once its checks have passed, ENCODE completes after exactly one
move for each pixel and the tail, and writes at most the documented bound. -/
def Obligations.EncodeCompletesWithinTheBound : Prop :=
  ∀ s : State, s.Inv → launchRefusal .encode s = none →
    encodeCheck s.hdr s.enc.srcLen s.enc.dstCap = none →
    ∃ t, issueCommand .encode s = .next t ∧
      (∀ k, k ≤ s.encPixels →
        ∃ u, moves encodeStep k t = .next u ∧ u.enc.busy = true ∧ u.enc.i = k) ∧
      ∃ u, moves encodeStep (s.encPixels + 1) t = .next u ∧ u.enc.busy = false ∧
        u.enc.status = .ok ∧ 23 ≤ u.enc.outLen ∧
        u.enc.outLen ≤ s.hdr.width.toNat * s.hdr.height.toNat * (s.hdr.channels.toNat + 1) + 22

/-! ### The header serializer -/

/-- 40_header_serializer.md R102, R103, byte by byte (20_memory.md R52). -/
def Obligations.EncodeHeaderWritesFourteenBytesOrFails : Prop :=
  ∀ s : State, s.he.dst.wf = true → 14 ≤ s.he.dst.size →
    (hdrValid s.hdr = true →
      ∃ t, encodeHeader s = .next t ∧
        t = s.setHe { ok := true, status := .ok, dst := t.he.dst } ∧
        t.he.dst.HoldsHeader s.hdr ∧
        s.he.dst.SameOutside t.he.dst 0 14) ∧
    (hdrValid s.hdr = false →
      encodeHeader s = .next (s.setHe { ok := false, status := .invalidHeader, dst := s.he.dst }))

/-- 40_header_serializer.md R104 to R108: length, magic, fields, in that order; only the result
registers change. -/
def Obligations.DecodeHeaderChecksInOrder : Prop :=
  ∀ s : State, s.hd.srcLen ≤ s.hd.src.size →
    ∃ t, decodeHeader s = .next t ∧ t = s.setHd t.hd ∧ t.hd.src = s.hd.src ∧
      t.hd.srcLen = s.hd.srcLen ∧
      (s.hd.srcLen < 22 → t.hd.ok = false ∧ t.hd.status = .bufferTooSmall) ∧
      (22 ≤ s.hd.srcLen → s.hd.src.bytesFrom 0 4 ≠ [0x71#8, 0x6F#8, 0x69#8, 0x66#8] →
        t.hd.ok = false ∧ t.hd.status = .invalidHeader) ∧
      (22 ≤ s.hd.srcLen → s.hd.src.bytesFrom 0 4 = [0x71#8, 0x6F#8, 0x69#8, 0x66#8] →
        ∀ h : Header,
          h.width.toNat = (s.hd.src.byteAt 4).toNat * 2 ^ 24 + (s.hd.src.byteAt 5).toNat * 2 ^ 16 +
            (s.hd.src.byteAt 6).toNat * 2 ^ 8 + (s.hd.src.byteAt 7).toNat →
          h.height.toNat = (s.hd.src.byteAt 8).toNat * 2 ^ 24 + (s.hd.src.byteAt 9).toNat * 2 ^ 16 +
            (s.hd.src.byteAt 10).toNat * 2 ^ 8 + (s.hd.src.byteAt 11).toNat →
          h.channels = s.hd.src.byteAt 12 → h.colorspace = s.hd.src.byteAt 13 →
          (hdrValid h = false → t.hd.ok = false ∧ t.hd.status = .invalidHeader) ∧
          (hdrValid h = true → t.hd.ok = true ∧ t.hd.status = .ok ∧ t.hd.width = h.width ∧
            t.hd.height = h.height ∧ t.hd.channels = h.channels ∧ t.hd.colorspace = h.colorspace))

/-- 40_header_serializer.md R109, both directions. -/
def Obligations.HeaderRoundTrip : Prop :=
  (∀ s : State, hdrValid s.hdr = true → s.he.dst.wf = true → 14 ≤ s.he.dst.size →
    ∃ t, encodeHeader s = .next t ∧
      ∀ u : State, 22 ≤ u.hd.srcLen → u.hd.srcLen ≤ u.hd.src.size →
        (∀ a, a < 14 → u.hd.src.byteAt a = t.he.dst.byteAt a) →
        ∃ v, decodeHeader u = .next v ∧ v.hd.ok = true ∧
          ({ width := v.hd.width, height := v.hd.height, channels := v.hd.channels,
             colorspace := v.hd.colorspace } : Header) = s.hdr) ∧
  (∀ u v : State, decodeHeader u = .next v → v.hd.ok = true →
    ∀ s : State, s.hdr = { width := v.hd.width, height := v.hd.height, channels := v.hd.channels,
                           colorspace := v.hd.colorspace } →
      s.he.dst.wf = true → 14 ≤ s.he.dst.size →
      ∃ t, encodeHeader s = .next t ∧ t.he.ok = true ∧
        ∀ a, a < 14 → t.he.dst.byteAt a = u.hd.src.byteAt a)

/-- 40_header_serializer.md R110. -/
def Obligations.MaxSizeIsTheWorstCase : Prop :=
  ∀ s : State, maxSize s = .next
    { s with ms := s.hdr.width.toNat * s.hdr.height.toNat * (s.hdr.channels.toNat + 1) + 22 }

/-- 40_header_serializer.md R100: the validity predicate. -/
def Obligations.HeaderValidExactlyWhen : Prop :=
  ∀ h : Header, hdrValid h = true ↔
    h.width.toNat ≠ 0 ∧ h.height.toNat ≠ 0 ∧ (h.channels.toNat = 3 ∨ h.channels.toNat = 4) ∧
      (h.colorspace.toNat = 0 ∨ h.colorspace.toNat = 1) ∧
      ¬ (400000000 / h.width.toNat ≤ h.height.toNat)

/-- 00_scope.md R11. -/
def Obligations.ValidSizesFitThirtyOneBits : Prop :=
  ∀ h : Header, hdrValid h = true →
    h.width.toNat * h.height.toNat ≤ 400000000 - h.width.toNat ∧
    400000000 - h.width.toNat ≤ 399999999 ∧
    h.width.toNat * h.height.toNat * h.channels.toNat ≤ 1599999996 ∧
    h.width.toNat * h.height.toNat * (h.channels.toNat + 1) + 22 ≤ 2000000017

/-! ### The hash and the caches -/

/-- 41_pixel_cache_hash.md R120, R121: the hash, and the same hash from the low six bits of each
channel. -/
def Obligations.HashUsesTheLowSixBits : Prop :=
  ∀ p : Pixel,
    (pixelHash p).val = (p.r.toNat * 3 + p.g.toNat * 5 + p.b.toNat * 7 + p.a.toNat * 11) % 64 ∧
    (pixelHash p).val = (p.r.toNat % 64 * 3 + p.g.toNat % 64 * 5 + p.b.toNat % 64 * 7 +
      p.a.toNat % 64 * 11) % 64

/-- 43_opcode_decoder.md R186, 41_pixel_cache_hash.md R123: in every run a written slot holds a pixel
that hashes to it. -/
def Obligations.WrittenSlotsHashHome : Prop :=
  ∀ s t : State, s.CachesHashHome → step s = .next t → t.CachesHashHome

/-- 42_opcode_encoder.md R158 (d), for every step. -/
def Obligations.PreviousPixelStaysCached : Prop :=
  ∀ s t : State, (s.enc.busy = true → s.enc.PrevCached) → step s = .next t →
    t.enc.busy = true → t.enc.PrevCached

/-! ### Invariants of every run -/

/-- The invariants hold at power-on. -/
def Obligations.InvariantsHoldAtReset : Prop :=
  State.reset.Inv ∧ State.reset.SpacesApart ∧ State.reset.CachesHashHome

/-- Every step keeps the invariant: canonical spaces; cursors, counters and output length of a running
engine in range (42_opcode_encoder.md R157, R158; 43_opcode_decoder.md R197). -/
def Obligations.StepKeepsTheInvariant : Prop :=
  ∀ s t : State, s.Inv → step s = .next t → t.Inv

/-- 20_memory.md R51: no step of a run reads or writes outside a space. -/
def Obligations.NoStepLeavesItsSpaces : Prop :=
  ∀ s : State, s.Inv → isFault (step s) = false

/-- 20_memory.md R64 (c): running commands' spaces stay apart. -/
def Obligations.RunningSpacesStayApart : Prop :=
  ∀ s t : State, s.SpacesApart → step s = .next t → t.SpacesApart

/-- 10_state.md R30, 20_memory.md R64 (a): while a command runs, no step of any agent changes a
parameter register or a source byte it reads. -/
def Obligations.RunningInputsAreConstant : Prop :=
  ∀ s t : State, step s = .next t →
    (s.enc.busy = true →
      t.hdr = s.hdr ∧ t.enc.flip = s.enc.flip ∧ t.enc.srcLen = s.enc.srcLen ∧
      t.enc.dstCap = s.enc.dstCap ∧
      (s.enc.src.wf = true → ∀ a, a < s.enc.srcLen → t.enc.src.byteAt a = s.enc.src.byteAt a)) ∧
    (s.dec.busy = true →
      t.dec.width = s.dec.width ∧ t.dec.height = s.dec.height ∧ t.dec.channels = s.dec.channels ∧
      t.dec.srcLen = s.dec.srcLen ∧ t.dec.dstCap = s.dec.dstCap ∧
      (s.dec.src.wf = true → ∀ a, a < s.dec.srcLen → t.dec.src.byteAt a = s.dec.src.byteAt a))

/-! ### Failures, launches, the host, the two engines -/

/-- 60_exceptions.md R221, R223, R225: what raising each cause of R222 leaves. -/
def Obligations.FailureSetsSentinelAndStatus : Prop :=
  ∀ s : State, s.SpacesCanonical → s.enc.dstCap ≤ s.enc.dst.size → s.dec.dstCap ≤ s.dec.dst.size →
    (∀ c : Cause, c.command = .encode → EncodeFailed s (raiseFailure c s) c.status) ∧
    (∀ c : Cause, c.command = .decode → DecodeFailed s (raiseFailure c s) c.status) ∧
    (∀ c : Cause, c.command = .encodeHeader →
      raiseFailure c s = s.setHe { ok := false, status := c.status, dst := s.he.dst }) ∧
    (∀ c : Cause, c.command = .decodeHeader →
      raiseFailure c s = s.setHd (raiseFailure c s).hd ∧ (raiseFailure c s).hd.ok = false ∧
        (raiseFailure c s).hd.status = c.status ∧ (raiseFailure c s).hd.src = s.hd.src ∧
        (raiseFailure c s).hd.srcLen = s.hd.srcLen) ∧
    (∀ c : Cause, c.command ≠ .maxSize) ∧
    Status.ok.code = 0#2 ∧ Status.invalidHeader.code = 1#2 ∧ Status.bufferTooSmall.code = 2#2 ∧
    Status.encodeFailure.code = 3#2

/-- 10_state.md R29, 70_reset_and_hazards.md R250: a command depends on no register an earlier one
left.  Where the start fails, that it leaves the same free values is the model's choice (log
entry 1). -/
def Obligations.CommandsForgetEarlierRegisters : Prop :=
  (∀ (s : State) (d : DecEngine), s.dec.SameOutsideRegisters d →
    decodeStart (s.setDec d) = decodeStart s) ∧
  (∀ (s : State) (prev : Pixel) (run : BitVec 6) (cache : Cache) (i o : Nat),
    encodeStart (s.setEnc { s.enc with prev := prev, run := run, cache := cache, i := i, o := o }) =
      encodeStart s) ∧
  (∀ (s : State) (px q : Pixel), s.PixelDue px →
    encodeStep (s.setEnc { s.enc with px := q }) = encodeStep s)

/-- 60_exceptions.md R232, 70_reset_and_hazards.md R252 duties 2, 4 and 7 (93_implementation_defined.md
U14, U15), 20_memory.md R64 (c): which launches are refused, and that every other one runs its command.
That the tests come in this order and before the command's own checks is the model's choice (log
entry 12), and so is duty 2 for legal channel counts only (log entry 7). -/
def Obligations.LaunchesRefusedExactlyWhen : Prop :=
  ∀ (c : Command) (s : State),
    (s.engineBusy c = true → issueCommand c s = .refused (.engineBusy c)) ∧
    (s.engineBusy c = false →
      (∃ sp len size, (sp, len, size) ∈ s.statedLengths c ∧ size < len) →
      ∃ sp len size, (sp, len, size) ∈ s.statedLengths c ∧ size < len ∧
        issueCommand c s = .refused (.lengthNotTrue sp)) ∧
    (s.engineBusy c = false → (∀ sp len size, (sp, len, size) ∈ s.statedLengths c → len ≤ size) →
      (c = .encode → ¬ s.ContentTrue c → issueCommand c s = .refused .channelsNotTrue) ∧
      (c = .decode → ¬ s.ContentTrue c → issueCommand c s = .refused .streamLengthNotTrue) ∧
      (s.ContentTrue c →
        ((∃ x y, (x ∈ s.readsOf c ∧ y ∈ s.writesOf c ++ s.liveWrites ∨
            x ∈ s.writesOf c ∧ y ∈ s.liveReads ++ s.liveWrites) ∧ extentsMeet x y = true) →
          issueCommand c s = .refused (.overlap c)) ∧
        ((∀ x y, (x ∈ s.readsOf c ∧ y ∈ s.writesOf c ++ s.liveWrites ∨
            x ∈ s.writesOf c ∧ y ∈ s.liveReads ++ s.liveWrites) → extentsMeet x y = false) →
          issueCommand c s = runCommand c s)))

/-- 20_memory.md R65: what the encoder wrote is what the decoder is given, and nothing else changes.
That DEC.src keeps the encoder's place is the model's choice (log entry 9; R55 puts the place outside
the spec), that it counts as a bitstream of that length is too (log entry 7), and so are the name
of the refusal while an engine runs (log entry 15) and that the idle DEC's registers stay (log
entry 11). -/
def Obligations.PassedStreamIsTheEncodersOutput : Prop :=
  (∀ s : State, s.enc.busy = true ∨ s.dec.busy = true →
    hostAct .passStream s = .refused .changedDuringCommand) ∧
  ∀ s : State, s.enc.dst.wf = true → s.enc.outLen ≤ s.enc.dst.size → s.enc.busy = false →
    s.dec.busy = false →
    ∃ t, hostAct .passStream s = .next t ∧
      t = s.setDec { s.dec with src := t.dec.src, srcLen := s.enc.outLen } ∧
      t.dec.src.size = s.enc.outLen ∧ t.dec.src.content = .stream s.enc.outLen ∧
      t.dec.src.base = s.enc.dst.base ∧ t.dec.src.wf = true ∧
      (∀ a, a < s.enc.outLen → t.dec.src.byteAt a = s.enc.dst.byteAt a)

/-- 10_state.md R30, 60_exceptions.md R230: the host writes parameter registers, each act those it
names, and of a running command none.  That an idle engine's registers stay is the model's choice (log
entry 11), and so is the name of the refusal (log entry 15). -/
def Obligations.HostWritesParameters : Prop :=
  ∀ s : State,
    (∀ h : Header,
      (s.enc.busy = false → hostAct (.setHdr h) s = .next { s with hdr := h }) ∧
      (s.enc.busy = true → hostAct (.setHdr h) s = .refused .changedDuringCommand)) ∧
    (∀ (flip : Bool) (srcLen dstCap : Nat),
      (s.enc.busy = false → hostAct (.setEnc flip srcLen dstCap) s =
        .next { s with enc := { s.enc with flip := flip, srcLen := srcLen, dstCap := dstCap } }) ∧
      (s.enc.busy = true → hostAct (.setEnc flip srcLen dstCap) s = .refused .changedDuringCommand)) ∧
    (∀ (width height : Word) (channels : Byte) (srcLen dstCap : Nat),
      (s.dec.busy = false → hostAct (.setDec width height channels srcLen dstCap) s =
        .next { s with
          dec := { s.dec with
            width := width, height := height, channels := channels, srcLen := srcLen
            dstCap := dstCap } }) ∧
      (s.dec.busy = true →
        hostAct (.setDec width height channels srcLen dstCap) s = .refused .changedDuringCommand)) ∧
    (∀ srcLen : Nat, hostAct (.setHd srcLen) s = .next { s with hd := { s.hd with srcLen := srcLen } })

/-- 20_memory.md R50, R56, R64 (a), (b), 60_exceptions.md R230: what handing over a buffer, storing a
byte and reading a byte do, and exactly when they are refused.  The names of the refusals and their
order are the model's choice (log entry 15). -/
def Obligations.HostUsesBuffers : Prop :=
  (∀ (s : State) (sp : SpaceName) (base : Nat) (content : Content) (bytes : List Byte),
    (s.InCommand sp → hostAct (.give sp base content bytes) s = .refused .changedDuringCommand) ∧
    (¬ s.InCommand sp →
      (∃ j, j < bytes.length ∧ (s.WrittenByACommand (base + j) ∨
        s.OtherReadByACommand (base + j) (bytes.getD j 0#8))) →
      hostAct (.give sp base content bytes) s = .refused (.touchedDuringCommand sp)) ∧
    (¬ s.InCommand sp →
      (∀ j, j < bytes.length → ¬ s.WrittenByACommand (base + j) ∧
        ¬ s.OtherReadByACommand (base + j) (bytes.getD j 0#8)) →
      ∃ m, hostAct (.give sp base content bytes) s = .next (s.setSpace sp m) ∧ m.base = base ∧
        m.content = content ∧ m.size = bytes.length ∧ m.wf = true ∧ m.HoldsAt 0 bytes)) ∧
  (∀ (s : State) (sp : SpaceName) (a : Nat) (v : Byte),
    ((s.space sp).size ≤ a → hostAct (.writeByte sp a v) s = .refused (.outsideBuffer sp)) ∧
    (a < (s.space sp).size →
      s.ReadByACommand ((s.space sp).base + a) ∨ s.WrittenByACommand ((s.space sp).base + a) →
      hostAct (.writeByte sp a v) s = .refused (.touchedDuringCommand sp)) ∧
    (a < (s.space sp).size → (s.space sp).wf = true →
      ¬ s.ReadByACommand ((s.space sp).base + a) → ¬ s.WrittenByACommand ((s.space sp).base + a) →
      ∃ m, hostAct (.writeByte sp a v) s = .next (s.setSpace sp m) ∧ m.wf = true ∧ m.byteAt a = v ∧
        (s.space sp).SameOutside m a 1)) ∧
  (∀ (s : State) (sp : SpaceName) (a : Nat),
    ((s.space sp).size ≤ a → hostAct (.readByte sp a) s = .refused (.outsideBuffer sp)) ∧
    (a < (s.space sp).size → s.WrittenByACommand ((s.space sp).base + a) →
      hostAct (.readByte sp a) s = .refused (.touchedDuringCommand sp)) ∧
    (a < (s.space sp).size → ¬ s.WrittenByACommand ((s.space sp).base + a) →
      hostAct (.readByte sp a) s = .next s))

/-- 00_scope.md R7, R9: a step is one move of one agent, the first of the schedule, else a running
engine, else the host with its next act.  The schedule and the script are the model's own (log
entry 4). -/
def Obligations.StepIsTheMoversMove : Prop :=
  ∀ s : State,
    (∀ a rest, s.sched = a :: rest → s.mover = a) ∧
    (s.sched = [] → s.dec.busy = true → s.mover = .dec) ∧
    (s.sched = [] → s.dec.busy = false → s.enc.busy = true → s.mover = .enc) ∧
    (s.sched = [] → s.dec.busy = false → s.enc.busy = false → s.mover = .host) ∧
    (s.mover = .enc → step s = encodeStep { s with sched := s.sched.tail }) ∧
    (s.mover = .dec → step s = decodeStep { s with sched := s.sched.tail }) ∧
    (s.mover = .host → s.script = [] → step s = .next { s with sched := s.sched.tail }) ∧
    (∀ op rest, s.mover = .host → s.script = op :: rest →
      step s = hostAct op { s with sched := s.sched.tail, script := rest })

/-- 20_memory.md R63, 10_state.md R28: a move of one engine changes nothing but that engine. -/
def Obligations.EngineMovesStayInTheirEngine : Prop :=
  (∀ s t : State, encodeStep s = .next t → s.SameButEnc t) ∧
  (∀ s t : State, decodeStep s = .next t → s.SameButDec t)

/-- 20_memory.md R63: moves of the two engines give the same state in either order.  Where DEC's move
fails, that both orders leave the same free values is the model's choice (log entry 1). -/
def Obligations.EngineMovesCommute : Prop :=
  ∀ s t u : State, encodeStep s = .next t → decodeStep s = .next u →
    ∃ v, decodeStep t = .next v ∧ encodeStep u = .next v

/-- 10_state.md R37: with no command running and no act of the host, nothing changes.  For the idle
engines' registers this is the model's choice (log entry 11), and the schedule is its own (log
entry 4). -/
def Obligations.IdleBlockDoesNothing : Prop :=
  ∀ s : State, s.enc.busy = false → s.dec.busy = false → s.script = [] →
    step s = .next s.popTurn

/-- The values of power-on, all of which the model names (log entry 5): the call-start values of
10_state.md R36 where there is one, else zero, with no command in progress, no buffer and no act of the
host. -/
def Obligations.ResetLeavesTheNamedValues : Prop :=
  (State.reset.enc.prev = ⟨0#8, 0#8, 0#8, 255#8⟩ ∧ State.reset.enc.px = ⟨0#8, 0#8, 0#8, 0#8⟩ ∧
    State.reset.enc.run = 0#6 ∧ State.reset.enc.i = 0 ∧ State.reset.enc.o = 0 ∧
    State.reset.enc.flip = false ∧ State.reset.enc.srcLen = 0 ∧ State.reset.enc.dstCap = 0 ∧
    State.reset.enc.outLen = 0 ∧ State.reset.enc.status = .ok ∧ State.reset.enc.busy = false ∧
    State.reset.enc.free = 0) ∧
  (State.reset.dec.px = ⟨0#8, 0#8, 0#8, 255#8⟩ ∧ State.reset.dec.run = 0#6 ∧ State.reset.dec.p = 14 ∧
    State.reset.dec.i = 0 ∧ State.reset.dec.width = 0#32 ∧ State.reset.dec.height = 0#32 ∧
    State.reset.dec.channels = 0#8 ∧ State.reset.dec.srcLen = 0 ∧ State.reset.dec.dstCap = 0 ∧
    State.reset.dec.ok = false ∧ State.reset.dec.status = .ok ∧ State.reset.dec.busy = false ∧
    State.reset.dec.free = 0) ∧
  (State.reset.hdr = ⟨0#32, 0#32, 0#8, 0#8⟩ ∧ State.reset.he.ok = false ∧ State.reset.he.status = .ok ∧
    State.reset.hd.srcLen = 0 ∧ State.reset.hd.ok = false ∧ State.reset.hd.status = .ok ∧
    State.reset.hd.width = 0#32 ∧ State.reset.hd.height = 0#32 ∧ State.reset.hd.channels = 0#8 ∧
    State.reset.hd.colorspace = 0#8 ∧ State.reset.hd.free = 0 ∧ State.reset.ms = 0 ∧
    State.reset.script = [] ∧ State.reset.sched = []) ∧
  (∀ sp : SpaceName, State.reset.space sp = ⟨0, .stream 0, 0, []⟩) ∧
  ∀ h : Fin 64, cacheRead State.reset.enc.cache h = ⟨0#8, 0#8, 0#8, 0#8⟩ ∧
    cacheRead State.reset.dec.cache h = ⟨0#8, 0#8, 0#8, 0#8⟩

/-! ### Encoder against decoder -/

/-- 43_opcode_decoder.md R199, 41_pixel_cache_hash.md R126: whatever opcode the encoder chooses for a
pixel that differs from the previous one, the decoder's execution of it gives that pixel, and the
caches go on agreeing. -/
def Obligations.DecoderUndoesTheEncodersChoice : Prop :=
  ∀ (prev px : Pixel) (ec : Cache) (s : State), px ≠ prev → s.dec.px = prev →
    CachesAgree ec s.dec.cache →
    ∃ t, exec (chooseOpcode prev ec px).1 s = .next t ∧ t.dec.px = px ∧
      CachesAgree (chooseOpcode prev ec px).2 t.dec.cache

/-- 41_pixel_cache_hash.md R126: a RUN opcode keeps the caches agreeing, a leading run by the
exception of slot 53. -/
def Obligations.RunKeepsTheCachesAgreeing : Prop :=
  ∀ (ec : Cache) (s : State) (n : Nat), CachesAgree ec s.dec.cache →
    (cacheRead ec (pixelHash s.dec.px) = s.dec.px ∨
      (s.dec.px = initPrev ∧ cacheRead ec 53 = zeroPixel)) →
    ∃ t, exec (.run n) s = .next t ∧ t.dec.px = s.dec.px ∧ CachesAgree ec t.dec.cache

/-- 43_opcode_decoder.md R199: an image encoded and decoded again is the image, its rows reversed if
the flip flag was set; the cursor ends at the end marker with no run left over. -/
def Obligations.DecodedImageIsTheEncodedImage : Prop :=
  ∀ s : State, s.Inv → launchRefusal .encode s = none →
    encodeCheck s.hdr s.enc.srcLen s.enc.dstCap = none →
    ∃ t u, issueCommand .encode s = .next t ∧
      moves encodeStep (s.encPixels + 1) t = .next u ∧ u.enc.busy = false ∧ u.enc.status = .ok ∧
      ∀ d : DecEngine, d.busy = false → d.width = s.hdr.width → d.height = s.hdr.height →
        d.channels = s.hdr.channels → d.srcLen = u.enc.outLen → d.srcLen ≤ d.src.size →
        (∀ a, a < d.srcLen → d.src.byteAt a = u.enc.dst.byteAt a) →
        rawLength d.width d.height d.channels ≤ d.dstCap → d.dstCap ≤ d.dst.size →
        d.dst.wf = true →
        ∃ v w, decodeStart (u.setDec d) = .next v ∧
          moves decodeStep (s.encPixels + 1) v = .next w ∧ w.dec.ok = true ∧
          w.dec.busy = false ∧ w.dec.p + 8 = u.enc.outLen ∧ w.dec.run = 0#6 ∧
          ∀ x y j, x < s.hdr.width.toNat → y < s.hdr.height.toNat → j < s.hdr.channels.toNat →
            w.dec.dst.byteAt ((y * s.hdr.width.toNat + x) * s.hdr.channels.toNat + j) =
              s.enc.src.byteAt
                (((if s.enc.flip = true then s.hdr.height.toNat - 1 - y else y) *
                  s.hdr.width.toNat + x) * s.hdr.channels.toNat + j)
end

