-- ==== Sys2Proof/Laws/State.lean ====
section
/-! SUPPORT. One lemma for each field and each update of the state, true by rfl. -/

namespace Sys2Proof.Machine

section setters
variable (s : State)

@[simp] theorem State.setHdr_hdr (h : Header) : (s.setHdr h).hdr = h := rfl
@[simp] theorem State.setHdr_enc (h : Header) : (s.setHdr h).enc = s.enc := rfl
@[simp] theorem State.setHdr_dec (h : Header) : (s.setHdr h).dec = s.dec := rfl
@[simp] theorem State.setHdr_he (h : Header) : (s.setHdr h).he = s.he := rfl
@[simp] theorem State.setHdr_hd (h : Header) : (s.setHdr h).hd = s.hd := rfl
@[simp] theorem State.setHdr_ms (h : Header) : (s.setHdr h).ms = s.ms := rfl
@[simp] theorem State.setHdr_script (h : Header) : (s.setHdr h).script = s.script := rfl
@[simp] theorem State.setHdr_sched (h : Header) : (s.setHdr h).sched = s.sched := rfl

@[simp] theorem State.setEnc_hdr (e : EncEngine) : (s.setEnc e).hdr = s.hdr := rfl
@[simp] theorem State.setEnc_enc (e : EncEngine) : (s.setEnc e).enc = e := rfl
@[simp] theorem State.setEnc_dec (e : EncEngine) : (s.setEnc e).dec = s.dec := rfl
@[simp] theorem State.setEnc_he (e : EncEngine) : (s.setEnc e).he = s.he := rfl
@[simp] theorem State.setEnc_hd (e : EncEngine) : (s.setEnc e).hd = s.hd := rfl
@[simp] theorem State.setEnc_ms (e : EncEngine) : (s.setEnc e).ms = s.ms := rfl
@[simp] theorem State.setEnc_script (e : EncEngine) : (s.setEnc e).script = s.script := rfl
@[simp] theorem State.setEnc_sched (e : EncEngine) : (s.setEnc e).sched = s.sched := rfl
@[simp] theorem State.setEnc_setEnc (e e' : EncEngine) : (s.setEnc e).setEnc e' = s.setEnc e' := rfl

@[simp] theorem State.setDec_hdr (d : DecEngine) : (s.setDec d).hdr = s.hdr := rfl
@[simp] theorem State.setDec_enc (d : DecEngine) : (s.setDec d).enc = s.enc := rfl
@[simp] theorem State.setDec_dec (d : DecEngine) : (s.setDec d).dec = d := rfl
@[simp] theorem State.setDec_he (d : DecEngine) : (s.setDec d).he = s.he := rfl
@[simp] theorem State.setDec_hd (d : DecEngine) : (s.setDec d).hd = s.hd := rfl
@[simp] theorem State.setDec_ms (d : DecEngine) : (s.setDec d).ms = s.ms := rfl
@[simp] theorem State.setDec_script (d : DecEngine) : (s.setDec d).script = s.script := rfl
@[simp] theorem State.setDec_sched (d : DecEngine) : (s.setDec d).sched = s.sched := rfl
@[simp] theorem State.setDec_setDec (d d' : DecEngine) : (s.setDec d).setDec d' = s.setDec d' := rfl

@[simp] theorem State.setHe_hdr (u : HeUnit) : (s.setHe u).hdr = s.hdr := rfl
@[simp] theorem State.setHe_enc (u : HeUnit) : (s.setHe u).enc = s.enc := rfl
@[simp] theorem State.setHe_dec (u : HeUnit) : (s.setHe u).dec = s.dec := rfl
@[simp] theorem State.setHe_he (u : HeUnit) : (s.setHe u).he = u := rfl
@[simp] theorem State.setHe_hd (u : HeUnit) : (s.setHe u).hd = s.hd := rfl
@[simp] theorem State.setHe_ms (u : HeUnit) : (s.setHe u).ms = s.ms := rfl
@[simp] theorem State.setHe_script (u : HeUnit) : (s.setHe u).script = s.script := rfl
@[simp] theorem State.setHe_sched (u : HeUnit) : (s.setHe u).sched = s.sched := rfl

@[simp] theorem State.setHd_hdr (u : HdUnit) : (s.setHd u).hdr = s.hdr := rfl
@[simp] theorem State.setHd_enc (u : HdUnit) : (s.setHd u).enc = s.enc := rfl
@[simp] theorem State.setHd_dec (u : HdUnit) : (s.setHd u).dec = s.dec := rfl
@[simp] theorem State.setHd_he (u : HdUnit) : (s.setHd u).he = s.he := rfl
@[simp] theorem State.setHd_hd (u : HdUnit) : (s.setHd u).hd = u := rfl
@[simp] theorem State.setHd_ms (u : HdUnit) : (s.setHd u).ms = s.ms := rfl
@[simp] theorem State.setHd_script (u : HdUnit) : (s.setHd u).script = s.script := rfl
@[simp] theorem State.setHd_sched (u : HdUnit) : (s.setHd u).sched = s.sched := rfl

@[simp] theorem State.popTurn_hdr : s.popTurn.hdr = s.hdr := rfl
@[simp] theorem State.popTurn_enc : s.popTurn.enc = s.enc := rfl
@[simp] theorem State.popTurn_dec : s.popTurn.dec = s.dec := rfl
@[simp] theorem State.popTurn_he : s.popTurn.he = s.he := rfl
@[simp] theorem State.popTurn_hd : s.popTurn.hd = s.hd := rfl
@[simp] theorem State.popTurn_ms : s.popTurn.ms = s.ms := rfl
@[simp] theorem State.popTurn_script : s.popTurn.script = s.script := rfl
@[simp] theorem State.popTurn_sched : s.popTurn.sched = s.sched.tail := rfl

end setters

section decoder
variable (d : DecEngine)

@[simp] theorem DecEngine.retire_px (n : Nat) (q : Pixel) : (d.retire n q).px = q := rfl
@[simp] theorem DecEngine.retire_p (n : Nat) (q : Pixel) : (d.retire n q).p = d.p + n := rfl
@[simp] theorem DecEngine.retire_cache (n : Nat) (q : Pixel) :
    (d.retire n q).cache = cacheWrite d.cache q := rfl
@[simp] theorem DecEngine.retire_run (n : Nat) (q : Pixel) : (d.retire n q).run = d.run := rfl
@[simp] theorem DecEngine.retire_i (n : Nat) (q : Pixel) : (d.retire n q).i = d.i := rfl
@[simp] theorem DecEngine.retire_width (n : Nat) (q : Pixel) : (d.retire n q).width = d.width := rfl
@[simp] theorem DecEngine.retire_height (n : Nat) (q : Pixel) :
    (d.retire n q).height = d.height := rfl
@[simp] theorem DecEngine.retire_channels (n : Nat) (q : Pixel) :
    (d.retire n q).channels = d.channels := rfl
@[simp] theorem DecEngine.retire_srcLen (n : Nat) (q : Pixel) :
    (d.retire n q).srcLen = d.srcLen := rfl
@[simp] theorem DecEngine.retire_dstCap (n : Nat) (q : Pixel) :
    (d.retire n q).dstCap = d.dstCap := rfl
@[simp] theorem DecEngine.retire_ok (n : Nat) (q : Pixel) : (d.retire n q).ok = d.ok := rfl
@[simp] theorem DecEngine.retire_status (n : Nat) (q : Pixel) :
    (d.retire n q).status = d.status := rfl
@[simp] theorem DecEngine.retire_src (n : Nat) (q : Pixel) : (d.retire n q).src = d.src := rfl
@[simp] theorem DecEngine.retire_dst (n : Nat) (q : Pixel) : (d.retire n q).dst = d.dst := rfl
@[simp] theorem DecEngine.retire_busy (n : Nat) (q : Pixel) : (d.retire n q).busy = d.busy := rfl
@[simp] theorem DecEngine.retire_free (n : Nat) (q : Pixel) : (d.retire n q).free = d.free := rfl

@[simp] theorem DecEngine.setRun_px (r : BitVec 6) : (d.setRun r).px = d.px := rfl
@[simp] theorem DecEngine.setRun_p (r : BitVec 6) : (d.setRun r).p = d.p := rfl
@[simp] theorem DecEngine.setRun_cache (r : BitVec 6) : (d.setRun r).cache = d.cache := rfl
@[simp] theorem DecEngine.setRun_run (r : BitVec 6) : (d.setRun r).run = r := rfl
@[simp] theorem DecEngine.setRun_i (r : BitVec 6) : (d.setRun r).i = d.i := rfl
@[simp] theorem DecEngine.setRun_width (r : BitVec 6) : (d.setRun r).width = d.width := rfl
@[simp] theorem DecEngine.setRun_height (r : BitVec 6) : (d.setRun r).height = d.height := rfl
@[simp] theorem DecEngine.setRun_channels (r : BitVec 6) : (d.setRun r).channels = d.channels := rfl
@[simp] theorem DecEngine.setRun_srcLen (r : BitVec 6) : (d.setRun r).srcLen = d.srcLen := rfl
@[simp] theorem DecEngine.setRun_dstCap (r : BitVec 6) : (d.setRun r).dstCap = d.dstCap := rfl
@[simp] theorem DecEngine.setRun_ok (r : BitVec 6) : (d.setRun r).ok = d.ok := rfl
@[simp] theorem DecEngine.setRun_status (r : BitVec 6) : (d.setRun r).status = d.status := rfl
@[simp] theorem DecEngine.setRun_src (r : BitVec 6) : (d.setRun r).src = d.src := rfl
@[simp] theorem DecEngine.setRun_dst (r : BitVec 6) : (d.setRun r).dst = d.dst := rfl
@[simp] theorem DecEngine.setRun_busy (r : BitVec 6) : (d.setRun r).busy = d.busy := rfl
@[simp] theorem DecEngine.setRun_free (r : BitVec 6) : (d.setRun r).free = d.free := rfl

end decoder

section encoder
variable (e : EncEngine)

@[simp] theorem EncEngine.consume_px (q : Pixel) (r : BitVec 6) (c : Cache) :
    (e.consume q r c).px = q := rfl
@[simp] theorem EncEngine.consume_prev (q : Pixel) (r : BitVec 6) (c : Cache) :
    (e.consume q r c).prev = q := rfl
@[simp] theorem EncEngine.consume_run (q : Pixel) (r : BitVec 6) (c : Cache) :
    (e.consume q r c).run = r := rfl
@[simp] theorem EncEngine.consume_cache (q : Pixel) (r : BitVec 6) (c : Cache) :
    (e.consume q r c).cache = c := rfl
@[simp] theorem EncEngine.consume_i (q : Pixel) (r : BitVec 6) (c : Cache) :
    (e.consume q r c).i = e.i + 1 := rfl
@[simp] theorem EncEngine.consume_o (q : Pixel) (r : BitVec 6) (c : Cache) :
    (e.consume q r c).o = e.o := rfl
@[simp] theorem EncEngine.consume_flip (q : Pixel) (r : BitVec 6) (c : Cache) :
    (e.consume q r c).flip = e.flip := rfl
@[simp] theorem EncEngine.consume_srcLen (q : Pixel) (r : BitVec 6) (c : Cache) :
    (e.consume q r c).srcLen = e.srcLen := rfl
@[simp] theorem EncEngine.consume_dstCap (q : Pixel) (r : BitVec 6) (c : Cache) :
    (e.consume q r c).dstCap = e.dstCap := rfl
@[simp] theorem EncEngine.consume_outLen (q : Pixel) (r : BitVec 6) (c : Cache) :
    (e.consume q r c).outLen = e.outLen := rfl
@[simp] theorem EncEngine.consume_status (q : Pixel) (r : BitVec 6) (c : Cache) :
    (e.consume q r c).status = e.status := rfl
@[simp] theorem EncEngine.consume_src (q : Pixel) (r : BitVec 6) (c : Cache) :
    (e.consume q r c).src = e.src := rfl
@[simp] theorem EncEngine.consume_dst (q : Pixel) (r : BitVec 6) (c : Cache) :
    (e.consume q r c).dst = e.dst := rfl
@[simp] theorem EncEngine.consume_busy (q : Pixel) (r : BitVec 6) (c : Cache) :
    (e.consume q r c).busy = e.busy := rfl
@[simp] theorem EncEngine.consume_free (q : Pixel) (r : BitVec 6) (c : Cache) :
    (e.consume q r c).free = e.free := rfl

end encoder

end Sys2Proof.Machine
end

