-- ==== Sys2Proof/Laws/Memory.lean ====
section
/-! SUPPORT. The laws of byte spaces: what a byte reads as after a write, what a checked access
answers, and that every operation keeps the canonical form. -/

namespace Sys2Proof.Machine

/-! ### Cells -/

theorem cellsWf_mono {size lo lo' : Nat} {cs : List Host.Cell} (h : lo' ≤ lo)
    (w : cellsWf size lo cs = true) : cellsWf size lo' cs = true := by
  cases cs with
  | nil => rfl
  | cons c rest =>
    simp only [cellsWf, Bool.and_eq_true, decide_eq_true_eq] at w ⊢
    exact ⟨⟨⟨le_trans h w.1.1.1, w.1.1.2⟩, w.1.2⟩, w.2⟩

/-- An address below every listed one is unlisted. -/
theorem lookupCell_below {size lo a : Nat} {cs : List Host.Cell} (w : cellsWf size lo cs = true)
    (h : a < lo) : lookupCell a cs = unlistedByte := by
  induction cs generalizing lo with
  | nil => rfl
  | cons c rest ih =>
    simp only [cellsWf, Bool.and_eq_true, decide_eq_true_eq] at w
    simp only [lookupCell]
    rw [if_neg (by omega)]
    exact ih w.2 (by omega)

/-- An address no buffer has reads as an unlisted one. -/
theorem lookupCell_above {size lo a : Nat} {cs : List Host.Cell} (w : cellsWf size lo cs = true)
    (h : size ≤ a) : lookupCell a cs = unlistedByte := by
  induction cs generalizing lo with
  | nil => rfl
  | cons c rest ih =>
    simp only [cellsWf, Bool.and_eq_true, decide_eq_true_eq] at w
    simp only [lookupCell]
    rw [if_neg (by omega)]
    exact ih w.2

theorem cellsWf_putCell {size lo a : Nat} {v : Byte} {cs : List Host.Cell}
    (w : cellsWf size lo cs = true) (hlo : lo ≤ a) (ha : a < size) :
    cellsWf size lo (putCell a v cs) = true := by
  induction cs generalizing lo with
  | nil =>
    simp only [putCell]
    split
    · rfl
    · simp [cellsWf, *]
  | cons c rest ih =>
    simp only [cellsWf, Bool.and_eq_true, decide_eq_true_eq] at w
    simp only [putCell]
    split
    · split
      · simp [cellsWf, w]
      · simp only [cellsWf, Bool.and_eq_true, decide_eq_true_eq]
        exact ⟨⟨⟨hlo, ha⟩, ‹_›⟩, ⟨⟨by omega, w.1.1.2⟩, w.1.2⟩, w.2⟩
    · split
      · split
        · exact cellsWf_mono (by omega) w.2
        · subst a
          simp [cellsWf, *]
      · simp only [cellsWf, Bool.and_eq_true, decide_eq_true_eq]
        exact ⟨w.1, ih w.2 (by omega)⟩

theorem lookupCell_putCell {size lo a : Nat} (x : Nat) {v : Byte} {cs : List Host.Cell}
    (w : cellsWf size lo cs = true) :
    lookupCell x (putCell a v cs) = if x = a then v else lookupCell x cs := by
  induction cs generalizing lo with
  | nil =>
    simp only [putCell]
    by_cases hv : v = unlistedByte <;> by_cases hx : x = a <;>
      simp [lookupCell, hv, hx, eq_comm]
    intro h; exact absurd h.symm hx
  | cons c rest ih =>
    have w0 := w
    simp only [cellsWf, Bool.and_eq_true, decide_eq_true_eq] at w
    have hrest := ih w.2
    simp only [putCell]
    split
    · rename_i hlt
      have hbelow : lookupCell a (c :: rest) = unlistedByte := by
        simp only [lookupCell]
        rw [if_neg (by omega)]
        exact lookupCell_below w.2 (by omega)
      split
      · by_cases hx : x = a
        · subst hx; simp [*]
        · simp [hx]
      · by_cases hx : x = a
        · subst hx; simp [lookupCell]
        · simp [lookupCell, hx, Ne.symm hx]
    · split
      · rename_i hlt heq
        split
        · by_cases hx : x = a
          · subst hx
            simp only [if_true]
            rw [lookupCell_below w.2 (by omega)]
            exact (‹v = unlistedByte›).symm
          · simp only [if_neg hx, lookupCell]
            rw [if_neg (by omega)]
        · by_cases hx : x = a
          · subst hx; simp [lookupCell]
          · simp only [if_neg hx, lookupCell]
            rw [if_neg (Ne.symm hx), if_neg (by omega)]
      · rename_i hlt hne
        simp only [lookupCell, hrest]
        by_cases hk : c.1 = x
        · rw [if_pos hk, if_pos hk, if_neg (by omega)]
        · rw [if_neg hk, if_neg hk]

theorem cellsWf_cellsOf {size a : Nat} {bytes : List Byte} (h : a + bytes.length ≤ size) :
    cellsWf size a (cellsOf a bytes) = true := by
  induction bytes generalizing a with
  | nil => rfl
  | cons v rest ih =>
    simp only [List.length_cons] at h
    have hr : cellsWf size (a + 1) (cellsOf (a + 1) rest) = true := ih (by omega)
    simp only [cellsOf]
    split
    · exact cellsWf_mono (by omega) hr
    · simp only [cellsWf, Bool.and_eq_true, decide_eq_true_eq]
      exact ⟨⟨⟨le_refl a, by omega⟩, ‹_›⟩, hr⟩

theorem lookupCell_cellsOf {size a x : Nat} {bytes : List Byte} (h : a + bytes.length ≤ size) :
    lookupCell x (cellsOf a bytes) = if a ≤ x then bytes.getD (x - a) unlistedByte else unlistedByte := by
  induction bytes generalizing a with
  | nil => simp [cellsOf, lookupCell]
  | cons v rest ih =>
    simp only [List.length_cons] at h
    have hr := ih (a := a + 1) (by omega)
    have hcons : lookupCell x (cellsOf a (v :: rest))
        = if x = a then v else lookupCell x (cellsOf (a + 1) rest) := by
      simp only [cellsOf]
      by_cases hx : x = a
      · subst hx
        have hb : lookupCell x (cellsOf (x + 1) rest) = unlistedByte :=
          lookupCell_below (cellsWf_cellsOf (size := size) (by omega)) (by omega)
        by_cases hv : v = unlistedByte <;> simp [hv, hb, lookupCell]
      · by_cases hv : v = unlistedByte <;> simp [hv, hx, lookupCell, Ne.symm hx]
    rw [hcons]
    by_cases hx : x = a
    · subst hx; simp
    · rw [if_neg hx, hr]
      by_cases hle : a ≤ x
      · obtain ⟨k, rfl⟩ : ∃ k, x = a + 1 + k := ⟨x - a - 1, by omega⟩
        have h1 : a + 1 + k - a = k + 1 := by omega
        simp [h1, show a ≤ a + 1 + k by omega]
      · rw [if_neg hle, if_neg (by omega)]

/-! ### Spaces -/

@[simp] theorem Memory.write_size (m : Memory) (a : Nat) (v : Byte) : (m.write a v).size = m.size := by
  unfold Memory.write; split <;> rfl

@[simp] theorem Memory.write_base (m : Memory) (a : Nat) (v : Byte) : (m.write a v).base = m.base := by
  unfold Memory.write; split <;> rfl

@[simp] theorem Memory.write_content (m : Memory) (a : Nat) (v : Byte) :
    (m.write a v).content = m.content := by
  unfold Memory.write; split <;> rfl

@[simp] theorem Memory.writeList_size (m : Memory) (a : Nat) (bs : List Byte) :
    (m.writeList a bs).size = m.size := by
  induction bs generalizing m a with
  | nil => rfl
  | cons v rest ih => simp [Memory.writeList, ih]

@[simp] theorem Memory.writeList_base (m : Memory) (a : Nat) (bs : List Byte) :
    (m.writeList a bs).base = m.base := by
  induction bs generalizing m a with
  | nil => rfl
  | cons v rest ih => simp [Memory.writeList, ih]

@[simp] theorem Memory.writeList_content (m : Memory) (a : Nat) (bs : List Byte) :
    (m.writeList a bs).content = m.content := by
  induction bs generalizing m a with
  | nil => rfl
  | cons v rest ih => simp [Memory.writeList, ih]

theorem Memory.wf_write {m : Memory} (w : m.wf = true) (a : Nat) (v : Byte) :
    (m.write a v).wf = true := by
  unfold Memory.write
  split
  · exact cellsWf_putCell w (Nat.zero_le _) ‹_›
  · exact w

theorem Memory.wf_writeList {m : Memory} (w : m.wf = true) (a : Nat) (bs : List Byte) :
    (m.writeList a bs).wf = true := by
  induction bs generalizing m a with
  | nil => exact w
  | cons v rest ih => exact ih (Memory.wf_write w a v) (a + 1)

theorem Memory.wf_ofBytes (base : Nat) (content : Content) (bytes : List Byte) :
    (Memory.ofBytes base content bytes).wf = true :=
  cellsWf_cellsOf (by simp [Memory.ofBytes])

theorem Memory.byteAt_ofBytes (base : Nat) (content : Content) (bytes : List Byte) (x : Nat) :
    (Memory.ofBytes base content bytes).byteAt x = bytes.getD x unlistedByte := by
  unfold Memory.byteAt Memory.ofBytes
  rw [lookupCell_cellsOf (size := bytes.length) (by omega)]
  simp

/-- Read after write, on a canonical space: the written byte where it was written, every other byte
as before. -/
theorem Memory.byteAt_write {m : Memory} (w : m.wf = true) {a : Nat} (h : a < m.size) (v : Byte)
    (x : Nat) : (m.write a v).byteAt x = if x = a then v else m.byteAt x := by
  unfold Memory.write
  rw [if_pos h]
  exact lookupCell_putCell x w

/-- The same for consecutive bytes. -/
theorem Memory.byteAt_writeList {m : Memory} (w : m.wf = true) {a : Nat} {bs : List Byte}
    (h : a + bs.length ≤ m.size) (x : Nat) :
    (m.writeList a bs).byteAt x =
      if a ≤ x ∧ x < a + bs.length then bs.getD (x - a) unlistedByte else m.byteAt x := by
  induction bs generalizing m a with
  | nil =>
    simp only [Memory.writeList, List.length_nil, Nat.add_zero]
    rw [if_neg (by omega)]
  | cons v rest ih =>
    simp only [List.length_cons] at h
    simp only [Memory.writeList, List.length_cons]
    rw [ih (Memory.wf_write w a v) (by simp; omega), Memory.byteAt_write w (by omega)]
    by_cases hx : x = a
    · subst hx
      simp
    · by_cases hin : a + 1 ≤ x ∧ x < a + 1 + rest.length
      · rw [if_pos hin, if_pos (by omega)]
        obtain ⟨k, rfl⟩ : ∃ k, x = a + 1 + k := ⟨x - a - 1, by omega⟩
        have h1 : a + 1 + k - a = k + 1 := by omega
        have h2 : a + 1 + k - (a + 1) = k := by omega
        simp [h1, h2]
      · rw [if_neg hin, if_neg hx, if_neg (by omega)]

/-- All a checked store can answer. -/
theorem Memory.store_cases {m m' : Memory} {cap a : Nat} {bs : List Byte}
    (h : m.store cap a bs = some m') :
    a + bs.length ≤ cap ∧ a + bs.length ≤ m.size ∧ m' = m.writeList a bs := by
  unfold Memory.store Memory.covers at h
  split at h
  · rename_i hc
    simp only [Bool.and_eq_true, decide_eq_true_eq] at hc
    exact ⟨hc.1, hc.2, (Option.some.inj h).symm⟩
  · cases h

theorem Memory.store_inside {m : Memory} {cap a : Nat} {bs : List Byte} (h1 : a + bs.length ≤ cap)
    (h2 : a + bs.length ≤ m.size) : m.store cap a bs = some (m.writeList a bs) := by
  simp [Memory.store, Memory.covers, h1, h2]

theorem Memory.load_inside {m : Memory} {len a n : Nat} (h1 : a + n ≤ len) (h2 : a + n ≤ m.size) :
    m.load len a n = some ((List.range n).map fun j => m.byteAt (a + j)) := by
  simp [Memory.load, Memory.covers, h1, h2]

theorem foldl_write_keeps (f : Nat → Byte) (l : List Nat) {m : Memory} (w : m.wf = true) :
    (l.foldl (fun m a => m.write a (f a)) m).wf = true ∧
      (l.foldl (fun m a => m.write a (f a)) m).size = m.size ∧
      (l.foldl (fun m a => m.write a (f a)) m).base = m.base ∧
      (l.foldl (fun m a => m.write a (f a)) m).content = m.content := by
  induction l generalizing m with
  | nil => exact ⟨w, rfl, rfl, rfl⟩
  | cons a rest ih =>
    have h := ih (Memory.wf_write w a (f a))
    simpa using h

theorem Memory.wf_fill {m : Memory} (w : m.wf = true) (cap : Nat) (f : Nat → Byte) :
    (m.fill cap f).wf = true := (foldl_write_keeps f _ w).1

theorem Memory.fill_size {m : Memory} (w : m.wf = true) (cap : Nat) (f : Nat → Byte) :
    (m.fill cap f).size = m.size := (foldl_write_keeps f _ w).2.1

theorem Memory.fill_base {m : Memory} (w : m.wf = true) (cap : Nat) (f : Nat → Byte) :
    (m.fill cap f).base = m.base := (foldl_write_keeps f _ w).2.2.1

theorem Memory.fill_content {m : Memory} (w : m.wf = true) (cap : Nat) (f : Nat → Byte) :
    (m.fill cap f).content = m.content := (foldl_write_keeps f _ w).2.2.2

/-- A filled space: the given bytes below the capacity, every other byte as before. -/
theorem Memory.byteAt_fill {m : Memory} (w : m.wf = true) {cap : Nat} (h : cap ≤ m.size)
    (f : Nat → Byte) (x : Nat) :
    (m.fill cap f).byteAt x = if x < cap then f x else m.byteAt x := by
  induction cap with
  | zero => rfl
  | succ k ih =>
    have hk := ih (by omega)
    have hw := Memory.wf_fill w k f
    have hs := Memory.fill_size w k f
    have hstep : m.fill (k + 1) f = (m.fill k f).write k (f k) := by
      simp [Memory.fill, List.range_succ, List.foldl_append]
    rw [hstep, Memory.byteAt_write hw (by omega), hk]
    by_cases hx : x = k
    · subst hx; simp
    · by_cases hlt : x < k
      · simp [hx, hlt, show x < k + 1 by omega]
      · simp [hx, hlt, show ¬ x < k + 1 by omega]

/-- The canonical form is canonical: equal bytes everywhere are equal lists of cells. -/
theorem cells_ext {size lo : Nat} {cs cs' : List Host.Cell} (w : cellsWf size lo cs = true)
    (w' : cellsWf size lo cs' = true) (h : ∀ x, lookupCell x cs = lookupCell x cs') : cs = cs' := by
  induction cs generalizing cs' lo with
  | nil =>
    cases cs' with
    | nil => rfl
    | cons c rest =>
      simp only [cellsWf, Bool.and_eq_true, decide_eq_true_eq] at w'
      have := h c.1
      simp [lookupCell] at this
      exact absurd this.symm w'.1.2
  | cons c rest ih =>
    simp only [cellsWf, Bool.and_eq_true, decide_eq_true_eq] at w
    cases cs' with
    | nil =>
      have := h c.1
      simp [lookupCell] at this
      exact absurd this w.1.2
    | cons c' rest' =>
      simp only [cellsWf, Bool.and_eq_true, decide_eq_true_eq] at w'
      have hk : c.1 = c'.1 := by
        rcases Nat.lt_trichotomy c.1 c'.1 with hlt | heq | hgt
        · have := h c.1
          simp only [lookupCell, if_true] at this
          rw [if_neg (by omega), lookupCell_below w'.2 (by omega)] at this
          exact absurd this w.1.2
        · exact heq
        · have := h c'.1
          simp only [lookupCell, if_true] at this
          rw [if_neg (by omega), lookupCell_below w.2 (by omega)] at this
          exact absurd this.symm w'.1.2
      have hv : c.2 = c'.2 := by
        have := h c.1
        simpa [lookupCell, hk] using this
      have hc : c = c' := Prod.ext hk hv
      subst hc
      congr 1
      refine ih w.2 w'.2 fun x => ?_
      have := h x
      by_cases hx : x = c.1
      · subst hx
        rw [lookupCell_below w.2 (by omega), lookupCell_below w'.2 (by omega)]
      · simpa [lookupCell, Ne.symm hx] using this

/-- Two canonical spaces of one place, content and size that read alike are one. -/
theorem Memory.ext_byteAt {m m' : Memory} (w : m.wf = true) (w' : m'.wf = true)
    (hb : m.base = m'.base) (hc : m.content = m'.content) (hs : m.size = m'.size) (h : ∀ x, m.byteAt x = m'.byteAt x) : m = m' := by
  cases m; cases m'
  simp only [Memory.wf, Memory.byteAt] at *
  subst hb; subst hc; subst hs
  rw [cells_ext w w' h]

/-! ### Buffers handed over -/

@[simp] theorem Memory.ofBytes_base (base : Nat) (content : Content) (bytes : List Byte) :
    (Memory.ofBytes base content bytes).base = base := rfl
@[simp] theorem Memory.ofBytes_content (base : Nat) (content : Content) (bytes : List Byte) :
    (Memory.ofBytes base content bytes).content = content := rfl
@[simp] theorem Memory.ofBytes_size (base : Nat) (content : Content) (bytes : List Byte) :
    (Memory.ofBytes base content bytes).size = bytes.length := rfl
@[simp] theorem Memory.firstBytes_base (m : Memory) (n : Nat) : (m.firstBytes n).base = m.base := rfl
@[simp] theorem Memory.firstBytes_content (m : Memory) (n : Nat) :
    (m.firstBytes n).content = .stream n := rfl
@[simp] theorem Memory.firstBytes_size (m : Memory) (n : Nat) : (m.firstBytes n).size = min n m.size := rfl

theorem cellsWf_firstCells {size lo : Nat} (n : Nat) {cs : List Host.Cell}
    (w : cellsWf size lo cs = true) :
    cellsWf (min n size) lo (cs.filter fun cell => cell.1 < n) = true := by
  induction cs generalizing lo with
  | nil => rfl
  | cons c rest ih =>
    simp only [cellsWf, Bool.and_eq_true, decide_eq_true_eq] at w
    have hr := ih w.2
    by_cases hc : c.1 < n
    · rw [List.filter_cons_of_pos (by simpa using hc)]
      simp only [cellsWf, Bool.and_eq_true, decide_eq_true_eq]
      exact ⟨⟨⟨w.1.1.1, by omega⟩, w.1.2⟩, hr⟩
    · rw [List.filter_cons_of_neg (by simpa using hc)]
      exact cellsWf_mono (by omega) hr

theorem lookupCell_firstCells (n x : Nat) (cs : List Host.Cell) :
    lookupCell x (cs.filter fun cell => cell.1 < n) = if x < n then lookupCell x cs else unlistedByte := by
  induction cs with
  | nil => simp [lookupCell]
  | cons c rest ih =>
    by_cases hc : c.1 < n
    · rw [List.filter_cons_of_pos (by simpa using hc)]
      simp only [lookupCell, ih]
      by_cases hx : c.1 = x
      · rw [if_pos hx, if_pos hx, if_pos (by omega)]
      · rw [if_neg hx, if_neg hx]
    · rw [List.filter_cons_of_neg (by simpa using hc), ih]
      by_cases hx : x < n
      · rw [if_pos hx, if_pos hx]
        simp only [lookupCell]
        rw [if_neg (by omega)]
      · rw [if_neg hx, if_neg hx]

theorem Memory.wf_firstBytes {m : Memory} (w : m.wf = true) (n : Nat) : (m.firstBytes n).wf = true :=
  cellsWf_firstCells n w

/-- The bytes handed on are the first ones, and no others (20_memory.md R65). -/
theorem Memory.byteAt_firstBytes (m : Memory) (n x : Nat) :
    (m.firstBytes n).byteAt x = if x < n then m.byteAt x else unlistedByte :=
  lookupCell_firstCells n x m.cells

end Sys2Proof.Machine
end

