-- ==== Sys2Proof/Laws/Ops.lean ====
section
/-! SUPPORT. One lemma for each shared operation, saying once everything it can do; provers cite these
and do not unfold the operations. -/

namespace Sys2Proof.Machine

/-! ### The cache -/

/-- 41_pixel_cache_hash.md R122, R123: the written pixel in the slot it hashes to, every other slot as
before. -/
theorem cacheRead_cacheWrite (c : Cache) (p : Pixel) (h : Fin 64) :
    cacheRead (cacheWrite c p) h = if h = pixelHash p then p else cacheRead c h := by
  unfold cacheRead cacheWrite
  simp only [Fin.getElem_fin, Vector.getElem_set, Fin.ext_iff]
  by_cases hh : (pixelHash p).val = h.val
  · simp [hh]
  · simp [hh, Ne.symm hh]

theorem cacheRead_initCache (h : Fin 64) : cacheRead initCache h = zeroPixel := by
  simp [cacheRead, initCache]

/-- Two caches with the same pixel in every slot are one. -/
theorem cache_ext {c c' : Cache} (h : ∀ i, cacheRead c i = cacheRead c' i) : c = c' := by
  apply Vector.ext
  intro i hi
  exact h ⟨i, hi⟩

/-! ### Arithmetic -/

/-- `add8` as a number. -/
theorem toNat_add8 (x : Byte) (d : Int) : ((add8 x d).toNat : Int) = ((x.toNat : Int) + d) % 256 := by
  unfold add8
  simp only [BitVec.toNat_ofInt]
  omega

/-- `delta8` lies in -128..127. -/
theorem delta8_range (x y : Byte) : -128 ≤ delta8 x y ∧ delta8 x y ≤ 127 := by
  unfold delta8 s8
  split <;> omega

/-- Adding a delta back restores the channel: the arithmetic of the round trip
(43_opcode_decoder.md R187). -/
theorem add8_delta8 (x y : Byte) : add8 y (delta8 x y) = x := by
  apply BitVec.eq_of_toNat_eq
  have h := toNat_add8 y (delta8 x y)
  have hx := x.isLt
  have hy := y.isLt
  have hd : (delta8 x y - ((x.toNat : Int) - y.toNat)) % 256 = 0 := by
    unfold delta8 s8
    split <;> omega
  omega

theorem length_be32 (v : Word) : (be32 v).length = 4 := rfl

/-- `BE32` and `be32` are inverse. -/
theorem ofBE32_be32 (v : Word) :
    ofBE32 (BitVec.ofNat 8 (v.toNat / 2 ^ 24)) (BitVec.ofNat 8 (v.toNat / 2 ^ 16))
      (BitVec.ofNat 8 (v.toNat / 2 ^ 8)) (BitVec.ofNat 8 v.toNat) = v := by
  apply BitVec.eq_of_toNat_eq
  have hv := v.isLt
  simp only [ofBE32, BitVec.toNat_ofNat]
  omega

theorem length_hdrBytes (h : Header) : (hdrBytes h).length = 14 := rfl

theorem length_pixelBytes (c : Byte) (p : Pixel) : (pixelBytes c p).length = pixelWidth c := by
  unfold pixelBytes pixelWidth
  split <;> rfl

/-- A legal channel count is the number of bytes of a pixel. -/
theorem pixelWidth_eq {c : Byte} (h : channelsValid c = true) : pixelWidth c = c.toNat := by
  unfold channelsValid at h
  simp only [Bool.or_eq_true, beq_iff_eq] at h
  rcases h with rfl | rfl <;> rfl

/-! ### Outcomes -/

/-- An act that changes what a command uses: refused, or done. -/
theorem unlessBusy_next {busy : Bool} {t t' : State} (h : unlessBusy busy t = .next t') :
    busy = false ∧ t' = t := by
  unfold unlessBusy at h
  split at h
  · cases h
  · injection h with h
    exact ⟨by simpa using ‹¬busy = true›, h.symm⟩

/-- All a pixel store can answer with: inside the destination, the bytes there and the slot counter
up by one. -/
theorem storePixel_next {s t : State} (h : storePixel s = .next t) :
    s.dec.slotAddress + pixelWidth s.dec.channels ≤ s.dec.dstCap ∧
      s.dec.slotAddress + pixelWidth s.dec.channels ≤ s.dec.dst.size ∧
      t = s.setDec (s.dec.stored
        (s.dec.dst.writeList s.dec.slotAddress (pixelBytes s.dec.channels s.dec.px))) := by
  unfold storePixel at h
  split at h
  · rename_i dst hs
    obtain ⟨h1, h2, h3⟩ := Memory.store_cases hs
    rw [length_pixelBytes] at h1 h2
    injection h with h
    exact ⟨h1, h2, by rw [← h, h3]⟩
  · cases h

/-- A pixel store inside the destination answers a next state. -/
theorem storePixel_inside {s : State}
    (h1 : s.dec.slotAddress + pixelWidth s.dec.channels ≤ s.dec.dstCap)
    (h2 : s.dec.slotAddress + pixelWidth s.dec.channels ≤ s.dec.dst.size) :
    storePixel s = .next (s.setDec (s.dec.stored
      (s.dec.dst.writeList s.dec.slotAddress (pixelBytes s.dec.channels s.dec.px)))) := by
  unfold storePixel
  rw [Memory.store_inside (by rw [length_pixelBytes]; exact h1) (by rw [length_pixelBytes]; exact h2)]

/-- All an emit can answer with. -/
theorem EncEngine.emit_some {e e' : EncEngine} {bs : List Byte} (h : e.emit bs = some e') :
    e.o + bs.length ≤ e.dstCap ∧ e.o + bs.length ≤ e.dst.size ∧
      e' = e.emitted (e.dst.writeList e.o bs) bs.length := by
  unfold EncEngine.emit at h
  split at h
  · rename_i dst hs
    obtain ⟨h1, h2, h3⟩ := Memory.store_cases hs
    exact ⟨h1, h2, by rw [← Option.some.inj h, h3]⟩
  · cases h

/-- An emit inside the destination succeeds. -/
theorem EncEngine.emit_inside {e : EncEngine} {bs : List Byte} (h1 : e.o + bs.length ≤ e.dstCap)
    (h2 : e.o + bs.length ≤ e.dst.size) :
    e.emit bs = some (e.emitted (e.dst.writeList e.o bs) bs.length) := by
  unfold EncEngine.emit
  rw [Memory.store_inside h1 h2]

/-- What an opcode does to DEC, in one term (43_opcode_decoder.md R186 to R192). -/
def decAfter (i : Instr) (d : DecEngine) : DecEngine :=
  match i with
  | .index slot => d.retire 1 (cacheRead d.cache slot)
  | .diff dr dg db => d.retire 1 (addDeltas d.px dr dg db)
  | .luma dg drg dbg => d.retire 2 (addDeltas d.px (dg + drg) dg (dg + dbg))
  | .run n => (d.retire 1 d.px).setRun (BitVec.ofNat 6 (n - 1))
  | .rgb r g b => d.retire 4 { r := r, g := g, b := b, a := d.px.a }
  | .rgba r g b a => d.retire 5 { r := r, g := g, b := b, a := a }

/-- All an opcode can answer. -/
theorem exec_eq (i : Instr) (s : State) : exec i s = .next (s.setDec (decAfter i s.dec)) := by
  cases i <;> rfl

/-- All raising a failure does, unit by unit. -/
theorem raiseFailure_cases (c : Cause) (s : State) :
    (c.command = .encodeHeader ∧ raiseFailure c s = s.setHe (s.he.fail c.status)) ∨
    (c.command = .decodeHeader ∧ raiseFailure c s = s.setHd (s.hd.fail c.status)) ∨
    (c.command = .encode ∧ raiseFailure c s = s.setEnc (s.enc.fail c.status)) ∨
    (c.command = .decode ∧ raiseFailure c s = s.setDec (s.dec.fail c.status)) := by
  cases c <;> simp [raiseFailure, Cause.command]

/-- An accepted launch. -/
theorem launchRefusal_none {c : Command} {s : State} (h : launchRefusal c s = none) :
    s.engineBusy c = false ∧ firstUntrue (s.statedLengths c) = none ∧
      s.untrueContent c = none ∧ s.independent (s.readsOf c) (s.writesOf c) = true := by
  unfold launchRefusal at h
  split at h
  · cases h
  · split at h
    · cases h
    · split at h
      · cases h
      · split at h
        · exact ⟨by simpa using ‹¬s.engineBusy c = true›, ‹_›, ‹_›, ‹_›⟩
        · cases h

/-- All issuing a command can answer a next state with. -/
theorem issueCommand_next {c : Command} {s t : State} (h : issueCommand c s = .next t) :
    launchRefusal c s = none ∧ runCommand c s = .next t := by
  unfold issueCommand at h
  split at h
  · cases h
  · exact ⟨‹_›, h⟩

/-! ### The host's acts -/

theorem channelsValid_iff (c : Byte) : channelsValid c = true ↔ c = 3#8 ∨ c = 4#8 := by
  simp [channelsValid]

/-- Duties 2 and 7 are kept exactly when the launch is not refused for them. -/
theorem untrueContent_none (c : Command) (s : State) : s.untrueContent c = none ↔ s.ContentTrue c := by
  cases c <;> simp [State.untrueContent, State.ContentTrue, ← channelsValid_iff]

theorem spaceBusy_iff (s : State) (sp : SpaceName) : s.spaceBusy sp = true ↔ s.InCommand sp := by
  cases sp <;> simp [State.spaceBusy, State.InCommand]

theorem Memory.holdsOther_iff (m : Memory) (len x : Nat) (v : Byte) :
    m.holdsOther len x v = true ↔ m.Covers len x ∧ m.byteAt (x - m.base) ≠ v := by
  simp [Memory.holdsOther]

/-- A place meets an extent when it lies in it. -/
theorem extentsMeet_place (m : Memory) (len x : Nat) :
    extentsMeet (x, 1) (m.extent len) = true ↔ m.Covers len x := by
  unfold extentsMeet Memory.extent Memory.Covers
  simp only [Bool.and_eq_true, decide_eq_true_iff]
  omega

theorem meets_liveWrites (s : State) (x : Nat) :
    anyMeet [(x, 1)] s.liveWrites = true ↔ s.WrittenByACommand x := by
  cases he : s.enc.busy <;> cases hd : s.dec.busy <;>
    simp [anyMeet, State.liveWrites, State.WrittenByACommand, he, hd, extentsMeet_place]

theorem meets_liveReads (s : State) (x : Nat) :
    anyMeet [(x, 1)] s.liveReads = true ↔ s.ReadByACommand x := by
  cases he : s.enc.busy <;> cases hd : s.dec.busy <;>
    simp [anyMeet, State.liveReads, State.ReadByACommand, he, hd, extentsMeet_place]

/-- Which bytes disturb a running command. -/
theorem disturbs_iff (s : State) (x : Nat) (bytes : List Byte) :
    s.disturbs x bytes = true ↔
      ∃ j, j < bytes.length ∧
        (s.WrittenByACommand (x + j) ∨ s.OtherReadByACommand (x + j) (bytes.getD j 0#8)) := by
  induction bytes generalizing x with
  | nil => simp [State.disturbs]
  | cons v rest ih =>
    have hhead : s.disturbs x (v :: rest) = true ↔
        (s.WrittenByACommand x ∨ s.OtherReadByACommand x v) ∨ s.disturbs (x + 1) rest = true := by
      simp only [State.disturbs, Bool.or_eq_true, Bool.and_eq_true, Memory.holdsOther_iff,
        meets_liveWrites]
      tauto
    rw [hhead, ih]
    constructor
    · rintro (h | ⟨j, hj, h⟩)
      · exact ⟨0, by simp, h⟩
      · exact ⟨j + 1, by simpa using hj, by rw [← Nat.add_assoc, Nat.add_right_comm]; exact h⟩
    · rintro ⟨j, hj, h⟩
      cases j with
      | zero => exact .inl h
      | succ j =>
        exact .inr ⟨j, by simpa using hj, by rw [Nat.add_right_comm, Nat.add_assoc]; exact h⟩

/-- All handing over a buffer can answer a next state with. -/
theorem hostGive_next {sp : SpaceName} {base : Nat} {content : Content} {bytes : List Byte} {s t : State}
    (h : hostGive sp base content bytes s = .next t) :
    s.spaceBusy sp = false ∧ s.disturbs base bytes = false ∧
      t = s.setSpace sp (Memory.ofBytes base content bytes) := by
  unfold hostGive at h
  split at h
  · cases h
  · split at h
    · cases h
    · injection h with h
      exact ⟨by simpa using ‹¬s.spaceBusy sp = true›, by simpa using ‹¬s.disturbs base bytes = true›, h.symm⟩

/-- All storing a byte can answer a next state with. -/
theorem hostWrite_next {sp : SpaceName} {a : Nat} {v : Byte} {s t : State}
    (h : hostWrite sp a v s = .next t) :
    a < (s.space sp).size ∧
      anyMeet [((s.space sp).base + a, 1)] (s.liveReads ++ s.liveWrites) = false ∧
      t = s.setSpace sp ((s.space sp).write a v) := by
  unfold hostWrite at h
  split at h
  · cases h
  · split at h
    · cases h
    · injection h with h
      exact ⟨by omega, by simpa using ‹¬anyMeet _ _ = true›, h.symm⟩

/-- Reading a byte changes nothing. -/
theorem hostRead_next {sp : SpaceName} {a : Nat} {s t : State} (h : hostRead sp a s = .next t) :
    t = s := by
  unfold hostRead at h
  split at h
  · cases h
  · split at h
    · cases h
    · injection h with h
      exact h.symm

end Sys2Proof.Machine
end

