-- ==== Sys2Proof/Laws/PerInstr.lean ====
section
/-! SUPPORT. Statements about each opcode as syntax, one lemma for each constructor. -/

namespace Sys2Proof.Laws.EncodedLength

/-- A well-formed opcode's bytes begin with a byte that fixes how many they are (30_encoding.md R80). -/
def Statement (i : Instr) : Prop :=
  i.wf = true → ∃ b1 rest, encode i = b1 :: rest ∧ opcodeLength b1 = (encode i).length

/-- The byte of a number below 254 is neither full-byte tag. -/
theorem no_full_tag {b : Byte} (h : b.toNat < 254) : b ≠ tagRgb ∧ b ≠ tagRgba := by
  constructor
  · intro e; rw [e] at h; exact absurd h (by decide)
  · intro e; rw [e] at h; exact absurd h (by decide)

/-- The length of an opcode with a two-bit tag. -/
theorem length_of_tag {b : Byte} (h : b.toNat < 254) :
    opcodeLength b = if b.toNat / 64 = 2 then 2 else 1 := by
  have hb := b.isLt
  have ht : twoBitTag b = b.toNat / 64 := by
    unfold twoBitTag bitField
    omega
  unfold opcodeLength
  rw [if_neg (no_full_tag h).1, if_neg (no_full_tag h).2, ht]

theorem index (slot : Fin 64) : Statement (.index slot) := by
  intro _
  refine ⟨_, _, rfl, ?_⟩
  have hs := slot.isLt
  have hn : (BitVec.ofNat 8 slot.val).toNat = slot.val := by
    rw [BitVec.toNat_ofNat]; omega
  rw [length_of_tag (by omega), hn, if_neg (by omega)]
  rfl

theorem diff (dr dg db : Int) : Statement (.diff dr dg db) := by
  intro hw
  simp only [Instr.wf, inRange, Bool.and_eq_true, decide_eq_true_eq] at hw
  refine ⟨_, _, rfl, ?_⟩
  have hn : ((BitVec.ofInt 8 (0x40 + (dr + 2) * 16 + (dg + 2) * 4 + (db + 2))).toNat : Int)
      = 0x40 + (dr + 2) * 16 + (dg + 2) * 4 + (db + 2) := by
    rw [BitVec.toNat_ofInt]; omega
  rw [length_of_tag (by omega), if_neg (by omega)]
  rfl

theorem luma (dg drg dbg : Int) : Statement (.luma dg drg dbg) := by
  intro hw
  simp only [Instr.wf, inRange, Bool.and_eq_true, decide_eq_true_eq] at hw
  refine ⟨_, _, rfl, ?_⟩
  have hn : ((BitVec.ofInt 8 (0x80 + (dg + 32))).toNat : Int) = 0x80 + (dg + 32) := by
    rw [BitVec.toNat_ofInt]; omega
  rw [length_of_tag (by omega), if_pos (by omega)]
  rfl

theorem run (n : Nat) : Statement (.run n) := by
  intro hw
  simp only [Instr.wf, Bool.and_eq_true, decide_eq_true_eq] at hw
  refine ⟨_, _, rfl, ?_⟩
  have hn : (BitVec.ofNat 8 (0xC0 + (n - 1))).toNat = 0xC0 + (n - 1) := by
    rw [BitVec.toNat_ofNat]; omega
  rw [length_of_tag (by omega), if_neg (by omega)]
  rfl

theorem rgb (r g b : Byte) : Statement (.rgb r g b) := fun _ => ⟨_, _, rfl, rfl⟩

theorem rgba (r g b a : Byte) : Statement (.rgba r g b a) := fun _ => ⟨_, _, rfl, rfl⟩

end Sys2Proof.Laws.EncodedLength
end

