-- ==== Sys2Proof/Tests/Slice0.lean ====
section
/-! SUPPORT. Tests.  Expected results are the spec's own: the vectors of spec/95_test_vectors.md, named
in each comment.  The witnesses at the end meet the hypotheses of the statements. -/

namespace Sys2Proof.Tests

open Sys2Proof.Machine

/-! ### WellFormed refuses what 30_encoding.md R94 leaves out -/

theorem test_wf_refuses_run_of_zero : (Instr.run 0).wf = false := by decide
theorem test_wf_refuses_run_of_63 : (Instr.run 63).wf = false := by decide
theorem test_wf_refuses_diff_of_two : (Instr.diff 0 2 0).wf = false := by decide
theorem test_wf_refuses_diff_below : (Instr.diff (-3) 0 0).wf = false := by decide
theorem test_wf_refuses_diff_blue : (Instr.diff 0 0 2).wf = false := by decide
theorem test_wf_refuses_luma_green : (Instr.luma 32 0 0).wf = false := by decide
theorem test_wf_refuses_luma_red : (Instr.luma 0 8 0).wf = false := by decide
theorem test_wf_refuses_luma_blue : (Instr.luma 0 0 (-9)).wf = false := by decide

/-! ### Decoding, bit by bit from the formats of 30_encoding.md R83 to R87 -/

theorem test_decode_index_49 : decode [0b00110001#8] = .ok (.index 49, []) := by decide
/-- V-DEC-4. -/
theorem test_decode_diff_77 : decode [0b01110111#8] = .ok (.diff 1 (-1) 1, []) := by decide
/-- V-DEC-7. -/
theorem test_decode_luma_a8_1f :
    decode [0b10101000#8, 0b00011111#8] = .ok (.luma 8 (-7) 7, []) := by decide
/-- V-DEC-13: the largest run. -/
theorem test_decode_run_62 : decode [0b11111101#8] = .ok (.run 62, []) := by decide
/-- V-DEC-8. -/
theorem test_decode_rgb : decode [0xFE#8, 1#8, 2#8, 3#8] = .ok (.rgb 1#8 2#8 3#8, []) := by decide
/-- V-DEC-9. -/
theorem test_decode_rgba :
    decode [0xFF#8, 1#8, 2#8, 3#8, 4#8] = .ok (.rgba 1#8 2#8 3#8 4#8, []) := by decide
theorem test_decode_luma_needs_its_second_byte :
    decode [0x80#8] = .error (.operandsMissing "LUMA") := by decide
theorem test_decode_table_word_rgb :
    decodeTableWord 32 0x030201FE = some (.rgb 1#8 2#8 3#8) := by decide

/-! ### States -/

/-- A space with these bytes. -/
def bytesAt (base : Nat) (l : List Nat) (content : Content := .other) : Memory :=
  Memory.ofBytes base content (l.map (BitVec.ofNat 8))

/-- DEC in a DECODE of 4 by 1 pixels with four channels, previous pixel (10,20,30,40), opcode bytes at
the cursor. -/
def decState (opcode : List Nat) : State :=
  { State.reset with
    dec := { DecEngine.atReset with
      px := ⟨10#8, 20#8, 30#8, 40#8⟩, width := 4#32, height := 1#32, channels := 4#8
      srcLen := 14 + opcode.length + 8, dstCap := 16
      src := bytesAt 0 (List.replicate 14 0 ++ opcode ++ [0, 0, 0, 0, 0, 0, 0, 1])
        (.stream (14 + opcode.length + 8))
      dst := bytesAt 1000 (List.replicate 16 0), busy := true } }

/-- ENC in an ENCODE of 2 by 1 pixels at its first step. -/
def encState (channels : Byte) (src : List Nat) : State :=
  { State.reset with
    hdr := { width := 2#32, height := 1#32, channels := channels, colorspace := 0#8 }
    enc := { EncEngine.atReset with
      srcLen := src.length, dstCap := 32, src := bytesAt 0 src (.raw channels)
      dst := bytesAt 1000 (List.replicate 32 0), o := 14, busy := true } }

/-- DEC's state before its command. -/
def decIdle : State := { decState [0xC3] with dec := { (decState [0xC3]).dec with busy := false } }

/-- ENC's state before its command. -/
def encIdle (channels : Byte) (src : List Nat) : State :=
  { encState channels src with
    enc := { (encState channels src).enc with busy := false, o := 0 } }

/-- DEC's pixel, cursor and run counter after a step. -/
def decAnswer (s : State) : Option (Pixel × Nat × BitVec 6) :=
  (nextState (step s)).map fun t => (t.dec.px, t.dec.p, t.dec.run)

/-- The first bytes ENC's step puts out, and its write cursor. -/
def encAnswer (s : State) (n : Nat) : Option (List Byte × Nat) :=
  (nextState (step s)).map fun t => (t.enc.dst.bytesFrom 14 n, t.enc.o)

/-! ### The decoder's opcodes (spec/95_test_vectors.md 2.4) -/

/-- V-DEC-11: a slot never written. -/
theorem test_index_7 : decAnswer (decState [0x07]) = some (⟨0#8, 0#8, 0#8, 0#8⟩, 15, 0#6) := by decide
/-- V-DEC-1. -/
theorem test_diff_40 : decAnswer (decState [0x40]) = some (⟨8#8, 18#8, 28#8, 40#8⟩, 15, 0#6) := by decide
/-- V-DEC-5: wraps. -/
theorem test_luma_80_00 :
    decAnswer (decState [0x80, 0x00]) = some (⟨226#8, 244#8, 246#8, 40#8⟩, 16, 0#6) := by decide
/-- V-DEC-6. -/
theorem test_luma_bf_ff :
    decAnswer (decState [0xBF, 0xFF]) = some (⟨48#8, 51#8, 68#8, 40#8⟩, 16, 0#6) := by decide
/-- V-DEC-13. -/
theorem test_run_fd : decAnswer (decState [0xFD]) = some (⟨10#8, 20#8, 30#8, 40#8⟩, 15, 61#6) := by decide
/-- V-DEC-8: alpha kept. -/
theorem test_rgb : decAnswer (decState [0xFE, 1, 2, 3]) = some (⟨1#8, 2#8, 3#8, 40#8⟩, 18, 0#6) := by decide
/-- V-DEC-9. -/
theorem test_rgba : decAnswer (decState [0xFF, 1, 2, 3, 4]) = some (⟨1#8, 2#8, 3#8, 4#8⟩, 19, 0#6) := by
  decide
/-- V-DEC-12: the cache write of a RUN opcode, slot 12. -/
theorem test_run_writes_its_slot :
    (nextState (step (decState [0xC0]))).map (fun t => cacheRead t.dec.cache 12) =
      some ⟨10#8, 20#8, 30#8, 40#8⟩ := by decide
/-- 43_opcode_decoder.md R193: the bytes of slot 0. -/
theorem test_store_rgba :
    (nextState (step (decState [0xFF, 1, 2, 3, 4]))).map (fun t => t.dec.dst.bytesFrom 0 5) =
      some [1#8, 2#8, 3#8, 4#8, 0#8] := by decide
/-- V-DEC-F8: no opcode left. -/
theorem test_exhausted :
    (nextState (step (decState []))).map (fun t => (t.dec.ok, t.dec.status, t.dec.busy)) =
      some (false, .bufferTooSmall, false) := by decide
/-- An opcode placed after reset is the first to run. -/
theorem test_placed_after_reset :
    decAnswer (State.reset.withFetchWord 16 0x5DAA) = some (⟨7#8, 10#8, 15#8, 255#8⟩, 16, 0#6) := by decide

/-! ### The encoder (spec/95_test_vectors.md 2.3) -/

/-- V-ENC-6. -/
theorem test_encode_diff : encAnswer (encState 3#8 [1, 0, 255, 0, 0, 0]) 1 = some ([0x79#8], 15) := by decide
/-- V-ENC-20. -/
theorem test_encode_luma :
    encAnswer (encState 3#8 [23, 31, 38, 0, 0, 0]) 2 = some ([0xBF#8, 0x0F#8], 16) := by decide
/-- V-ENC-17. -/
theorem test_encode_rgb :
    encAnswer (encState 3#8 [8, 0, 0, 0, 0, 0]) 4 = some ([0xFE#8, 8#8, 0#8, 0#8], 18) := by decide
/-- V-ENC-26. -/
theorem test_encode_rgba :
    encAnswer (encState 4#8 [10, 10, 10, 0, 0, 0, 0, 0]) 5 =
      some ([0xFF#8, 10#8, 10#8, 10#8, 0#8], 19) := by decide
/-- V-ENC-24: the zero slot hits. -/
theorem test_encode_index :
    encAnswer (encState 4#8 [0, 0, 0, 0, 0, 0, 0, 0]) 1 = some ([0x00#8], 15) := by decide
/-- S1, its first step: the run counts and nothing goes out. -/
theorem test_encode_run_counts :
    (nextState (step (encState 3#8 [0, 0, 0, 0, 0, 0]))).map (fun t => (t.enc.run, t.enc.o)) =
      some (1#6, 14) := by decide

/-! ### The header serializer (spec/95_test_vectors.md 2.2) and the host's launches -/

/-- A host that issues one command. -/
def issuing (c : Command) (s : State) : State := { s with script := [.issue c] }

/-- Buffers for the header commands: `HE.dst` of 14 bytes, `HD.src` with these bytes. -/
def headerState (w h c cs : Nat) (stream : List Nat) : State :=
  { State.reset with
    hdr := ⟨BitVec.ofNat 32 w, BitVec.ofNat 32 h, BitVec.ofNat 8 c, BitVec.ofNat 8 cs⟩
    he := { State.reset.he with dst := bytesAt 0 (List.replicate 14 0) }
    hd := { State.reset.hd with srcLen := stream.length, src := bytesAt 100 stream } }

/-- V-HDR-1. -/
theorem test_encode_header :
    (nextState (step (issuing .encodeHeader (headerState 16909060 5 4 1 [])))).map
        (fun t => (t.he.ok, t.he.dst.bytesFrom 0 14)) =
      some (true, [0x71#8, 0x6F#8, 0x69#8, 0x66#8, 1#8, 2#8, 3#8, 4#8, 0#8, 0#8, 0#8, 5#8, 4#8, 1#8]) := by
  decide
/-- V-HDR-3d: floor division. -/
theorem test_encode_header_guard :
    (nextState (step (issuing .encodeHeader (headerState 3 133333333 3 0 [])))).map
      (fun t => (t.he.ok, t.he.status)) = some (false, .invalidHeader) := by decide
/-- V-HDR-10: the bytes after the header are not looked at. -/
theorem test_decode_header :
    (nextState (step (issuing .decodeHeader (headerState 0 0 0 0
        [0x71, 0x6F, 0x69, 0x66, 0, 0, 0, 1, 0, 0, 0, 1, 3, 0, 255, 255, 255, 255, 255, 255, 255, 255])))).map
      (fun t => (t.hd.ok, t.hd.width, t.hd.height, t.hd.channels, t.hd.colorspace)) =
        some (true, 1#32, 1#32, 3#8, 0#8) := by decide
/-- V-HDR-11: the length test comes first. -/
theorem test_decode_header_short :
    (nextState (step (issuing .decodeHeader (headerState 0 0 0 0 (List.replicate 21 0))))).map
      (fun t => (t.hd.ok, t.hd.status)) = some (false, .bufferTooSmall) := by decide
/-- 40_header_serializer.md R110: (4, 2, 4) gives 62. -/
theorem test_max_size :
    (nextState (step (issuing .maxSize (headerState 4 2 4 0 [])))).map (·.ms) = some 62 := by decide
/-- V-HASH-6. -/
theorem test_hash_collision : pixelHash ⟨64#8, 0#8, 0#8, 255#8⟩ = pixelHash ⟨0#8, 0#8, 0#8, 255#8⟩ := by decide
/-- 60_exceptions.md R232: a second ENCODE. -/
theorem test_busy_engine_refuses :
    (match issueCommand .encode (encState 3#8 [0, 0, 0, 0, 0, 0]) with
      | .refused r => some r
      | _ => none) = some (.engineBusy .encode) := by decide
/-- 20_memory.md R64 (c): a destination over the source. -/
theorem test_overlap_refuses :
    launchRefusal .decode
      { decState [0xC0] with dec := { (decState [0xC0]).dec with busy := false, dst := bytesAt 20 (List.replicate 16 0) } } =
      some (.overlap .decode) := by decide
/-- 93_implementation_defined.md U14: a source of 3 bytes per pixel encoded as one of 4. -/
theorem test_untrue_channels_refuse :
    launchRefusal .encode { encIdle 3#8 [0, 0, 0, 0, 0, 0, 0, 0] with hdr := ⟨2#32, 1#32, 4#8, 0#8⟩ } =
      some .channelsNotTrue := by decide
/-- V-ENC-F5: five channels fail and are not refused. -/
theorem test_illegal_channels_fail :
    (nextState (issueCommand .encode
      { encIdle 3#8 [0, 0, 0, 0, 0, 0] with hdr := ⟨2#32, 1#32, 5#8, 0#8⟩ })).map
        (fun t => (t.enc.outLen, t.enc.status)) = some (0, .encodeFailure) := by decide
/-- 93_implementation_defined.md U14: a length that is not the bitstream's. -/
theorem test_untrue_stream_length_refuses :
    launchRefusal .decode { decIdle with dec := { decIdle.dec with srcLen := 22 } } =
      some .streamLengthNotTrue := by decide
theorem test_reset_memory_is_canonical : State.reset.SpacesCanonical := by decide

/-! ### Witnesses: a state and operands for the hypotheses of each statement -/

theorem witness_DecodeAndEncodeAreInverse :
    (Instr.diff (-2) 1 0).wf = true ∧ (Instr.luma (-32) 7 (-8)).wf = true ∧ (Instr.run 62).wf = true ∧
      (decode [0x6A#8, 5#8]).isOk = true := by decide
theorem witness_FirstByteSelectsExactlyOneOpcode :
    (⟨"RGBA", 0xFF#8, 0xFF#8, [], 5⟩ : OpcodeRow) ∈ opcodeRows ∧ opcodeLength 0xFF#8 ≤ [0#8, 0#8, 0#8, 0#8].length + 1 := by
  decide
theorem witness_OnlyIncompleteOpcodesAreRefused :
    [0#8, 0#8].length + 1 < opcodeLength 0xFE#8 ∧ decode [0xFE#8, 0#8, 0#8] = .error (.operandsMissing "RGB") ∧
      decode [] = .error .noByte := by decide
theorem witness_DiffMovesThePixelByItsFields : (0x77#8 : Byte).toNat / 64 = 1 := by decide
theorem witness_LumaMovesThePixelByItsFields : (0xBF#8 : Byte).toNat / 64 = 2 := by decide
theorem witness_RunLoadsTheCounter :
    (0xFD#8 : Byte).toNat / 64 = 3 ∧ (0xFD#8 : Byte).toNat < 0xFE := by decide
theorem witness_OpcodeFrame :
    (nextState (exec (.run 5) (decState []))).isSome = true ∧
      (nextState (exec (.index 7) (decState []))).isSome = true := by decide
theorem witness_CacheUpdatedByOpcodesNotByTheRunPath :
    DecEngine.SlotOpen { (decState []).dec with run := 3#6 } ∧ (3#6 : BitVec 6) ≠ 0#6 := by decide
theorem witness_StepRunsTheDecodedOpcode :
    (decState [0xAA, 0x5D]).mover = .dec ∧ (decState [0xAA, 0x5D]).dec.OpcodeDue ∧
      (decState [0xAA, 0x5D]).dec.NextOpcode (.luma 10 (-3) 5) := by decide
theorem witness_PixelStoreWritesItsSlot :
    (decState []).dec.SlotOpen ∧
      DecEngine.SlotOpen { (decState []).dec with channels := 3#8, i := 3, dstCap := 12 } := by decide
theorem witness_RunPathRepeatsThePixel :
    DecEngine.SlotOpen { (decState []).dec with run := 61#6 } ∧ (61#6 : BitVec 6) ≠ 0#6 := by decide
theorem witness_ExhaustedStreamFails :
    (decState []).dec.busy = true ∧ (decState []).dec.i < (decState []).dec.pixels ∧
      (decState []).dec.run = 0#6 ∧ (decState []).dec.srcLen ≤ (decState []).dec.p + 8 ∧
      (decState []).dec.dst.wf = true ∧ (decState []).dec.dstCap ≤ (decState []).dec.dst.size := by decide
theorem witness_DecodeEndsAfterItsLastSlot :
    ({ decState [] with dec := { (decState []).dec with i := 4 } } : State).dec.busy = true ∧
      DecEngine.pixels { (decState []).dec with i := 4 } ≤ 4 := by decide
theorem witness_RunOpcodeStandsForItsPixels :
    (decState [0xC3]).SpacesCanonical ∧ DecRunning (decState [0xC3]).dec ∧
      (decState [0xC3]).dec.OpcodeDue ∧ (decState [0xC3]).dec.NextOpcode (.run 4) ∧
      (decState [0xC3]).dec.i + 4 ≤ (decState [0xC3]).dec.pixels := by decide

/-- DECODE's operands, checked. -/
def decOperands (w h c : Nat) (len cap : Nat) : State :=
  { decIdle with
    dec := { decIdle.dec with
      width := BitVec.ofNat 32 w, height := BitVec.ofNat 32 h, channels := BitVec.ofNat 8 c
      srcLen := len, dstCap := cap } }

/-- One for each clause: too short, a zero width, the guard at its edge, a fifth channel, too small a
destination, and all well. -/
theorem witness_DecodeChecksThenStarts :
    decIdle.dec.dst.wf = true ∧ decIdle.dec.dstCap ≤ decIdle.dec.dst.size ∧
    decodeCheck 1#32 1#32 3#8 21 16 = some .decSource ∧
    decodeCheck 0#32 1#32 3#8 22 16 = some .decDimensions ∧
    decodeCheck 20000#32 20000#32 4#8 22 16 = some .decDimensions ∧
    decodeCheck 1#32 1#32 5#8 22 16 = some .decChannels ∧
    decodeCheck 4#32 1#32 4#8 22 15 = some .decDestination ∧
    decodeCheck 4#32 1#32 4#8 22 16 = none := by decide
theorem witness_DecodeIgnoresTheHeaderBytes :
    14 ≤ (decState [0xC0]).dec.p ∧
      ((decState [0xC0]).dec.src.write 0 0xAA#8).size = (decState [0xC0]).dec.src.size ∧
      ∀ a, 14 ≤ a →
        ((decState [0xC0]).dec.src.write 0 0xAA#8).byteAt a = (decState [0xC0]).dec.src.byteAt a := by
  refine ⟨by decide, by decide, fun a ha => ?_⟩
  rw [Memory.byteAt_write (by decide) (by decide), if_neg (by omega)]
theorem witness_ChannelCountChangesOnlyTheStore :
    (decState [0xFF, 1, 2, 3, 4]).dec.SlotOpen ∧
      DecEngine.SlotOpen
        { (decState [0xFF, 1, 2, 3, 4]).dec with
          channels := 3#8, dstCap := 12, dst := bytesAt 2000 (List.replicate 12 0) } ∧
      (decState [0xFF, 1, 2, 3, 4]).dec.OpcodeDue := by decide
theorem witness_DecodeTerminates : (decState [0xC3]).Inv ∧ (decState [0xC3]).dec.busy = true := by decide

/-- One for each clause: an invalid header, too short a source, too small a destination, and all
well. -/
theorem witness_EncodeChecksThenStarts :
    (encIdle 3#8 [0, 0, 0, 0, 0, 0]).enc.dst.wf = true ∧
    (encIdle 3#8 [0, 0, 0, 0, 0, 0]).enc.dstCap ≤ (encIdle 3#8 [0, 0, 0, 0, 0, 0]).enc.dst.size ∧
    encodeCheck ⟨2#32, 1#32, 5#8, 0#8⟩ 6 30 = some .encHeader ∧
    encodeCheck ⟨2#32, 1#32, 3#8, 0#8⟩ 5 0 = some .encSource ∧
    encodeCheck ⟨2#32, 1#32, 3#8, 0#8⟩ 6 29 = some .encDestination ∧
    encodeCheck ⟨2#32, 1#32, 3#8, 0#8⟩ 6 30 = none := by decide
/-- ENC at the second pixel of a flipped 2 by 2 image. -/
def encFlipped : State :=
  { encState 3#8 [0, 0, 0, 1, 1, 1, 2, 2, 2, 7, 8, 9] with
    hdr := ⟨2#32, 2#32, 3#8, 0#8⟩
    enc := { (encState 3#8 [0, 0, 0, 1, 1, 1, 2, 2, 2, 7, 8, 9]).enc with i := 1, flip := true } }

/-- Its source is the last pixel of the buffer. -/
theorem witness_PixelFetchFollowsTheScan :
    channelsValid encFlipped.hdr.channels = true ∧ 1 < encFlipped.hdr.width.toNat ∧
      0 < encFlipped.hdr.height.toNat ∧ encFlipped.enc.i = 0 * encFlipped.hdr.width.toNat + 1 ∧
      encFlipped.enc.flip = true ∧
      ((encFlipped.hdr.height.toNat - 1 - 0) * encFlipped.hdr.width.toNat + 1) *
          encFlipped.hdr.channels.toNat + encFlipped.hdr.channels.toNat ≤ encFlipped.enc.srcLen ∧
      encFlipped.enc.srcLen ≤ encFlipped.enc.src.size := by decide
/-- The hypotheses for the initial pixel. -/
abbrev EqualWitness (s : State) : Prop :=
  s.PixelDue ⟨0#8, 0#8, 0#8, 255#8⟩ ∧ (⟨0#8, 0#8, 0#8, 255#8⟩ : Pixel) = s.enc.prev ∧
    s.enc.run.toNat ≤ 61

/-- Counting only. -/
theorem witness_EqualPixelCountsIntoTheRun :
    EqualWitness (encState 3#8 [0, 0, 0, 0, 0, 0]) ∧
      (encState 3#8 [0, 0, 0, 0, 0, 0]).enc.run.toNat + 1 ≠ 62 ∧
      (encState 3#8 [0, 0, 0, 0, 0, 0]).enc.i + 1 ≠ (encState 3#8 [0, 0, 0, 0, 0, 0]).encPixels := by decide

/-- The first step of S1 with `n` equal pixels pending. -/
def encPending (n : BitVec 6) : State :=
  { encState 3#8 [0, 0, 0, 0, 0, 0] with enc := { (encState 3#8 [0, 0, 0, 0, 0, 0]).enc with run := n } }

/-- The 62nd equal pixel. -/
theorem witness_EqualPixelCountsIntoTheRun_full :
    EqualWitness (encPending 61#6) ∧ (encPending 61#6).enc.run.toNat + 1 = 62 := by decide

/-- S1 at its last pixel. -/
def encAtLast : State :=
  { encState 3#8 [0, 0, 0, 0, 0, 0] with
    enc := { (encState 3#8 [0, 0, 0, 0, 0, 0]).enc with i := 1, run := 1#6 } }

theorem witness_EqualPixelCountsIntoTheRun_last :
    EqualWitness encAtLast ∧ encAtLast.enc.i + 1 = encAtLast.encPixels := by decide
theorem witness_CachedPixelGoesOutAsIndex :
    (encState 4#8 [0, 0, 0, 0, 0, 0, 0, 0]).PixelDue ⟨0#8, 0#8, 0#8, 0#8⟩ ∧
      (encState 4#8 [0, 0, 0, 0, 0, 0, 0, 0]).enc.prev ≠ ⟨0#8, 0#8, 0#8, 0#8⟩ ∧
      (encState 4#8 [0, 0, 0, 0, 0, 0, 0, 0]).enc.run.toNat ≤ 61 ∧
      cacheRead (encState 4#8 [0, 0, 0, 0, 0, 0, 0, 0]).enc.cache (pixelHash ⟨0#8, 0#8, 0#8, 0#8⟩) =
        ⟨0#8, 0#8, 0#8, 0#8⟩ := by decide
theorem witness_ChangedAlphaGoesOutAsRgba :
    (encState 4#8 [10, 10, 10, 0, 0, 0, 0, 0]).PixelDue ⟨10#8, 10#8, 10#8, 0#8⟩ ∧
      (encState 4#8 [10, 10, 10, 0, 0, 0, 0, 0]).enc.run.toNat ≤ 61 ∧
      cacheRead (encState 4#8 [10, 10, 10, 0, 0, 0, 0, 0]).enc.cache (pixelHash ⟨10#8, 10#8, 10#8, 0#8⟩) ≠
        ⟨10#8, 10#8, 10#8, 0#8⟩ ∧
      (0#8 : Byte) ≠ (encState 4#8 [10, 10, 10, 0, 0, 0, 0, 0]).enc.prev.a := by decide
/-- All hypotheses at the first step of an image that starts with a pixel of three equal channels. -/
abbrev MissWitness (v : Nat) (d : Int) : Prop :=
  (encState 3#8 [v, v, v, 0, 0, 0]).PixelDue ⟨v, v, v, 255#8⟩ ∧
    (⟨v, v, v, 255#8⟩ : Pixel) ≠ (encState 3#8 [v, v, v, 0, 0, 0]).enc.prev ∧
    (encState 3#8 [v, v, v, 0, 0, 0]).enc.run.toNat ≤ 61 ∧
    cacheRead (encState 3#8 [v, v, v, 0, 0, 0]).enc.cache (pixelHash ⟨v, v, v, 255#8⟩) ≠ ⟨v, v, v, 255#8⟩ ∧
    (255#8 : Byte) = (encState 3#8 [v, v, v, 0, 0, 0]).enc.prev.a ∧
    IsDelta v (encState 3#8 [v, v, v, 0, 0, 0]).enc.prev.r d ∧
    IsDelta v (encState 3#8 [v, v, v, 0, 0, 0]).enc.prev.g d ∧
    IsDelta v (encState 3#8 [v, v, v, 0, 0, 0]).enc.prev.b d

/-- One for each clause: V-ENC-4 (DIFF), V-ENC-14 (LUMA), V-ENC-13 (RGB). -/
theorem witness_MissedPixelGoesOutAsDiffLumaOrRgb :
    (MissWitness 254 (-2) ∧ ∃ d : Int, d = -2 ∧ -2 ≤ d ∧ d ≤ 1) ∧
    (MissWitness 224 (-32) ∧ ∃ d : Int, d = -32 ∧ ¬ -2 ≤ d ∧ -32 ≤ d ∧ d ≤ 31 ∧ d - d ≤ 7 ∧ -8 ≤ d - d) ∧
    (MissWitness 32 32 ∧ ∃ d : Int, d = 32 ∧ ¬ d ≤ 1 ∧ ¬ d ≤ 31) :=
  ⟨⟨by decide, _, rfl, by decide⟩, ⟨by decide, _, rfl, by decide⟩, ⟨by decide, _, rfl, by decide⟩⟩
theorem witness_ThreeChannelsNeverEmitRgba :
    EncRunning (encState 3#8 [8, 0, 0, 0, 0, 0]).hdr (encState 3#8 [8, 0, 0, 0, 0, 0]).enc ∧
      (encState 3#8 [8, 0, 0, 0, 0, 0]).enc.busy = true ∧
      (encState 3#8 [8, 0, 0, 0, 0, 0]).encFetch = some ⟨8#8, 0#8, 0#8, 255#8⟩ := by decide
/-- S1 after its last pixel. -/
def encAtTail : State :=
  { encState 3#8 [0, 0, 0, 0, 0, 0] with
    enc := { (encState 3#8 [0, 0, 0, 0, 0, 0]).enc with i := 2, o := 15 } }

theorem witness_EncodeTailWritesTheEndMarker :
    encAtTail.enc.busy = true ∧ encAtTail.encPixels ≤ encAtTail.enc.i ∧
      encAtTail.enc.o + 8 ≤ encAtTail.enc.dstCap ∧ encAtTail.enc.dstCap ≤ encAtTail.enc.dst.size ∧
      encAtTail.enc.dst.wf = true := by decide
theorem witness_EncodeCompletesWithinTheBound :
    (encIdle 3#8 [0, 0, 0, 0, 0, 0]).Inv ∧
      launchRefusal .encode (encIdle 3#8 [0, 0, 0, 0, 0, 0]) = none ∧
      encodeCheck (encIdle 3#8 [0, 0, 0, 0, 0, 0]).hdr (encIdle 3#8 [0, 0, 0, 0, 0, 0]).enc.srcLen
        (encIdle 3#8 [0, 0, 0, 0, 0, 0]).enc.dstCap = none := by decide
theorem witness_EncodeHeaderWritesFourteenBytesOrFails :
    (headerState 20000 19999 4 0 []).he.dst.wf = true ∧ 14 ≤ (headerState 20000 19999 4 0 []).he.dst.size ∧
      hdrValid (headerState 20000 19999 4 0 []).hdr = true ∧
      hdrValid (headerState 20000 20000 4 0 []).hdr = false := by decide
/-- One for each clause: 21 bytes, a bad magic, a fifth channel, and all well. -/
theorem witness_DecodeHeaderChecksInOrder :
    (headerState 0 0 0 0 (List.replicate 21 0)).hd.srcLen ≤ (headerState 0 0 0 0 (List.replicate 21 0)).hd.src.size ∧
    (headerState 0 0 0 0 (List.replicate 21 0)).hd.srcLen < 22 ∧
    (headerState 0 0 0 0 (List.replicate 22 0)).hd.src.bytesFrom 0 4 ≠ magic ∧
    (headerState 0 0 0 0 ([0x71, 0x6F, 0x69, 0x66] ++ List.replicate 18 0)).hd.src.bytesFrom 0 4 = magic ∧
    hdrValid ⟨1#32, 1#32, 5#8, 0#8⟩ = false ∧ hdrValid ⟨1#32, 1#32, 3#8, 0#8⟩ = true := by decide
theorem witness_HeaderRoundTrip :
    hdrValid (headerState 1 399999999 3 0 []).hdr = true ∧ (headerState 1 1 3 0 []).he.dst.wf = true ∧
      14 ≤ (headerState 1 1 3 0 []).he.dst.size ∧
      (nextState (decodeHeader (headerState 0 0 0 0
        ([0x71, 0x6F, 0x69, 0x66, 0, 0, 0, 1, 0, 0, 0, 1, 3, 0] ++ List.replicate 8 0)))).map (·.hd.ok) =
          some true := by decide
theorem witness_ValidSizesFitThirtyOneBits : hdrValid ⟨1#32, 399999999#32, 4#8, 1#8⟩ = true := by decide
theorem witness_WrittenSlotsHashHome :
    (decState [0xFE, 1, 2, 3]).CachesHashHome ∧ (nextState (step (decState [0xFE, 1, 2, 3]))).isSome = true := by
  decide
theorem witness_PreviousPixelStaysCached :
    (encState 3#8 [8, 0, 0, 0, 0, 0]).enc.PrevCached ∧
      (nextState (step (encState 3#8 [8, 0, 0, 0, 0, 0]))).map (·.enc.busy) = some true := by decide
theorem witness_StepKeepsTheInvariant :
    (decState [0xC0]).Inv ∧ (encState 4#8 [10, 10, 10, 0, 0, 0, 0, 0]).Inv ∧
      (nextState (step (decState [0xC0]))).isSome = true ∧
      (nextState (step (encState 4#8 [10, 10, 10, 0, 0, 0, 0, 0]))).isSome = true :=
  ⟨by decide, by decide, by decide, by decide⟩
theorem witness_NoStepLeavesItsSpaces : (decState [0xFF]).Inv := by decide
/-- Both engines run. -/
def bothRunning : State :=
  { decState [0xC0] with
    hdr := (encState 3#8 [1, 2, 3, 4, 5, 6]).hdr
    enc := { (encState 3#8 [1, 2, 3, 4, 5, 6]).enc with
      src := bytesAt 3000 [1, 2, 3, 4, 5, 6], dst := bytesAt 4000 (List.replicate 32 0) } }

theorem witness_RunningSpacesStayApart :
    bothRunning.SpacesApart ∧ bothRunning.enc.busy = true ∧ bothRunning.dec.busy = true ∧
      (nextState (step bothRunning)).isSome = true :=
  ⟨by decide, by decide, by decide, by decide⟩
theorem witness_RunningInputsAreConstant :
    (decState [0xC0]).dec.busy = true ∧ (decState [0xC0]).dec.src.wf = true ∧
      (nextState (step (decState [0xC0]))).isSome = true ∧
      (encState 3#8 [8, 0, 0, 0, 0, 0]).enc.busy = true ∧
      (nextState (step (encState 3#8 [8, 0, 0, 0, 0, 0]))).isSome = true := by decide
theorem witness_FailureSetsSentinelAndStatus :
    (decState []).SpacesCanonical ∧ (decState []).enc.dstCap ≤ (decState []).enc.dst.size ∧
      (decState []).dec.dstCap ≤ (decState []).dec.dst.size ∧ Cause.encSource.command = .encode ∧
      Cause.decExhausted.command = .decode ∧ Cause.heHeader.command = .encodeHeader ∧
      Cause.hdMagic.command = .decodeHeader := by decide
theorem witness_CommandsForgetEarlierRegisters :
    (decState []).dec.SameOutsideRegisters { (decState []).dec with run := 7#6, p := 99 } ∧
      (encState 3#8 [8, 0, 0, 0, 0, 0]).PixelDue ⟨8#8, 0#8, 0#8, 255#8⟩ := by decide
/-- One for each clause: a running engine, a length too large, an untrue length, untrue channels, an
overlap at the last byte, and none of these. -/
theorem witness_LaunchesRefusedExactlyWhen :
    (decState [0xC0]).engineBusy .decode = true ∧ decIdle.engineBusy .decode = false ∧
      launchRefusal .decode { decIdle with dec := { decIdle.dec with dstCap := 17 } } =
        some (.lengthNotTrue .decDst) ∧
      ¬ ({ decIdle with dec := { decIdle.dec with srcLen := 22 } } : State).ContentTrue .decode ∧
      ¬ ({ encIdle 3#8 [0, 0, 0, 0, 0, 0] with hdr := ⟨1#32, 1#32, 4#8, 0#8⟩ } : State).ContentTrue .encode ∧
      decIdle.ContentTrue .decode ∧ (encIdle 3#8 [0, 0, 0, 0, 0, 0]).ContentTrue .encode ∧
      launchRefusal .decode { decIdle with dec := { decIdle.dec with dst := bytesAt 22 (List.replicate 16 0) } } =
        some (.overlap .decode) ∧
      launchRefusal .decode { decIdle with dec := { decIdle.dec with dst := bytesAt 23 (List.replicate 16 0) } } =
        none := by decide
/-- ENC after a command of 23 bytes. -/
def encDone : State :=
  { encIdle 3#8 [0, 0, 0, 0, 0, 0] with
    enc := { (encIdle 3#8 [0, 0, 0, 0, 0, 0]).enc with outLen := 23 } }

/-- A running ENC, and a running DEC. -/
theorem witness_PassedStreamIsTheEncodersOutput_refused :
    ((encState 3#8 [0, 0, 0, 0, 0, 0]).enc.busy = true ∨ (encState 3#8 [0, 0, 0, 0, 0, 0]).dec.busy = true) ∧
      ((decState [0xC0]).enc.busy = true ∨ (decState [0xC0]).dec.busy = true) := by decide
theorem witness_PassedStreamIsTheEncodersOutput :
    encDone.enc.dst.wf = true ∧ encDone.enc.outLen ≤ encDone.enc.dst.size ∧ encDone.enc.busy = false ∧
      encDone.dec.busy = false := by decide
theorem witness_EngineMovesCommute :
    (nextState (encodeStep { encState 3#8 [8, 0, 0, 0, 0, 0] with dec := (decState [0xC0]).dec })).isSome = true ∧
      (nextState (decodeStep { encState 3#8 [8, 0, 0, 0, 0, 0] with dec := (decState [0xC0]).dec })).isSome =
        true := by decide
theorem witness_EngineMovesStayInTheirEngine :
    (nextState (encodeStep (encState 3#8 [8, 0, 0, 0, 0, 0]))).isSome = true ∧
      (nextState (decodeStep (decState [0xC0]))).isSome = true := by decide
/-- An idle engine, a running ENC and a running DEC. -/
theorem witness_HostWritesParameters :
    decIdle.enc.busy = false ∧ decIdle.dec.busy = false ∧
      (encState 3#8 [8, 0, 0, 0, 0, 0]).enc.busy = true ∧ (decState [0xC0]).dec.busy = true := by decide
/-- DEC runs with its 23 source bytes from place 0 and its 16 destination bytes from place 1000, and
`HE.dst` has 16 bytes from place 10. -/
def hostBeside : State :=
  { decState [0xC0] with he := { State.reset.he with dst := bytesAt 10 (List.replicate 16 0) } }

/-- Handing over: in a command, over a destination's last byte, over a source's first byte with another
value, with the same value, and just past the source. -/
theorem witness_HostUsesBuffers_give :
    hostBeside.InCommand .decDst ∧ ¬ hostBeside.InCommand .hdSrc ∧
      hostBeside.WrittenByACommand (1015 + 0) ∧ hostBeside.OtherReadByACommand (0 + 0) 1#8 ∧
      (¬ hostBeside.WrittenByACommand (0 + 0) ∧ ¬ hostBeside.OtherReadByACommand (0 + 0) 0#8) ∧
      (¬ hostBeside.WrittenByACommand (23 + 0) ∧ ¬ hostBeside.OtherReadByACommand (23 + 0) 1#8) := by decide

/-- Storing and reading: past the buffer, over the last source byte, just past it, in a destination. -/
theorem witness_HostUsesBuffers_bytes :
    (hostBeside.space .heDst).size ≤ 16 ∧ 15 < (hostBeside.space .heDst).size ∧
      (hostBeside.space .heDst).wf = true ∧
      hostBeside.ReadByACommand ((hostBeside.space .heDst).base + 12) ∧
      (¬ hostBeside.ReadByACommand ((hostBeside.space .heDst).base + 13) ∧
        ¬ hostBeside.WrittenByACommand ((hostBeside.space .heDst).base + 13)) ∧
      15 < (hostBeside.space .decDst).size ∧
      hostBeside.WrittenByACommand ((hostBeside.space .decDst).base + 15) := by decide

/-- A scheduled ENC, a running DEC, a running ENC, and the host with and without an act. -/
theorem witness_StepIsTheMoversMove :
    ({ decState [0xC0] with sched := [.enc] } : State).mover = .enc ∧ (decState [0xC0]).mover = .dec ∧
      (encState 3#8 [8, 0, 0, 0, 0, 0]).mover = .enc ∧ State.reset.mover = .host ∧
      State.reset.script = [] ∧ (issuing .maxSize State.reset).mover = .host ∧
      (issuing .maxSize State.reset).script = [.issue .maxSize] := by decide
theorem witness_IdleBlockDoesNothing :
    State.reset.enc.busy = false ∧ State.reset.dec.busy = false ∧ State.reset.script = [] := by decide
/-- V-ENC-6 (1,0,255,255) against the initial pixel. -/
theorem witness_DecoderUndoesTheEncodersChoice :
    (⟨1#8, 0#8, 255#8, 255#8⟩ : Pixel) ≠ initPrev ∧ State.reset.dec.px = initPrev ∧
      CachesAgree initCache State.reset.dec.cache := by decide
/-- A leading run: the exception of slot 53. -/
theorem witness_RunKeepsTheCachesAgreeing :
    CachesAgree initCache State.reset.dec.cache ∧ State.reset.dec.px = initPrev ∧
      cacheRead initCache 53 = zeroPixel ∧
      CachesAgree initCache (cacheWrite initCache initPrev) := by decide

/-- What ENCODE of S1 leaves. -/
def encodedS1 : Option State :=
  (nextState (issueCommand .encode (encIdle 3#8 [0, 0, 0, 0, 0, 0]))).bind fun t =>
    nextState (moves encodeStep 3 t)

theorem witness_DecodedImageIsTheEncodedImage :
    (encIdle 3#8 [0, 0, 0, 0, 0, 0]).Inv ∧
      launchRefusal .encode (encIdle 3#8 [0, 0, 0, 0, 0, 0]) = none ∧
      encodeCheck (encIdle 3#8 [0, 0, 0, 0, 0, 0]).hdr (encIdle 3#8 [0, 0, 0, 0, 0, 0]).enc.srcLen
        (encIdle 3#8 [0, 0, 0, 0, 0, 0]).enc.dstCap = none :=
  ⟨by decide, by decide, by decide⟩

/-- DEC given that stream, and a destination of 6 bytes. -/
def decOf (u : State) : DecEngine :=
  { DecEngine.atReset with
    width := 2#32, height := 1#32, channels := 3#8, srcLen := 23, dstCap := 6
    src := u.enc.dst, dst := bytesAt 5000 (List.replicate 6 0) }

/-- The hypotheses on the decoder; S1's 23 bytes are those of the spec. -/
theorem witness_DecodedImageIsTheEncodedImage_decoder :
    encodedS1.map (fun u => (u.enc.outLen, u.enc.dst.bytesFrom 14 9)) =
        some (23, [0xC1#8, 0#8, 0#8, 0#8, 0#8, 0#8, 0#8, 0#8, 1#8]) ∧
      (∀ u : State, (decOf u).busy = false ∧ (decOf u).width = (encIdle 3#8 [0, 0, 0, 0, 0, 0]).hdr.width ∧
        (decOf u).height = (encIdle 3#8 [0, 0, 0, 0, 0, 0]).hdr.height ∧
        (decOf u).channels = (encIdle 3#8 [0, 0, 0, 0, 0, 0]).hdr.channels ∧
        (∀ a, a < (decOf u).srcLen → (decOf u).src.byteAt a = u.enc.dst.byteAt a) ∧
        rawLength (decOf u).width (decOf u).height (decOf u).channels ≤ (decOf u).dstCap ∧
        (decOf u).dstCap ≤ (decOf u).dst.size ∧ (decOf u).dst.wf = true) ∧
      encodedS1.map (fun u => decide ((decOf u).srcLen ≤ (decOf u).src.size)) = some true :=
  ⟨by decide, fun _ => ⟨rfl, rfl, rfl, rfl, fun _ _ => rfl,
      (by decide : rawLength 2#32 1#32 3#8 ≤ 6), (by decide : 6 ≤ (bytesAt 5000 (List.replicate 6 0)).size),
      (by decide : (bytesAt 5000 (List.replicate 6 0)).wf = true)⟩, by decide⟩

end Sys2Proof.Tests
end

section
/-! PROOFS. 00_scope.md: the size bound of R11, and whose move a step is (R7, R9). -/

namespace Sys2Proof.Machine

/-! ### Valid headers -/

/-- Conditions 1, 2 and 5 of 40_header_serializer.md R100. -/
theorem dimsValid_iff (width height : Word) :
    dimsValid width height = true ↔
      width.toNat ≠ 0 ∧ height.toNat ≠ 0 ∧ height.toNat < pixelsGuard / width.toNat := by
  simp [dimsValid, and_assoc]

/-- Condition 4 of R100. -/
theorem colorspaceValid_iff (colorspace : Byte) :
    colorspaceValid colorspace = true ↔ colorspace = 0#8 ∨ colorspace = 1#8 := by
  simp [colorspaceValid]

/-- 40_header_serializer.md R100, by its three parts. -/
theorem hdrValid_iff (h : Header) :
    hdrValid h = true ↔ dimsValid h.width h.height = true ∧ channelsValid h.channels = true ∧
      colorspaceValid h.colorspace = true := by
  simp [hdrValid, and_assoc]

theorem toNat_le_four_of_channelsValid {c : Byte} (h : channelsValid c = true) : c.toNat ≤ 4 := by
  obtain rfl | rfl := (channelsValid_iff c).mp h <;> decide

/-! ### The size bound (00_scope.md R11) -/

/-- The floor division of the guard leaves room for one more row of pixels. -/
theorem pixelCount_add_width_le_guard {width height : Word} (h : dimsValid width height = true) :
    pixelCount width height + width.toNat ≤ pixelsGuard := by
  obtain ⟨-, -, hguard⟩ := (dimsValid_iff width height).mp h
  calc pixelCount width height + width.toNat
      = width.toNat * (height.toNat + 1) := (Nat.mul_succ _ _).symm
    _ ≤ width.toNat * (pixelsGuard / width.toNat) := Nat.mul_le_mul_left _ hguard
    _ ≤ pixelsGuard := Nat.mul_div_le _ _

theorem pixelCount_lt_guard {width height : Word} (h : dimsValid width height = true) :
    pixelCount width height < pixelsGuard := by
  have hroom := pixelCount_add_width_le_guard h
  obtain ⟨hwidth, -, -⟩ := (dimsValid_iff width height).mp h
  omega

theorem rawLength_le_of_hdrValid {h : Header} (hv : hdrValid h = true) :
    rawLength h.width h.height h.channels ≤ 1599999996 := by
  obtain ⟨hdims, hchan, -⟩ := (hdrValid_iff h).mp hv
  have hpixels : pixelCount h.width h.height ≤ 399999999 :=
    Nat.le_of_lt_succ (pixelCount_lt_guard hdims)
  exact Nat.mul_le_mul hpixels (toNat_le_four_of_channelsValid hchan)

/-- The worst case is the raw length, one tag byte for each pixel and the 22 bytes around them. -/
theorem worstCaseLength_eq (width height : Word) (channels : Byte) :
    worstCaseLength width height channels =
      rawLength width height channels + pixelCount width height + minStreamLen := by
  simp [worstCaseLength, rawLength, Nat.mul_succ]

theorem worstCaseLength_le_of_hdrValid {h : Header} (hv : hdrValid h = true) :
    worstCaseLength h.width h.height h.channels ≤ 2000000017 := by
  obtain ⟨hdims, -, -⟩ := (hdrValid_iff h).mp hv
  have hraw := rawLength_le_of_hdrValid hv
  have hpixels := pixelCount_lt_guard hdims
  simp only [worstCaseLength_eq, minStreamLen, pixelsGuard] at *
  omega

/-- Settles O38: the guard bounds the pixel count, and with at most four channels both lengths. -/
theorem validSizesFitThirtyOneBits : Obligations.ValidSizesFitThirtyOneBits := by
  intro h hv
  obtain ⟨hdims, -, -⟩ := (hdrValid_iff h).mp hv
  obtain ⟨hwidth, -, -⟩ := (dimsValid_iff h.width h.height).mp hdims
  refine ⟨Nat.le_sub_of_add_le (pixelCount_add_width_le_guard hdims), ?_,
    rawLength_le_of_hdrValid hv, worstCaseLength_le_of_hdrValid hv⟩
  omega

/-! ### Whose move a step is (00_scope.md R7, R9) -/

section mover
variable {s : State}

theorem State.mover_of_sched_cons {a : Agent} {rest : List Agent} (h : s.sched = a :: rest) :
    s.mover = a := by
  simp [State.mover, h]

theorem State.mover_of_sched_nil (h : s.sched = []) :
    s.mover = if s.dec.busy then .dec else if s.enc.busy then .enc else .host := by
  simp [State.mover, h]

theorem hostStep_of_script_nil (h : s.script = []) : hostStep s = .next s := by
  simp [hostStep, h]

theorem hostStep_of_script_cons {op : HostOp} {rest : List HostOp} (h : s.script = op :: rest) :
    hostStep s = hostAct op (s.setScript rest) := by
  simp [hostStep, h]

theorem step_of_mover {a : Agent} (h : s.mover = a) : step s = moveAgent a s.popTurn :=
  congrArg (moveAgent · s.popTurn) h

theorem step_of_mover_host (h : s.mover = .host) : step s = hostStep s.popTurn := step_of_mover h

end mover

/-- Settles O60: the mover by the cases of the schedule and the engines, the step by the agent. -/
theorem stepIsTheMoversMove : Obligations.StepIsTheMoversMove := by
  intro s
  refine ⟨fun a rest hsched => State.mover_of_sched_cons hsched, ?dec, ?enc, ?host,
    fun hm => step_of_mover hm, fun hm => step_of_mover hm, ?noAct, ?act⟩
  case dec => intro hsched hdec; simp [State.mover_of_sched_nil hsched, hdec]
  case enc => intro hsched hdec henc; simp [State.mover_of_sched_nil hsched, hdec, henc]
  case host => intro hsched hdec henc; simp [State.mover_of_sched_nil hsched, hdec, henc]
  case noAct =>
    intro hm hscript
    exact (step_of_mover_host hm).trans (hostStep_of_script_nil hscript)
  case act =>
    intro op rest hm hscript
    exact (step_of_mover_host hm).trans (hostStep_of_script_cons hscript)

end Sys2Proof.Machine
end

section
/-! PROOFS. 10_state.md: power-on and the idle block (R36, R37), the registers a command forgets (R29), and the
parameters and the source it can rely on (R30). -/

namespace Sys2Proof.Machine

/-! ### Idle engines -/

theorem encodeStep_of_idle {s : State} (idle : s.enc.busy = false) : encodeStep s = .next s := by
  simp [encodeStep, idle]

theorem decodeStep_of_idle {s : State} (idle : s.dec.busy = false) : decodeStep s = .next s := by
  simp [decodeStep, idle]

theorem encRunning_of_idle {e : EncEngine} (idle : e.busy = false) (h : Header) : EncRunning h e :=
  fun busy => absurd busy (by simp [idle])

theorem decRunning_of_idle {d : DecEngine} (idle : d.busy = false) : DecRunning d :=
  fun busy => absurd busy (by simp [idle])

theorem spacesApart_of_idle {s : State} (encIdle : s.enc.busy = false) (decIdle : s.dec.busy = false) :
    s.SpacesApart := by
  simp [State.SpacesApart, encIdle, decIdle]

theorem cachesHashHome_of_idle {s : State} (encIdle : s.enc.busy = false) (decIdle : s.dec.busy = false) :
    s.CachesHashHome := by
  simp [State.CachesHashHome, encIdle, decIdle]

/-- Settles O53: whichever agent moves, its move changes nothing. -/
theorem idleBlockDoesNothing : Obligations.IdleBlockDoesNothing := by
  intro s encIdle decIdle noAct
  rw [step_of_mover rfl]
  cases s.mover with
  | host => exact hostStep_of_script_nil noAct
  | enc => exact encodeStep_of_idle encIdle
  | dec => exact decodeStep_of_idle decIdle

/-! ### Power-on -/

/-- Settles O42: no command is in progress, and the absent buffers are canonical. -/
theorem invariantsHoldAtReset : Obligations.InvariantsHoldAtReset :=
  ⟨⟨by decide, encRunning_of_idle rfl _, decRunning_of_idle rfl⟩,
    spacesApart_of_idle rfl rfl, cachesHashHome_of_idle rfl rfl⟩

/-- Settles O54: register by register, space by space and slot by slot. -/
theorem resetLeavesTheNamedValues : Obligations.ResetLeavesTheNamedValues := by
  refine ⟨?enc, ?dec, ?others, ?spaces, ?caches⟩
  case enc => decide
  case dec => decide
  case others => decide
  case spaces => intro sp; cases sp <;> rfl
  case caches => exact fun h => ⟨cacheRead_initCache h, cacheRead_initCache h⟩

/-! ### Parameter registers -/

theorem unlessBusy_done_and_refused (busy : Bool) (t : State) :
    (busy = false → unlessBusy busy t = .next t) ∧
      (busy = true → unlessBusy busy t = .refused .changedDuringCommand) := by
  cases busy <;> simp [unlessBusy]

/-- Settles O58: an act on an engine's parameters is done while it is idle and refused while it runs. -/
theorem hostWritesParameters : Obligations.HostWritesParameters :=
  fun _ => ⟨fun _ => unlessBusy_done_and_refused _ _, fun _ _ _ => unlessBusy_done_and_refused _ _,
    fun _ _ _ _ _ => unlessBusy_done_and_refused _ _, fun _ => rfl⟩

/-! ### Starts -/

/-- The checks of ENCODE fail as ENCODE. -/
theorem command_of_encodeCheck {h : Header} {srcLen dstCap : Nat} {c : Cause}
    (failed : encodeCheck h srcLen dstCap = some c) : c.command = .encode := by
  unfold encodeCheck at failed
  split_ifs at failed <;> cases failed <;> rfl

/-- The checks of DECODE fail as DECODE. -/
theorem command_of_decodeCheck {width height : Word} {channels : Byte} {srcLen dstCap : Nat} {c : Cause}
    (failed : decodeCheck width height channels srcLen dstCap = some c) : c.command = .decode := by
  unfold decodeCheck at failed
  split_ifs at failed <;> cases failed <;> rfl

theorem raiseFailure_of_encode {c : Cause} (hc : c.command = .encode) (s : State) :
    raiseFailure c s = s.setEnc (s.enc.fail c.status) := by
  simp [raiseFailure, hc]

theorem raiseFailure_of_decode {c : Cause} (hc : c.command = .decode) (s : State) :
    raiseFailure c s = s.setDec (s.dec.fail c.status) := by
  simp [raiseFailure, hc]

theorem encodeStart_of_failed {s : State} {c : Cause}
    (failed : encodeCheck s.hdr s.enc.srcLen s.enc.dstCap = some c) :
    encodeStart s = .next (s.setEnc (s.enc.fail c.status)) := by
  simp [encodeStart, failed, raiseFailure_of_encode (command_of_encodeCheck failed)]

/-- DEC after a launch of DECODE: failed, or at its call start (43_opcode_decoder.md R181, R182). -/
def DecEngine.launched (d : DecEngine) : DecEngine :=
  match decodeCheck d.width d.height d.channels d.srcLen d.dstCap with
  | some c => d.fail c.status
  | none => d.callStart

/-- All the start of DECODE can answer. -/
theorem decodeStart_eq (s : State) : decodeStart s = .next (s.setDec s.dec.launched) := by
  cases check : decodeCheck s.dec.width s.dec.height s.dec.channels s.dec.srcLen s.dec.dstCap with
  | some c =>
    simp [decodeStart, DecEngine.launched, check, raiseFailure_of_decode (command_of_decodeCheck check)]
  | none => simp [decodeStart, DecEngine.launched, check]

/-! ### Registers a command forgets (R29) -/

theorem DecEngine.launched_congr {d e : DecEngine} (h : d.SameOutsideRegisters e) :
    e.launched = d.launched := by
  cases d; cases e
  obtain ⟨rfl, rfl, rfl, rfl, rfl, rfl, rfl, rfl, rfl, rfl, rfl⟩ := h
  rfl

theorem encodeStart_forgets (s : State) (prev : Pixel) (run : BitVec 6) (cache : Cache) (i o : Nat) :
    encodeStart (s.setEnc { s.enc with prev := prev, run := run, cache := cache, i := i, o := o }) =
      encodeStart s := by
  cases check : encodeCheck s.hdr s.enc.srcLen s.enc.dstCap with
  | some c =>
    refine Eq.trans (encodeStart_of_failed (c := c) ?check) (encodeStart_of_failed check).symm
    exact check
  | none =>
    simp only [encodeStart, check, State.setEnc_hdr, State.setEnc_enc]
    rfl

theorem encodeStep_of_pixels_left {s : State} (busy : s.enc.busy = true) (left : s.enc.i < s.encPixels) :
    encodeStep s = encodeOnePixel s := by
  simp [encodeStep, busy, left]

theorem encodeStep_forgets_px {s : State} (busy : s.enc.busy = true) (left : s.enc.i < s.encPixels) (q : Pixel) :
    encodeStep (s.setEnc { s.enc with px := q }) = encodeStep s := by
  rw [encodeStep_of_pixels_left busy left, encodeStep_of_pixels_left]
  · rfl
  · exact busy
  · exact left

/-- Settles O48: a start overwrites these registers whether its checks pass or fail, and a step of ENC
overwrites `ENC.px`. -/
theorem commandsForgetEarlierRegisters : Obligations.CommandsForgetEarlierRegisters := by
  refine ⟨fun s d same => ?decode, encodeStart_forgets, fun s px q due => ?step⟩
  case decode =>
    rw [decodeStart_eq, decodeStart_eq, State.setDec_dec, State.setDec_setDec,
      DecEngine.launched_congr same]
  case step =>
    obtain ⟨busy, left, -⟩ := due
    exact encodeStep_forgets_px busy left q

/-! ### What a move of an engine can answer -/

theorem EncEngine.emit_sameInputs {e e' : EncEngine} {bytes : List Byte} (h : e.emit bytes = some e') :
    e.SameInputs e' := by
  obtain ⟨-, -, rfl⟩ := EncEngine.emit_some h
  exact ⟨rfl, rfl, rfl, rfl⟩

theorem encodeOnePixel_next {s t : State} (h : encodeOnePixel s = .next t) :
    ∃ px e, s.encFetch = some px ∧
      (s.enc.consume px (s.encChoice px).2.1 (s.encChoice px).2.2).emit (encodeAll (s.encChoice px).1) = some e ∧
      t = s.setEnc e := by
  unfold encodeOnePixel at h
  split at h
  · cases h
  next px fetched =>
    split at h
    next e emitted =>
      cases h
      exact ⟨px, e, fetched, emitted, rfl⟩
    · cases h

theorem encodeEnd_next {s t : State} (h : encodeEnd s = .next t) :
    ∃ e, s.enc.emit endMarker = some e ∧ t = s.setEnc e.finish := by
  unfold encodeEnd at h
  split at h
  next e emitted =>
    cases h
    exact ⟨e, emitted, rfl⟩
  · cases h

/-- All a move of ENC can answer a next state with. -/
theorem encodeStep_next {s t : State} (h : encodeStep s = .next t) :
    (s.enc.busy = false ∧ t = s) ∨
    (s.enc.busy = true ∧ s.enc.i < s.encPixels ∧ encodeOnePixel s = .next t) ∨
    (s.enc.busy = true ∧ s.encPixels ≤ s.enc.i ∧ encodeEnd s = .next t) := by
  unfold encodeStep at h
  split_ifs at h with busy left
  · exact .inr (.inl ⟨busy, left, h⟩)
  · exact .inr (.inr ⟨busy, by omega, h⟩)
  · cases h
    exact .inl ⟨by simpa using busy, rfl⟩

/-- A move of ENC changes ENC alone, and neither its parameters nor its source. -/
theorem encodeStep_sameInputs {s t : State} (h : encodeStep s = .next t) :
    ∃ e, t = s.setEnc e ∧ s.enc.SameInputs e := by
  obtain ⟨-, rfl⟩ | ⟨-, -, pixel⟩ | ⟨-, -, tail⟩ := encodeStep_next h
  · exact ⟨t.enc, rfl, rfl, rfl, rfl, rfl⟩
  · obtain ⟨px, e, -, emitted, rfl⟩ := encodeOnePixel_next pixel
    have same := EncEngine.emit_sameInputs emitted
    exact ⟨e, rfl, same⟩
  · obtain ⟨e, emitted, rfl⟩ := encodeEnd_next tail
    have same := EncEngine.emit_sameInputs emitted
    exact ⟨e.finish, rfl, same⟩

theorem decAfter_sameInputs (i : Instr) (d : DecEngine) : d.SameInputs (decAfter i d) := by
  cases i <;> exact ⟨rfl, rfl, rfl, rfl, rfl, rfl⟩

/-- An opcode fetched, executed and its pixel stored. -/
theorem thenStore_execFetched_next {s t : State} (h : thenStore (execFetched s) = .next t) :
    ∃ i, s.dec.fetch = .ok i ∧ storePixel (s.setDec (decAfter i s.dec)) = .next t := by
  unfold execFetched at h
  split at h
  next i fetched =>
    rw [exec_eq] at h
    exact ⟨i, fetched, h⟩
  · cases h

/-- All a pixel slot of DEC can answer a next state with. -/
theorem decodeOnePixel_next {s t : State} (h : decodeOnePixel s = .next t) :
    (s.dec.run ≠ 0#6 ∧ storePixel (runPath s) = .next t) ∨
    (s.dec.run = 0#6 ∧ s.dec.mayFetch = true ∧
      ∃ i, s.dec.fetch = .ok i ∧ storePixel (s.setDec (decAfter i s.dec)) = .next t) ∨
    (s.dec.run = 0#6 ∧ s.dec.mayFetch = false ∧ t = s.setDec (s.dec.fail .bufferTooSmall)) := by
  unfold decodeOnePixel at h
  split_ifs at h with running mayFetch
  · exact .inl ⟨running, h⟩
  · exact .inr (.inl ⟨not_not.mp running, mayFetch, thenStore_execFetched_next h⟩)
  · cases h
    exact .inr (.inr ⟨not_not.mp running, by simpa using mayFetch, rfl⟩)

/-- All a move of DEC can answer a next state with. -/
theorem decodeStep_next {s t : State} (h : decodeStep s = .next t) :
    (s.dec.busy = false ∧ t = s) ∨
    (s.dec.busy = true ∧ s.dec.i < s.dec.pixels ∧ decodeOnePixel s = .next t) ∨
    (s.dec.busy = true ∧ s.dec.pixels ≤ s.dec.i ∧ t = decodeEnd s) := by
  unfold decodeStep at h
  split_ifs at h with busy left
  · exact .inr (.inl ⟨busy, left, h⟩)
  · cases h
    exact .inr (.inr ⟨busy, by omega, rfl⟩)
  · cases h
    exact .inl ⟨by simpa using busy, rfl⟩

/-- A pixel slot changes DEC alone, and neither its parameters nor its source. -/
theorem decodeOnePixel_sameInputs {s t : State} (h : decodeOnePixel s = .next t) :
    ∃ d, t = s.setDec d ∧ s.dec.SameInputs d := by
  obtain ⟨-, stored⟩ | ⟨-, -, i, -, stored⟩ | ⟨-, -, rfl⟩ := decodeOnePixel_next h
  · obtain ⟨-, -, rfl⟩ := storePixel_next stored
    exact ⟨_, rfl, rfl, rfl, rfl, rfl, rfl, rfl⟩
  · obtain ⟨-, -, rfl⟩ := storePixel_next stored
    exact ⟨_, rfl, decAfter_sameInputs i s.dec⟩
  · exact ⟨_, rfl, rfl, rfl, rfl, rfl, rfl, rfl⟩

/-- A move of DEC changes DEC alone, and neither its parameters nor its source. -/
theorem decodeStep_sameInputs {s t : State} (h : decodeStep s = .next t) :
    ∃ d, t = s.setDec d ∧ s.dec.SameInputs d := by
  obtain ⟨-, rfl⟩ | ⟨-, -, slot⟩ | ⟨-, -, rfl⟩ := decodeStep_next h
  · exact ⟨t.dec, rfl, rfl, rfl, rfl, rfl, rfl, rfl⟩
  · exact decodeOnePixel_sameInputs slot
  · exact ⟨_, rfl, rfl, rfl, rfl, rfl, rfl, rfl⟩

/-! ### What a command can change when it is issued -/

theorem encodeHeader_setHe {s t : State} (h : encodeHeader s = .next t) : ∃ u, t = s.setHe u := by
  unfold encodeHeader at h
  split at h
  · split at h <;> cases h
    exact ⟨_, rfl⟩
  · cases h
    exact ⟨_, rfl⟩

theorem decodeHeader_setHd {s t : State} (h : decodeHeader s = .next t) : ∃ u, t = s.setHd u := by
  unfold decodeHeader at h
  split at h
  · cases h
    exact ⟨_, rfl⟩
  split at h
  · cases h
  split at h
  · cases h
    exact ⟨_, rfl⟩
  split at h
  · cases h
  split at h <;> cases h <;> exact ⟨_, rfl⟩

theorem encodeStart_setEnc {s t : State} (h : encodeStart s = .next t) : ∃ e, t = s.setEnc e := by
  cases check : encodeCheck s.hdr s.enc.srcLen s.enc.dstCap with
  | some c =>
    rw [encodeStart_of_failed check] at h
    cases h
    exact ⟨_, rfl⟩
  | none =>
    simp only [encodeStart, check] at h
    split at h <;> cases h
    exact ⟨_, rfl⟩

/-! ### A space replaced -/

@[simp] theorem State.setSpace_hdr (s : State) (sp : SpaceName) (m : Memory) : (s.setSpace sp m).hdr = s.hdr := by
  cases sp <;> rfl

theorem State.setSpace_enc_params (s : State) (sp : SpaceName) (m : Memory) :
    (s.setSpace sp m).enc.flip = s.enc.flip ∧ (s.setSpace sp m).enc.srcLen = s.enc.srcLen ∧
      (s.setSpace sp m).enc.dstCap = s.enc.dstCap := by
  cases sp <;> exact ⟨rfl, rfl, rfl⟩

theorem State.setSpace_dec_params (s : State) (sp : SpaceName) (m : Memory) :
    (s.setSpace sp m).dec.width = s.dec.width ∧ (s.setSpace sp m).dec.height = s.dec.height ∧
      (s.setSpace sp m).dec.channels = s.dec.channels ∧ (s.setSpace sp m).dec.srcLen = s.dec.srcLen ∧
      (s.setSpace sp m).dec.dstCap = s.dec.dstCap := by
  cases sp <;> exact ⟨rfl, rfl, rfl, rfl, rfl⟩

theorem State.space_setSpace (s : State) (sp sp' : SpaceName) (m : Memory) :
    (s.setSpace sp m).space sp' = if sp' = sp then m else s.space sp' := by
  cases sp <;> cases sp' <;> rfl

/-- A byte stored in one space is the only byte of any space that changes. -/
theorem State.byteAt_setSpace_write {s : State} {sp sp' : SpaceName} {a x : Nat}
    (w : (s.space sp').wf = true) (inside : a < (s.space sp).size) (v : Byte) (other : sp' = sp → x ≠ a) :
    ((s.setSpace sp ((s.space sp).write a v)).space sp').byteAt x = (s.space sp').byteAt x := by
  rw [State.space_setSpace]
  split
  next h =>
    subst h
    rw [Memory.byteAt_write w inside, if_neg (other rfl)]
  next => rfl

/-! ### What an act of the host can do -/

/-- What an act of the host can change: an idle engine or the header while ENC is idle, the units that
no command runs in, and a byte that no running command uses. -/
inductive HostChange (s : State) : State → Prop where
  | nothing : HostChange s s
  | hdr (h : Header) (idle : s.enc.busy = false) : HostChange s (s.setHdr h)
  | enc (e : EncEngine) (idle : s.enc.busy = false) : HostChange s (s.setEnc e)
  | dec (d : DecEngine) (idle : s.dec.busy = false) : HostChange s (s.setDec d)
  | he (u : HeUnit) : HostChange s (s.setHe u)
  | hd (u : HdUnit) : HostChange s (s.setHd u)
  | ms (n : Nat) : HostChange s (s.setMs n)
  | byte (sp : SpaceName) (a : Nat) (v : Byte) (inside : a < (s.space sp).size)
      (unread : ¬ s.ReadByACommand ((s.space sp).base + a))
      (unwritten : ¬ s.WrittenByACommand ((s.space sp).base + a)) :
      HostChange s (s.setSpace sp ((s.space sp).write a v))

theorem hostChange_of_issue {c : Command} {s t : State} (h : issueCommand c s = .next t) : HostChange s t := by
  obtain ⟨accepted, run⟩ := issueCommand_next h
  obtain ⟨idle, -⟩ := launchRefusal_none accepted
  cases c with
  | encodeHeader => obtain ⟨u, rfl⟩ := encodeHeader_setHe run; exact .he u
  | decodeHeader => obtain ⟨u, rfl⟩ := decodeHeader_setHd run; exact .hd u
  | maxSize => cases run; exact .ms _
  | encode => obtain ⟨e, rfl⟩ := encodeStart_setEnc run; exact .enc e idle
  | decode => cases (decodeStart_eq s).symm.trans run; exact .dec _ idle

theorem hostChange_of_give {sp : SpaceName} {base : Nat} {content : Content} {bytes : List Byte} {s t : State}
    (h : hostGive sp base content bytes s = .next t) : HostChange s t := by
  obtain ⟨idle, -, rfl⟩ := hostGive_next h
  cases sp with
  | encSrc | encDst => exact .enc _ idle
  | decSrc | decDst => exact .dec _ idle
  | heDst => exact .he _
  | hdSrc => exact .hd _

theorem anyMeet_singleton_append (x : Nat × Nat) (ys zs : List (Nat × Nat)) :
    anyMeet [x] (ys ++ zs) = (anyMeet [x] ys || anyMeet [x] zs) := by
  simp [anyMeet]

theorem hostChange_of_write {sp : SpaceName} {a : Nat} {v : Byte} {s t : State}
    (h : hostWrite sp a v s = .next t) : HostChange s t := by
  obtain ⟨inside, unused, rfl⟩ := hostWrite_next h
  rw [anyMeet_singleton_append, Bool.or_eq_false_iff] at unused
  obtain ⟨unread, unwritten⟩ := unused
  exact .byte sp a v inside (by simp [← meets_liveReads, unread]) (by simp [← meets_liveWrites, unwritten])

/-- All an act of the host can answer a next state with. -/
theorem hostChange_of_hostAct {op : HostOp} {s t : State} (h : hostAct op s = .next t) : HostChange s t := by
  cases op with
  | setHdr header => obtain ⟨idle, rfl⟩ := unlessBusy_next h; exact .hdr header idle
  | setEnc => obtain ⟨idle, rfl⟩ := unlessBusy_next h; exact .enc _ idle
  | setDec => obtain ⟨idle, rfl⟩ := unlessBusy_next h; exact .dec _ idle
  | setHd => cases h; exact .hd _
  | give => exact hostChange_of_give h
  | writeByte => exact hostChange_of_write h
  | readByte => cases hostRead_next h; exact .nothing
  | passStream =>
    obtain ⟨idle, rfl⟩ := unlessBusy_next h
    exact .dec _ (Bool.or_eq_false_iff.mp idle).2
  | issue => exact hostChange_of_issue h

/-! ### Inputs of a running command (R30; 20_memory.md R64 (a)) -/

/-- ENC's parameters are the same, and so is every source byte below its length. -/
abbrev State.EncInputsKept (s t : State) : Prop :=
  t.hdr = s.hdr ∧ t.enc.flip = s.enc.flip ∧ t.enc.srcLen = s.enc.srcLen ∧ t.enc.dstCap = s.enc.dstCap ∧
    (s.enc.src.wf = true → ∀ a, a < s.enc.srcLen → t.enc.src.byteAt a = s.enc.src.byteAt a)

/-- DEC's parameters are the same, and so is every source byte below its length. -/
abbrev State.DecInputsKept (s t : State) : Prop :=
  t.dec.width = s.dec.width ∧ t.dec.height = s.dec.height ∧ t.dec.channels = s.dec.channels ∧
    t.dec.srcLen = s.dec.srcLen ∧ t.dec.dstCap = s.dec.dstCap ∧
    (s.dec.src.wf = true → ∀ a, a < s.dec.srcLen → t.dec.src.byteAt a = s.dec.src.byteAt a)

theorem State.encInputsKept_of_sameInputs {s t : State} (hdr : t.hdr = s.hdr) (same : s.enc.SameInputs t.enc) :
    s.EncInputsKept t := by
  obtain ⟨flip, srcLen, dstCap, src⟩ := same
  exact ⟨hdr, flip, srcLen, dstCap, fun _ _ _ => by rw [src]⟩

theorem State.decInputsKept_of_sameInputs {s t : State} (same : s.dec.SameInputs t.dec) :
    s.DecInputsKept t := by
  obtain ⟨width, height, channels, srcLen, dstCap, src⟩ := same
  exact ⟨width, height, channels, srcLen, dstCap, fun _ _ _ => by rw [src]⟩

theorem State.encInputsKept_of_eq {s t : State} (hdr : t.hdr = s.hdr) (enc : t.enc = s.enc) :
    s.EncInputsKept t :=
  State.encInputsKept_of_sameInputs hdr (by rw [enc]; exact ⟨rfl, rfl, rfl, rfl⟩)

theorem State.decInputsKept_of_eq {s t : State} (dec : t.dec = s.dec) : s.DecInputsKept t :=
  State.decInputsKept_of_sameInputs (by rw [dec]; exact ⟨rfl, rfl, rfl, rfl, rfl, rfl⟩)

/-- The place of a source byte is read by the running command, so the host stores none there. -/
theorem encInputsKept_of_hostChange {s t : State} (busy : s.enc.busy = true) (h : HostChange s t) :
    s.EncInputsKept t := by
  cases h with
  | hdr _ idle | enc _ idle => simp [idle] at busy
  | nothing | dec | he | hd | ms => exact State.encInputsKept_of_eq rfl rfl
  | byte sp a v inside unread =>
    obtain ⟨flip, srcLen, dstCap⟩ := s.setSpace_enc_params sp ((s.space sp).write a v)
    refine ⟨s.setSpace_hdr .., flip, srcLen, dstCap, fun w x hx => ?_⟩
    refine State.byteAt_setSpace_write (sp' := .encSrc) w inside v ?_
    rintro rfl rfl
    exact unread (.inl ⟨busy, Nat.le_add_right .., Nat.add_lt_add_left hx _⟩)

theorem decInputsKept_of_hostChange {s t : State} (busy : s.dec.busy = true) (h : HostChange s t) :
    s.DecInputsKept t := by
  cases h with
  | dec _ idle => simp [idle] at busy
  | nothing | hdr | enc | he | hd | ms => exact State.decInputsKept_of_eq rfl
  | byte sp a v inside unread =>
    obtain ⟨width, height, channels, srcLen, dstCap⟩ := s.setSpace_dec_params sp ((s.space sp).write a v)
    refine ⟨width, height, channels, srcLen, dstCap, fun w x hx => ?_⟩
    refine State.byteAt_setSpace_write (sp' := .decSrc) w inside v ?_
    rintro rfl rfl
    exact unread (.inr ⟨busy, Nat.le_add_right .., Nat.add_lt_add_left hx _⟩)

/-- All a move of the host can answer a next state with: the act taken from the script, then done. -/
theorem hostStep_next {s t : State} (h : hostStep s = .next t) : ∃ script, HostChange (s.setScript script) t := by
  cases script : s.script with
  | nil =>
    cases (hostStep_of_script_nil script).symm.trans h
    exact ⟨s.script, .nothing⟩
  | cons op rest => exact ⟨rest, hostChange_of_hostAct ((hostStep_of_script_cons script).symm.trans h)⟩

theorem moveAgent_keeps_inputs {a : Agent} {s t : State} (h : moveAgent a s = .next t) :
    (s.enc.busy = true → s.EncInputsKept t) ∧ (s.dec.busy = true → s.DecInputsKept t) := by
  cases a with
  | host =>
    obtain ⟨script, change⟩ := hostStep_next h
    exact ⟨fun busy => encInputsKept_of_hostChange (s := s.setScript script) busy change,
      fun busy => decInputsKept_of_hostChange (s := s.setScript script) busy change⟩
  | enc =>
    obtain ⟨e, rfl, same⟩ := encodeStep_sameInputs h
    exact ⟨fun _ => State.encInputsKept_of_sameInputs rfl same, fun _ => State.decInputsKept_of_eq rfl⟩
  | dec =>
    obtain ⟨d, rfl, same⟩ := decodeStep_sameInputs h
    exact ⟨fun _ => State.encInputsKept_of_eq rfl rfl, fun _ => State.decInputsKept_of_sameInputs same⟩

/-- Settles O46: an engine's move keeps its inputs, and the host touches nothing that a command reads. -/
theorem runningInputsAreConstant : Obligations.RunningInputsAreConstant :=
  fun s _ h => moveAgent_keeps_inputs (s := s.popTurn) h

end Sys2Proof.Machine
end

section
/-! PROOFS. 20_memory.md: no access outside a space (R51), moves of the two engines (R63), running commands' spaces
apart (R64), the stream passed on (R65), and the host's use of its buffers (R50, R56, R64). -/

namespace Sys2Proof.Machine

/-! ### Moves of the two engines (R63) -/

/-- Settles O51: a move of an engine answers the state with that engine replaced. -/
theorem engineMovesStayInTheirEngine : Obligations.EngineMovesStayInTheirEngine := by
  refine ⟨fun s t h => ?enc, fun s t h => ?dec⟩
  case enc =>
    obtain ⟨e, rfl, -⟩ := encodeStep_sameInputs h
    exact ⟨rfl, rfl, rfl, rfl, rfl, rfl, rfl⟩
  case dec =>
    obtain ⟨d, rfl, -⟩ := decodeStep_sameInputs h
    exact ⟨rfl, rfl, rfl, rfl, rfl, rfl, rfl⟩

section engines
variable (s : State) (e : EncEngine) (d : DecEngine)

theorem encodeOnePixel_setDec :
    encodeOnePixel (s.setDec d) = mapNext (fun t => t.setDec d) (encodeOnePixel s) := by
  have fetch : (s.setDec d).encFetch = s.encFetch := rfl
  have choice : (s.setDec d).encChoice = s.encChoice := rfl
  simp only [encodeOnePixel, fetch, choice, State.setDec_enc]
  cases s.encFetch with
  | none => rfl
  | some px =>
    simp only
    cases (s.enc.consume px (s.encChoice px).2.1 (s.encChoice px).2.2).emit (encodeAll (s.encChoice px).1) <;> rfl

theorem encodeEnd_setDec : encodeEnd (s.setDec d) = mapNext (fun t => t.setDec d) (encodeEnd s) := by
  simp only [encodeEnd, State.setDec_enc]
  cases s.enc.emit endMarker <;> rfl

/-- A move of ENC neither reads nor changes DEC. -/
theorem encodeStep_setDec : encodeStep (s.setDec d) = mapNext (fun t => t.setDec d) (encodeStep s) := by
  simp only [encodeStep, State.setDec_enc, encodeOnePixel_setDec, encodeEnd_setDec, apply_ite (mapNext _)]
  rfl

theorem storePixel_setEnc : storePixel (s.setEnc e) = mapNext (fun t => t.setEnc e) (storePixel s) := by
  simp only [storePixel, State.setEnc_dec]
  cases s.dec.dst.store s.dec.dstCap s.dec.slotAddress (pixelBytes s.dec.channels s.dec.px) <;> rfl

theorem thenStore_execFetched_setEnc :
    thenStore (execFetched (s.setEnc e)) = mapNext (fun t => t.setEnc e) (thenStore (execFetched s)) := by
  simp only [execFetched, State.setEnc_dec]
  cases s.dec.fetch with
  | error f => rfl
  | ok i =>
    simp only [exec_eq, thenStore]
    exact storePixel_setEnc (s.setDec (decAfter i s.dec)) e

theorem decodeOnePixel_setEnc :
    decodeOnePixel (s.setEnc e) = mapNext (fun t => t.setEnc e) (decodeOnePixel s) := by
  have run : storePixel (runPath (s.setEnc e)) = mapNext (fun t => t.setEnc e) (storePixel (runPath s)) :=
    storePixel_setEnc (runPath s) e
  simp only [decodeOnePixel, State.setEnc_dec, run, thenStore_execFetched_setEnc, apply_ite (mapNext _)]
  rfl

/-- A move of DEC neither reads nor changes ENC. -/
theorem decodeStep_setEnc : decodeStep (s.setEnc e) = mapNext (fun t => t.setEnc e) (decodeStep s) := by
  simp only [decodeStep, State.setEnc_dec, decodeOnePixel_setEnc, apply_ite (mapNext _)]
  rfl

end engines

/-- Settles O52: each engine's move is the same with the other engine replaced, and both orders replace both. -/
theorem engineMovesCommute : Obligations.EngineMovesCommute := by
  intro s t u enc dec
  obtain ⟨e, rfl, -⟩ := encodeStep_sameInputs enc
  obtain ⟨d, rfl, -⟩ := decodeStep_sameInputs dec
  refine ⟨(s.setDec d).setEnc e, ?encFirst, ?decFirst⟩
  case encFirst => rw [decodeStep_setEnc, dec]; rfl
  case decFirst => rw [encodeStep_setDec, enc]; rfl

/-! ### The stream passed on (R65) -/

/-- Settles O50: with both engines idle DEC's source becomes the first `ENC.out_len` bytes of ENC's destination. -/
theorem passedStreamIsTheEncodersOutput : Obligations.PassedStreamIsTheEncodersOutput := by
  refine ⟨fun s busy => ?refused, fun s w lengthTrue encIdle decIdle => ?passed⟩
  case refused => exact (unlessBusy_done_and_refused _ _).2 (by simpa using busy)
  case passed =>
    refine ⟨passStream s, (unlessBusy_done_and_refused _ _).1 (by simp [encIdle, decIdle]), rfl,
      Nat.min_eq_left lengthTrue, rfl, rfl, Memory.wf_firstBytes w _, fun a inside => ?_⟩
    exact (Memory.byteAt_firstBytes _ _ _).trans (if_pos inside)

/-! ### The host's use of its buffers (R50, R56, R64) -/

theorem meets_liveReads_append_liveWrites (s : State) (x : Nat) :
    anyMeet [(x, 1)] (s.liveReads ++ s.liveWrites) = true ↔ s.ReadByACommand x ∨ s.WrittenByACommand x := by
  rw [anyMeet_singleton_append, Bool.or_eq_true, meets_liveReads, meets_liveWrites]

section acts
variable {s : State} {sp : SpaceName}

theorem hostGive_of_inCommand (inCommand : s.InCommand sp) (base : Nat) (content : Content) (bytes : List Byte) :
    hostGive sp base content bytes s = .refused .changedDuringCommand := by
  rw [← spaceBusy_iff] at inCommand
  simp [hostGive, inCommand]

theorem hostGive_of_free (free : ¬ s.InCommand sp) (base : Nat) (content : Content) (bytes : List Byte) :
    hostGive sp base content bytes s =
      if s.disturbs base bytes then .refused (.touchedDuringCommand sp)
      else .next (s.setSpace sp (Memory.ofBytes base content bytes)) := by
  rw [← spaceBusy_iff] at free
  simp [hostGive, free]

theorem hostWrite_of_outside {a : Nat} (outside : (s.space sp).size ≤ a) (v : Byte) :
    hostWrite sp a v s = .refused (.outsideBuffer sp) :=
  if_pos outside

theorem hostWrite_of_inside {a : Nat} (inside : a < (s.space sp).size) (v : Byte) :
    hostWrite sp a v s =
      if anyMeet [((s.space sp).base + a, 1)] (s.liveReads ++ s.liveWrites) then
        .refused (.touchedDuringCommand sp)
      else .next (s.setSpace sp ((s.space sp).write a v)) :=
  if_neg (Nat.not_le.mpr inside)

theorem hostRead_of_outside {a : Nat} (outside : (s.space sp).size ≤ a) :
    hostRead sp a s = .refused (.outsideBuffer sp) :=
  if_pos outside

theorem hostRead_of_inside {a : Nat} (inside : a < (s.space sp).size) :
    hostRead sp a s =
      if anyMeet [((s.space sp).base + a, 1)] s.liveWrites then .refused (.touchedDuringCommand sp)
      else .next s :=
  if_neg (Nat.not_le.mpr inside)

end acts

/-- A buffer handed over holds exactly its bytes. -/
theorem Memory.ofBytes_holdsAt (base : Nat) (content : Content) (bytes : List Byte) :
    (Memory.ofBytes base content bytes).HoldsAt 0 bytes := by
  intro j _
  rw [Nat.zero_add]
  exact Memory.byteAt_ofBytes base content bytes j

theorem Memory.write_sameOutside {m : Memory} (w : m.wf = true) {a : Nat} (inside : a < m.size) (v : Byte) :
    m.SameOutside (m.write a v) a 1 := by
  refine ⟨m.write_base a v, m.write_content a v, m.write_size a v, fun x other => ?_⟩
  rw [Memory.byteAt_write w inside, if_neg (by omega)]

/-- Settles O59: each act by whether it is in a command or past the buffer, then by whether a running command
uses a place it touches. -/
theorem hostUsesBuffers : Obligations.HostUsesBuffers := by
  refine ⟨fun s sp base content bytes =>
      ⟨fun inCommand => ?inCommand, fun free used => ?giveUsed, fun free unused => ?give⟩,
    fun s sp a v =>
      ⟨fun outside => ?writeOutside, fun inside used => ?writeUsed,
        fun inside w unread unwritten => ?write⟩,
    fun s sp a =>
      ⟨fun outside => ?readOutside, fun inside used => ?readUsed, fun inside unwritten => ?read⟩⟩
  case inCommand => exact hostGive_of_inCommand inCommand base content bytes
  case giveUsed =>
    exact (hostGive_of_free free base content bytes).trans (if_pos ((disturbs_iff s base bytes).mpr used))
  case give =>
    have undisturbed : ¬ s.disturbs base bytes = true := by
      rw [disturbs_iff]
      rintro ⟨j, hj, written | otherRead⟩
      · exact (unused j hj).1 written
      · exact (unused j hj).2 otherRead
    exact ⟨_, (hostGive_of_free free base content bytes).trans (if_neg undisturbed), rfl, rfl, rfl,
      Memory.wf_ofBytes base content bytes, Memory.ofBytes_holdsAt base content bytes⟩
  case writeOutside => exact hostWrite_of_outside outside v
  case writeUsed =>
    exact (hostWrite_of_inside inside v).trans (if_pos ((meets_liveReads_append_liveWrites s _).mpr used))
  case write =>
    have unused := mt (meets_liveReads_append_liveWrites s ((s.space sp).base + a)).mp (not_or_intro unread unwritten)
    exact ⟨_, (hostWrite_of_inside inside v).trans (if_neg unused), Memory.wf_write w a v,
      (Memory.byteAt_write w inside v a).trans (if_pos rfl), Memory.write_sameOutside w inside v⟩
  case readOutside => exact hostRead_of_outside outside
  case readUsed => exact (hostRead_of_inside inside).trans (if_pos ((meets_liveWrites s _).mpr used))
  case read => exact (hostRead_of_inside inside).trans (if_neg (mt (meets_liveWrites s _).mp unwritten))

/-! ### Running commands' spaces apart (R64) -/

/-- Every command that runs after a move ran before it, and uses the same extents. -/
abbrev State.RunningExtentsKept (s t : State) : Prop :=
  (t.enc.busy = true → s.enc.busy = true ∧
    t.enc.src.extent t.enc.srcLen = s.enc.src.extent s.enc.srcLen ∧
    t.enc.dst.extent t.enc.dstCap = s.enc.dst.extent s.enc.dstCap) ∧
  (t.dec.busy = true → s.dec.busy = true ∧
    t.dec.src.extent t.dec.srcLen = s.dec.src.extent s.dec.srcLen ∧
    t.dec.dst.extent t.dec.dstCap = s.dec.dst.extent s.dec.dstCap)

theorem spacesApart_of_runningExtentsKept {s t : State} (kept : s.RunningExtentsKept t) (apart : s.SpacesApart) :
    t.SpacesApart := by
  obtain ⟨keptEnc, keptDec⟩ := kept
  obtain ⟨apartEnc, apartDec, apartBoth⟩ := apart
  refine ⟨fun enc => ?enc, fun dec => ?dec, fun enc dec => ?both⟩
  case enc =>
    obtain ⟨enc, src, dst⟩ := keptEnc enc
    rw [src, dst]
    exact apartEnc enc
  case dec =>
    obtain ⟨dec, src, dst⟩ := keptDec dec
    rw [src, dst]
    exact apartDec dec
  case both =>
    obtain ⟨enc, encSrc, encDst⟩ := keptEnc enc
    obtain ⟨dec, decSrc, decDst⟩ := keptDec dec
    rw [encSrc, encDst, decSrc, decDst]
    exact apartBoth enc dec

theorem Memory.extent_congr {m m' : Memory} (base : m.base = m'.base) (len : Nat) : m.extent len = m'.extent len :=
  congrArg (·, len) base

/-! #### Moves of the engines -/

theorem EncEngine.emit_place {e e' : EncEngine} {bytes : List Byte} (h : e.emit bytes = some e') :
    e'.busy = e.busy ∧ e'.dst.base = e.dst.base := by
  obtain ⟨-, -, rfl⟩ := EncEngine.emit_some h
  exact ⟨rfl, e.dst.writeList_base e.o bytes⟩

/-- An ENC that runs after its move ran before it, with its destination in the same place. -/
theorem encodeStep_place {s t : State} (h : encodeStep s = .next t) (busy : t.enc.busy = true) :
    s.enc.busy = true ∧ t.enc.dst.base = s.enc.dst.base := by
  obtain ⟨-, rfl⟩ | ⟨running, -, pixel⟩ | ⟨-, -, tail⟩ := encodeStep_next h
  · exact ⟨busy, rfl⟩
  · obtain ⟨px, e, -, emitted, rfl⟩ := encodeOnePixel_next pixel
    obtain ⟨-, base⟩ := EncEngine.emit_place emitted
    exact ⟨running, base⟩
  · obtain ⟨e, -, rfl⟩ := encodeEnd_next tail
    cases busy

theorem encodeStep_keeps_extents {s t : State} (h : encodeStep s = .next t) : s.RunningExtentsKept t := by
  refine ⟨fun busy => ?enc, ?dec⟩
  case enc =>
    obtain ⟨running, base⟩ := encodeStep_place h busy
    obtain ⟨e, rfl, -, srcLen, dstCap, src⟩ := encodeStep_sameInputs h
    rw [State.setEnc_enc, src, srcLen, dstCap]
    exact ⟨running, rfl, Memory.extent_congr base _⟩
  case dec =>
    obtain ⟨e, rfl, -⟩ := encodeStep_sameInputs h
    exact fun busy => ⟨busy, rfl, rfl⟩

theorem storePixel_place {s t : State} (h : storePixel s = .next t) : t.dec.dst.base = s.dec.dst.base := by
  obtain ⟨-, -, rfl⟩ := storePixel_next h
  exact s.dec.dst.writeList_base _ _

theorem decAfter_dst (i : Instr) (d : DecEngine) : (decAfter i d).dst = d.dst := by
  cases i <;> rfl

/-- A DEC that runs after its move ran before it, with its destination in the same place. -/
theorem decodeStep_place {s t : State} (h : decodeStep s = .next t) (busy : t.dec.busy = true) :
    s.dec.busy = true ∧ t.dec.dst.base = s.dec.dst.base := by
  obtain ⟨-, rfl⟩ | ⟨running, -, slot⟩ | ⟨-, -, rfl⟩ := decodeStep_next h
  · exact ⟨busy, rfl⟩
  · obtain ⟨-, stored⟩ | ⟨-, -, i, -, stored⟩ | ⟨-, -, rfl⟩ := decodeOnePixel_next slot
    · exact ⟨running, storePixel_place (s := runPath s) stored⟩
    · exact ⟨running, (storePixel_place stored).trans (congrArg Memory.base (decAfter_dst i s.dec))⟩
    · cases busy
  · cases busy

theorem decodeStep_keeps_extents {s t : State} (h : decodeStep s = .next t) : s.RunningExtentsKept t := by
  refine ⟨?enc, fun busy => ?dec⟩
  case enc =>
    obtain ⟨d, rfl, -⟩ := decodeStep_sameInputs h
    exact fun busy => ⟨busy, rfl, rfl⟩
  case dec =>
    obtain ⟨running, base⟩ := decodeStep_place h busy
    obtain ⟨d, rfl, -, -, -, srcLen, dstCap, src⟩ := decodeStep_sameInputs h
    rw [State.setDec_dec, src, srcLen, dstCap]
    exact ⟨running, rfl, Memory.extent_congr base _⟩

/-! #### Acts of the host that start no engine -/

theorem setSpace_keeps_extents (s : State) (sp : SpaceName) {m : Memory} (base : m.base = (s.space sp).base) :
    s.RunningExtentsKept (s.setSpace sp m) := by
  cases sp with
  | encSrc => exact ⟨fun busy => ⟨busy, Memory.extent_congr base _, rfl⟩, fun busy => ⟨busy, rfl, rfl⟩⟩
  | encDst => exact ⟨fun busy => ⟨busy, rfl, Memory.extent_congr base _⟩, fun busy => ⟨busy, rfl, rfl⟩⟩
  | decSrc => exact ⟨fun busy => ⟨busy, rfl, rfl⟩, fun busy => ⟨busy, Memory.extent_congr base _, rfl⟩⟩
  | decDst => exact ⟨fun busy => ⟨busy, rfl, rfl⟩, fun busy => ⟨busy, rfl, Memory.extent_congr base _⟩⟩
  | heDst | hdSrc => exact ⟨fun busy => ⟨busy, rfl, rfl⟩, fun busy => ⟨busy, rfl, rfl⟩⟩

theorem hostChange_keeps_extents {s t : State} (change : HostChange s t) (enc : t.enc.busy = s.enc.busy)
    (dec : t.dec.busy = s.dec.busy) : s.RunningExtentsKept t := by
  cases change with
  | nothing | hdr | he | hd | ms => exact ⟨fun busy => ⟨busy, rfl, rfl⟩, fun busy => ⟨busy, rfl, rfl⟩⟩
  | enc e idle => exact ⟨fun busy => absurd (enc ▸ busy) (by simp [idle]), fun busy => ⟨busy, rfl, rfl⟩⟩
  | dec d idle => exact ⟨fun busy => ⟨busy, rfl, rfl⟩, fun busy => absurd (dec ▸ busy) (by simp [idle])⟩
  | byte sp a v => exact setSpace_keeps_extents s sp ((s.space sp).write_base a v)

theorem State.setSpace_busy (s : State) (sp : SpaceName) (m : Memory) :
    (s.setSpace sp m).enc.busy = s.enc.busy ∧ (s.setSpace sp m).dec.busy = s.dec.busy := by
  cases sp <;> exact ⟨rfl, rfl⟩

/-- Only issuing ENCODE or DECODE starts an engine, and no act of the host ends its command. -/
theorem hostAct_busy {op : HostOp} {s t : State} (h : hostAct op s = .next t) (notEncode : op ≠ .issue .encode)
    (notDecode : op ≠ .issue .decode) : t.enc.busy = s.enc.busy ∧ t.dec.busy = s.dec.busy := by
  cases op with
  | setHdr | setEnc | setDec | passStream =>
    obtain ⟨-, rfl⟩ := unlessBusy_next h
    exact ⟨rfl, rfl⟩
  | setHd => cases h; exact ⟨rfl, rfl⟩
  | give sp =>
    obtain ⟨-, -, rfl⟩ := hostGive_next h
    exact s.setSpace_busy sp _
  | writeByte sp =>
    obtain ⟨-, -, rfl⟩ := hostWrite_next h
    exact s.setSpace_busy sp _
  | readByte => cases hostRead_next h; exact ⟨rfl, rfl⟩
  | issue c =>
    obtain ⟨-, run⟩ := issueCommand_next h
    cases c with
    | encodeHeader => obtain ⟨u, rfl⟩ := encodeHeader_setHe run; exact ⟨rfl, rfl⟩
    | decodeHeader => obtain ⟨u, rfl⟩ := decodeHeader_setHd run; exact ⟨rfl, rfl⟩
    | maxSize => cases run; exact ⟨rfl, rfl⟩
    | encode => exact absurd rfl notEncode
    | decode => exact absurd rfl notDecode

/-! #### Launches -/

theorem extentsMeet_comm (x y : Nat × Nat) : extentsMeet x y = extentsMeet y x := by
  rw [Bool.eq_iff_iff]
  simp only [extentsMeet, Bool.and_eq_true, decide_eq_true_iff]
  tauto

theorem anyMeet_eq_false_iff (xs ys : List (Nat × Nat)) :
    anyMeet xs ys = false ↔ ∀ x ∈ xs, ∀ y ∈ ys, extentsMeet x y = false := by
  simp [anyMeet]

/-- 20_memory.md R64 (c), extent by extent. -/
theorem State.independent_iff (s : State) (reads writes : List (Nat × Nat)) :
    s.independent reads writes = true ↔
      (∀ x ∈ reads, ∀ y ∈ writes ++ s.liveWrites, extentsMeet x y = false) ∧
        ∀ x ∈ writes, ∀ y ∈ s.liveReads ++ s.liveWrites, extentsMeet x y = false := by
  simp only [State.independent, Bool.and_eq_true, Bool.not_eq_true', anyMeet_eq_false_iff]

/-- A launch of ENCODE fails, or ENC runs with the extents it was launched with. -/
theorem encodeStart_extents {s t : State} (h : encodeStart s = .next t) (busy : t.enc.busy = true) :
    t.enc.src.extent t.enc.srcLen = s.enc.src.extent s.enc.srcLen ∧
      t.enc.dst.extent t.enc.dstCap = s.enc.dst.extent s.enc.dstCap := by
  cases check : encodeCheck s.hdr s.enc.srcLen s.enc.dstCap with
  | some c =>
    cases (encodeStart_of_failed check).symm.trans h
    cases busy
  | none =>
    simp only [encodeStart, check] at h
    split at h
    next e emitted =>
      cases h
      obtain ⟨-, srcLen, dstCap, src⟩ := EncEngine.emit_sameInputs emitted
      obtain ⟨-, base⟩ := EncEngine.emit_place emitted
      rw [State.setEnc_enc, src, srcLen, dstCap]
      exact ⟨rfl, Memory.extent_congr base _⟩
    · cases h

/-- A launch of DECODE fails, or DEC runs with the extents it was launched with. -/
theorem DecEngine.launched_extents {d : DecEngine} (busy : d.launched.busy = true) :
    d.launched.src.extent d.launched.srcLen = d.src.extent d.srcLen ∧
      d.launched.dst.extent d.launched.dstCap = d.dst.extent d.dstCap := by
  unfold DecEngine.launched at busy ⊢
  split at busy
  · cases busy
  · exact ⟨rfl, rfl⟩

theorem encodeLaunch_keeps_spacesApart {s t : State} (h : issueCommand .encode s = .next t)
    (apart : s.SpacesApart) : t.SpacesApart := by
  obtain ⟨accepted, run⟩ := issueCommand_next h
  obtain ⟨-, -, -, independent⟩ := launchRefusal_none accepted
  obtain ⟨reads, writes⟩ := (s.independent_iff _ _).mp independent
  obtain ⟨-, apartDec, -⟩ := apart
  have extents := encodeStart_extents run
  obtain ⟨e, rfl⟩ := encodeStart_setEnc run
  refine ⟨fun enc => ?enc, apartDec, fun enc dec => ?both⟩
  case enc =>
    obtain ⟨src, dst⟩ := extents enc
    rw [src, dst]
    exact reads _ (by simp [State.readsOf]) _ (by simp [State.writesOf])
  case both =>
    obtain ⟨src, dst⟩ := extents enc
    rw [State.setEnc_dec] at dec ⊢
    rw [src, dst]
    exact ⟨writes _ (by simp [State.writesOf]) _ (by simp [State.liveReads, dec]),
      writes _ (by simp [State.writesOf]) _ (by simp [State.liveWrites, dec]),
      reads _ (by simp [State.readsOf]) _ (by simp [State.liveWrites, dec])⟩

theorem decodeLaunch_keeps_spacesApart {s t : State} (h : issueCommand .decode s = .next t)
    (apart : s.SpacesApart) : t.SpacesApart := by
  obtain ⟨accepted, run⟩ := issueCommand_next h
  obtain ⟨-, -, -, independent⟩ := launchRefusal_none accepted
  obtain ⟨reads, writes⟩ := (s.independent_iff _ _).mp independent
  obtain ⟨apartEnc, -, -⟩ := apart
  cases (decodeStart_eq s).symm.trans run
  refine ⟨apartEnc, fun dec => ?dec, fun enc dec => ?both⟩
  case dec =>
    obtain ⟨src, dst⟩ := DecEngine.launched_extents dec
    rw [State.setDec_dec, src, dst]
    exact reads _ (by simp [State.readsOf]) _ (by simp [State.writesOf])
  case both =>
    obtain ⟨src, dst⟩ := DecEngine.launched_extents dec
    rw [State.setDec_enc] at enc ⊢
    rw [State.setDec_dec, src, dst]
    simp only [extentsMeet_comm (s.enc.dst.extent _), extentsMeet_comm (s.enc.src.extent _)]
    exact ⟨reads _ (by simp [State.readsOf]) _ (by simp [State.liveWrites, enc]),
      writes _ (by simp [State.writesOf]) _ (by simp [State.liveWrites, enc]),
      writes _ (by simp [State.writesOf]) _ (by simp [State.liveReads, enc])⟩

theorem hostAct_keeps_spacesApart {op : HostOp} {s t : State} (h : hostAct op s = .next t)
    (apart : s.SpacesApart) : t.SpacesApart := by
  by_cases encode : op = .issue .encode
  · subst encode
    exact encodeLaunch_keeps_spacesApart h apart
  by_cases decode : op = .issue .decode
  · subst decode
    exact decodeLaunch_keeps_spacesApart h apart
  obtain ⟨enc, dec⟩ := hostAct_busy h encode decode
  exact spacesApart_of_runningExtentsKept (hostChange_keeps_extents (hostChange_of_hostAct h) enc dec) apart

theorem hostStep_keeps_spacesApart {s t : State} (h : hostStep s = .next t) (apart : s.SpacesApart) :
    t.SpacesApart := by
  cases script : s.script with
  | nil =>
    cases (hostStep_of_script_nil script).symm.trans h
    exact apart
  | cons op rest =>
    exact hostAct_keeps_spacesApart (s := s.setScript rest) ((hostStep_of_script_cons script).symm.trans h) apart

theorem moveAgent_keeps_spacesApart {a : Agent} {s t : State} (h : moveAgent a s = .next t)
    (apart : s.SpacesApart) : t.SpacesApart := by
  cases a with
  | host => exact hostStep_keeps_spacesApart h apart
  | enc => exact spacesApart_of_runningExtentsKept (encodeStep_keeps_extents h) apart
  | dec => exact spacesApart_of_runningExtentsKept (decodeStep_keeps_extents h) apart

/-- Settles O45: only a launch adds a running command, and only one independent of those that run. -/
theorem runningSpacesStayApart : Obligations.RunningSpacesStayApart :=
  fun s _ apart h => moveAgent_keeps_spacesApart (s := s.popTurn) h apart

/-! ### No access outside a space (R51) -/

theorem isFault_of_next {x : Host.Outcome State Fault Refusal} {t : State} (h : x = .next t) : isFault x = false := by
  rw [h]
  rfl

theorem unlessBusy_no_fault (busy : Bool) (t : State) : isFault (unlessBusy busy t) = false := by
  cases busy <;> rfl

/-! #### The checks passed -/

theorem encodeCheck_none_iff (h : Header) (srcLen dstCap : Nat) :
    encodeCheck h srcLen dstCap = none ↔ hdrValid h = true ∧ rawLength h.width h.height h.channels ≤ srcLen ∧
      worstCaseLength h.width h.height h.channels ≤ dstCap := by
  unfold encodeCheck
  split_ifs <;> simp_all

theorem decodeCheck_none_iff (width height : Word) (channels : Byte) (srcLen dstCap : Nat) :
    decodeCheck width height channels srcLen dstCap = none ↔ minStreamLen ≤ srcLen ∧
      dimsValid width height = true ∧ channelsValid channels = true ∧
      rawLength width height channels ≤ dstCap := by
  unfold decodeCheck
  split_ifs <;> simp_all

/-- Duty 4 of 70_reset_and_hazards.md R252: no length is above the size of its buffer. -/
theorem firstUntrue_none_iff (lengths : List (SpaceName × Nat × Nat)) :
    firstUntrue lengths = none ↔ ∀ entry ∈ lengths, entry.2.1 ≤ entry.2.2 := by
  induction lengths with
  | nil => simp [firstUntrue]
  | cons entry rest ih =>
    simp only [firstUntrue, List.forall_mem_cons, ← ih]
    split <;> simp_all

/-! #### The encoder -/

theorem sourceRow_lt {h : Header} {y : Nat} (flip : Bool) (row : y < h.height.toNat) :
    sourceRow h flip y < h.height.toNat := by
  unfold sourceRow
  split <;> omega

/-- The scan stays inside the raw buffer (42_opcode_encoder.md R143, R157). -/
theorem sourceAddress_add_channels_le {h : Header} {i : Nat} (flip : Bool)
    (inside : i < pixelCount h.width h.height) :
    sourceAddress h flip i + h.channels.toNat ≤ rawLength h.width h.height h.channels := by
  have width : 0 < h.width.toNat := Nat.pos_of_mul_pos_right (Nat.zero_lt_of_lt inside)
  have column : i % h.width.toNat < h.width.toNat := Nat.mod_lt _ width
  have row := sourceRow_lt flip (Nat.div_lt_of_lt_mul inside : i / h.width.toNat < h.height.toNat)
  have pixel : sourceRow h flip (i / h.width.toNat) * h.width.toNat + i % h.width.toNat + 1 ≤
      pixelCount h.width h.height :=
    calc sourceRow h flip (i / h.width.toNat) * h.width.toNat + i % h.width.toNat + 1
        ≤ (sourceRow h flip (i / h.width.toNat) + 1) * h.width.toNat := by rw [Nat.succ_mul]; omega
      _ ≤ h.height.toNat * h.width.toNat := Nat.mul_le_mul_right _ row
      _ = pixelCount h.width h.height := Nat.mul_comm _ _
  calc sourceAddress h flip i + h.channels.toNat
      = (sourceRow h flip (i / h.width.toNat) * h.width.toNat + i % h.width.toNat + 1) * h.channels.toNat :=
        (Nat.succ_mul _ _).symm
    _ ≤ rawLength h.width h.height h.channels := Nat.mul_le_mul_right _ pixel

/-- A running ENC with a pixel left finds it in its source. -/
theorem encFetch_of_encRunning {s : State} (running : EncRunning s.hdr s.enc) (busy : s.enc.busy = true)
    (left : s.enc.i < s.encPixels) : ∃ px, s.encFetch = some px := by
  obtain ⟨check, srcTrue, -⟩ := running busy
  obtain ⟨valid, raw, -⟩ := (encodeCheck_none_iff _ _ _).mp check
  obtain ⟨-, channels, -⟩ := (hdrValid_iff _).mp valid
  have inside := sourceAddress_add_channels_le s.enc.flip left
  rw [← pixelWidth_eq channels] at inside
  have covers : s.enc.src.covers s.enc.srcLen (sourceAddress s.hdr s.enc.flip s.enc.i)
      (pixelWidth s.hdr.channels) = true := by
    simp only [Memory.covers, Bool.and_eq_true, decide_eq_true_iff]
    omega
  exact ⟨_, if_pos covers⟩

/-- 42_opcode_encoder.md R143: without four channels alpha is 255. -/
theorem encFetch_alpha {s : State} {px : Pixel} (fetched : s.encFetch = some px) (channels : s.hdr.channels ≠ 4#8) :
    px.a = 255#8 := by
  unfold State.encFetch fetchPixel at fetched
  split at fetched
  · cases fetched
    rfl
  · cases fetched

/-- 42_opcode_encoder.md R159: only with four channels does the alpha of a step's pixel change. -/
theorem alpha_of_encRunning {s : State} {px : Pixel} (running : EncRunning s.hdr s.enc) (busy : s.enc.busy = true)
    (fetched : s.encFetch = some px) (changed : px.a ≠ s.enc.prev.a) : s.hdr.channels = 4#8 := by
  obtain ⟨check, -, -, -, -, -, -, -, alpha⟩ := running busy
  obtain ⟨valid, -⟩ := (encodeCheck_none_iff _ _ _).mp check
  obtain ⟨-, channels, -⟩ := (hdrValid_iff _).mp valid
  obtain three | four := (channelsValid_iff _).mp channels
  · have px255 := encFetch_alpha fetched (by rw [three]; decide)
    exact absurd (px255.trans (alpha three).symm) changed
  · exact four

/-- 42_opcode_encoder.md R157: a pixel's opcode has at most one byte more than its channels. -/
theorem length_chooseOpcode_le {prev px : Pixel} {cache : Cache} {channels : Nat} (three : 3 ≤ channels)
    (alpha : px.a ≠ prev.a → 4 ≤ channels) :
    (encode (chooseOpcode prev cache px).1).length ≤ channels + 1 := by
  unfold chooseOpcode chooseOnMiss chooseByDeltas
  split_ifs with hit changed
  · simp [encode]
  · have four := alpha changed
    simpa [encode] using four
  all_goals simp only [encode, List.length_cons, List.length_nil]; omega

theorem length_flushRun_le (run : BitVec 6) : (encodeAll (flushRun run)).length ≤ run.toNat := by
  unfold flushRun
  split
  next none => simp [encodeAll]
  next pending =>
    have positive : run.toNat ≠ 0 := fun zero => pending (BitVec.eq_of_toNat_eq zero)
    simp only [encodeAll, List.flatMap_cons, List.flatMap_nil, encode, List.append_nil, List.length_singleton]
    omega

theorem length_encodeAll_concat (ops : List Instr) (op : Instr) :
    (encodeAll (ops ++ [op])).length = (encodeAll ops).length + (encode op).length := by
  simp [encodeAll]

/-- The bytes of a step, and `channels + 1` for each pixel of the run it leaves, are at most what the run before it
and its own pixel stood for: the step of 42_opcode_encoder.md R157. -/
theorem length_encodePixel_le {prev px : Pixel} {run : BitVec 6} {cache : Cache} {last : Bool} {channels : Nat}
    (three : 3 ≤ channels) (alpha : px.a ≠ prev.a → 4 ≤ channels) (runLe : run.toNat ≤ 61) :
    (encodeAll (encodePixel prev run cache last px).1).length +
        (encodePixel prev run cache last px).2.1.toNat * (channels + 1) ≤ (run.toNat + 1) * (channels + 1) := by
  unfold encodePixel
  split_ifs with same ends
  · have one : 1 ≤ (run.toNat + 1) * (channels + 1) := Nat.mul_pos (Nat.succ_pos _) (Nat.succ_pos _)
    simpa [encodeAll, encode] using one
  · have counted : (run + 1#6).toNat = run.toNat + 1 := by
      rw [BitVec.toNat_add]
      exact Nat.mod_eq_of_lt (by simp; omega)
    simp [encodeAll, counted]
  · have flush : (encodeAll (flushRun run)).length ≤ run.toNat * (channels + 1) :=
      (length_flushRun_le run).trans (Nat.le_mul_of_pos_right _ (Nat.succ_pos _))
    have opcode := length_chooseOpcode_le (cache := cache) three alpha
    calc (encodeAll (flushRun run ++ [(chooseOpcode prev cache px).1])).length + (0#6).toNat * (channels + 1)
        = (encodeAll (flushRun run)).length + (encode (chooseOpcode prev cache px).1).length := by
          simp [length_encodeAll_concat]
      _ ≤ run.toNat * (channels + 1) + (channels + 1) := Nat.add_le_add flush opcode
      _ = (run.toNat + 1) * (channels + 1) := (Nat.succ_mul _ _).symm

/-- 42_opcode_encoder.md R157, for one step: its bytes leave at least the tail's 8 below the capacity. -/
theorem emit_room_of_encRunning {s : State} {px : Pixel} (running : EncRunning s.hdr s.enc)
    (busy : s.enc.busy = true) (left : s.enc.i < s.encPixels) (fetched : s.encFetch = some px) :
    s.enc.o + (encodeAll (s.encChoice px).1).length + 8 ≤ s.enc.dstCap := by
  have alpha := alpha_of_encRunning running busy fetched
  obtain ⟨check, -, -, -, runLe, -, bound, -, -⟩ := running busy
  obtain ⟨valid, -, capacity⟩ := (encodeCheck_none_iff _ _ _).mp check
  obtain ⟨-, channels, -⟩ := (hdrValid_iff _).mp valid
  have three : 3 ≤ s.hdr.channels.toNat := by
    obtain h | h := (channelsValid_iff _).mp channels <;> simp [h]
  have step := length_encodePixel_le (prev := s.enc.prev) (px := px) (cache := s.enc.cache)
    (last := s.enc.i + 1 == s.encPixels) three (fun changed => by simp [alpha changed]) runLe
  have pixels : (s.enc.i + 1) * (s.hdr.channels.toNat + 1) ≤ s.encPixels * (s.hdr.channels.toNat + 1) :=
    Nat.mul_le_mul_right _ left
  rw [Nat.succ_mul] at step pixels
  simp only [worstCaseLength, minStreamLen] at capacity
  simp only [State.encPixels, State.encChoice] at pixels step ⊢
  omega

/-- After the last pixel the tail's 8 bytes are left (42_opcode_encoder.md R157). -/
theorem tail_room_of_encRunning {s : State} (running : EncRunning s.hdr s.enc) (busy : s.enc.busy = true)
    (done : s.encPixels ≤ s.enc.i) : s.enc.o + 8 ≤ s.enc.dstCap := by
  obtain ⟨check, -, -, iLe, -, -, bound, -, -⟩ := running busy
  obtain ⟨-, -, capacity⟩ := (encodeCheck_none_iff _ _ _).mp check
  have last : s.enc.i = pixelCount s.hdr.width s.hdr.height := le_antisymm iLe done
  simp only [worstCaseLength, minStreamLen] at capacity
  rw [last] at bound
  omega

theorem dstCap_le_of_encRunning {h : Header} {e : EncEngine} (running : EncRunning h e) (busy : e.busy = true) :
    e.dstCap ≤ e.dst.size := by
  obtain ⟨-, -, dstTrue, -⟩ := running busy
  exact dstTrue

theorem encodeOnePixel_answers {s : State} (running : EncRunning s.hdr s.enc) (busy : s.enc.busy = true)
    (left : s.enc.i < s.encPixels) : ∃ t, encodeOnePixel s = .next t := by
  obtain ⟨px, fetched⟩ := encFetch_of_encRunning running busy left
  have room := emit_room_of_encRunning running busy left fetched
  have dstTrue := dstCap_le_of_encRunning running busy
  have emitted := EncEngine.emit_inside
    (e := s.enc.consume px (s.encChoice px).2.1 (s.encChoice px).2.2) (bs := encodeAll (s.encChoice px).1)
    (by simp only [EncEngine.consume_o, EncEngine.consume_dstCap]; omega)
    (by simp only [EncEngine.consume_o, EncEngine.consume_dst]; omega)
  simp only [encodeOnePixel, fetched, emitted]
  exact ⟨_, rfl⟩

theorem encodeEnd_answers {s : State} (running : EncRunning s.hdr s.enc) (busy : s.enc.busy = true)
    (done : s.encPixels ≤ s.enc.i) : ∃ t, encodeEnd s = .next t := by
  have room := tail_room_of_encRunning running busy done
  have dstTrue := dstCap_le_of_encRunning running busy
  have emitted := EncEngine.emit_inside (e := s.enc) (bs := endMarker) room (room.trans dstTrue)
  simp only [encodeEnd, emitted]
  exact ⟨_, rfl⟩

/-- A move of ENC answers a next state (42_opcode_encoder.md R157). -/
theorem encodeStep_answers {s : State} (running : EncRunning s.hdr s.enc) : ∃ t, encodeStep s = .next t := by
  cases busy : s.enc.busy with
  | false => exact ⟨s, encodeStep_of_idle busy⟩
  | true =>
    by_cases left : s.enc.i < s.encPixels
    · rw [encodeStep_of_pixels_left busy left]
      exact encodeOnePixel_answers running busy left
    · obtain ⟨t, ends⟩ := encodeEnd_answers running busy (Nat.le_of_not_lt left)
      exact ⟨t, by simp [encodeStep, busy, left, ends]⟩

/-! #### The decoder -/

/-- DEC's current slot lies inside its destination. -/
abbrev DecEngine.SlotInside (d : DecEngine) : Prop :=
  d.slotAddress + pixelWidth d.channels ≤ d.dstCap ∧ d.slotAddress + pixelWidth d.channels ≤ d.dst.size

theorem DecEngine.slotInside_decAfter (i : Instr) {d : DecEngine} (inside : d.SlotInside) :
    (decAfter i d).SlotInside := by
  cases i <;> exact inside

theorem slotInside_of_decRunning {d : DecEngine} (running : DecRunning d) (busy : d.busy = true)
    (left : d.i < d.pixels) : d.SlotInside := by
  obtain ⟨check, -, dstTrue, -⟩ := running busy
  obtain ⟨-, -, channels, capacity⟩ := (decodeCheck_none_iff _ _ _ _ _).mp check
  have slot : d.slotAddress + pixelWidth d.channels ≤ d.dstCap :=
    calc d.slotAddress + pixelWidth d.channels
        = (d.i + 1) * d.channels.toNat := by rw [pixelWidth_eq channels]; exact (Nat.succ_mul _ _).symm
      _ ≤ rawLength d.width d.height d.channels := Nat.mul_le_mul_right _ left
      _ ≤ d.dstCap := capacity
  exact ⟨slot, slot.trans dstTrue⟩

theorem opcodeLength_pos_and_le (b1 : Byte) : 1 ≤ opcodeLength b1 ∧ opcodeLength b1 ≤ 5 := by
  unfold opcodeLength
  split_ifs <;> decide

/-- 30_encoding.md R89: with its operand bytes there every first byte begins an opcode. -/
theorem decode_of_complete {b1 : Byte} {rest : List Byte} (complete : opcodeLength b1 ≤ rest.length + 1) :
    ∃ decoded, decode (b1 :: rest) = .ok decoded := by
  unfold opcodeLength at complete
  simp only [decode]
  split_ifs with rgb rgba index diff luma
  · rw [if_pos rgb] at complete
    obtain _ | ⟨r, _ | ⟨g, _ | ⟨b, rest⟩⟩⟩ := rest
    case cons.cons.cons => exact ⟨_, rfl⟩
    all_goals simp at complete
  · rw [if_neg rgb, if_pos rgba] at complete
    obtain _ | ⟨r, _ | ⟨g, _ | ⟨b, _ | ⟨a, rest⟩⟩⟩⟩ := rest
    case cons.cons.cons.cons => exact ⟨_, rfl⟩
    all_goals simp at complete
  · exact ⟨_, rfl⟩
  · exact ⟨_, rfl⟩
  · rw [if_neg rgb, if_neg rgba, if_pos luma] at complete
    obtain _ | ⟨b2, rest⟩ := rest
    case cons => exact ⟨_, rfl⟩
    simp at complete
  · exact ⟨_, rfl⟩

/-- 43_opcode_decoder.md R197: with 5 bytes left in the source an opcode is fetched. -/
theorem DecEngine.fetch_of_room {d : DecEngine} (room : d.p + 5 ≤ d.srcLen) (srcTrue : d.srcLen ≤ d.src.size) :
    ∃ i, d.fetch = .ok i := by
  obtain ⟨positive, five⟩ := opcodeLength_pos_and_le (d.src.byteAt d.p)
  obtain ⟨n, length⟩ := Nat.exists_eq_add_of_le' positive
  obtain ⟨decoded, complete⟩ := decode_of_complete (b1 := d.src.byteAt d.p)
    (rest := (List.range n).map ((fun j => d.src.byteAt (d.p + j)) ∘ Nat.succ)) (by simp [length])
  have first := Memory.load_inside (m := d.src) (len := d.srcLen) (a := d.p) (n := 1) (by omega) (by omega)
  have whole := Memory.load_inside (m := d.src) (len := d.srcLen) (a := d.p) (n := n + 1) (by omega) (by omega)
  simp only [List.range_succ_eq_map, List.map_cons, List.map_map] at first whole
  simp [DecEngine.fetch, first, length, whole, complete]

/-- A pixel slot of DEC answers a next state: its slot lies inside the destination, and the fetch guard leaves the
longest opcode inside the source (43_opcode_decoder.md R184, R197). -/
theorem decodeOnePixel_answers {s : State} (inside : s.dec.SlotInside) (srcTrue : s.dec.srcLen ≤ s.dec.src.size) :
    ∃ t, decodeOnePixel s = .next t := by
  unfold decodeOnePixel
  split_ifs with run mayFetch
  · exact ⟨_, storePixel_inside (s := runPath s) inside.1 inside.2⟩
  · have guard : s.dec.p + endLen < s.dec.srcLen := of_decide_eq_true mayFetch
    simp only [endLen] at guard
    obtain ⟨i, fetched⟩ := DecEngine.fetch_of_room (by omega) srcTrue
    obtain ⟨cap, size⟩ := DecEngine.slotInside_decAfter i inside
    simp only [execFetched, fetched, exec_eq, thenStore]
    exact ⟨_, storePixel_inside (s := s.setDec (decAfter i s.dec)) cap size⟩
  · exact ⟨_, rfl⟩

/-- A move of DEC answers a next state (43_opcode_decoder.md R197). -/
theorem decodeStep_answers {s : State} (running : DecRunning s.dec) : ∃ t, decodeStep s = .next t := by
  unfold decodeStep
  split_ifs with busy left
  · obtain ⟨-, srcTrue, -⟩ := running busy
    exact decodeOnePixel_answers (slotInside_of_decRunning running busy left) srcTrue
  · exact ⟨_, rfl⟩
  · exact ⟨_, rfl⟩

/-! #### The host -/

theorem encodeHeader_answers {s : State} (room : headerLen ≤ s.he.dst.size) : ∃ t, encodeHeader s = .next t := by
  have stored := Memory.store_inside (m := s.he.dst) (cap := headerLen) (a := 0) (bs := hdrBytes s.hdr)
    (by simp [length_hdrBytes, headerLen]) (by simpa [length_hdrBytes, headerLen] using room)
  simp only [encodeHeader, stored]
  split <;> exact ⟨_, rfl⟩

theorem decodeHeader_answers {s : State} (srcTrue : s.hd.srcLen ≤ s.hd.src.size) :
    ∃ t, decodeHeader s = .next t := by
  unfold decodeHeader
  split_ifs with short
  · exact ⟨_, rfl⟩
  simp only [minStreamLen, Nat.not_lt] at short
  have loaded := Memory.load_inside (m := s.hd.src) (len := s.hd.srcLen) (a := 0) (n := headerLen)
    (by simp only [headerLen]; omega) (by simp only [headerLen]; omega)
  obtain ⟨h, fields⟩ : ∃ h, headerOf ((List.range headerLen).map fun j => s.hd.src.byteAt (0 + j)) = some h :=
    ⟨_, rfl⟩
  simp only [loaded, fields]
  split_ifs <;> exact ⟨_, rfl⟩

theorem encodeStart_answers {s : State} (dstTrue : s.enc.dstCap ≤ s.enc.dst.size) :
    ∃ t, encodeStart s = .next t := by
  cases check : encodeCheck s.hdr s.enc.srcLen s.enc.dstCap with
  | some c => exact ⟨_, encodeStart_of_failed check⟩
  | none =>
    obtain ⟨-, -, capacity⟩ := (encodeCheck_none_iff _ _ _).mp check
    have room : (hdrBytes s.hdr).length ≤ s.enc.dstCap := by
      rw [length_hdrBytes]
      simp only [worstCaseLength, minStreamLen] at capacity
      omega
    have emitted := EncEngine.emit_inside (e := s.enc.callStart) (bs := hdrBytes s.hdr)
      (by simpa [EncEngine.callStart] using room) (by simpa [EncEngine.callStart] using room.trans dstTrue)
    simp only [encodeStart, check, emitted]
    exact ⟨_, rfl⟩

/-- A command whose lengths are true answers a next state when it is issued. -/
theorem runCommand_answers {c : Command} {s : State}
    (lengthsTrue : ∀ entry ∈ s.statedLengths c, entry.2.1 ≤ entry.2.2) : ∃ t, runCommand c s = .next t := by
  cases c with
  | encodeHeader => exact encodeHeader_answers (by simpa [State.statedLengths] using lengthsTrue)
  | decodeHeader => exact decodeHeader_answers (by simpa [State.statedLengths] using lengthsTrue)
  | maxSize => exact ⟨_, rfl⟩
  | encode =>
    have both : s.enc.srcLen ≤ s.enc.src.size ∧ s.enc.dstCap ≤ s.enc.dst.size := by
      simpa [State.statedLengths] using lengthsTrue
    exact encodeStart_answers both.2
  | decode => exact ⟨_, decodeStart_eq s⟩

theorem issueCommand_no_fault (c : Command) (s : State) : isFault (issueCommand c s) = false := by
  cases refusal : launchRefusal c s with
  | some r => simp only [issueCommand, refusal, isFault]
  | none =>
    obtain ⟨-, lengths, -⟩ := launchRefusal_none refusal
    obtain ⟨t, run⟩ := runCommand_answers ((firstUntrue_none_iff _).mp lengths)
    exact isFault_of_next (t := t) (by simp only [issueCommand, refusal, run])

theorem hostAct_no_fault (op : HostOp) (s : State) : isFault (hostAct op s) = false := by
  cases op with
  | setHdr | setEnc | setDec | passStream => exact unlessBusy_no_fault _ _
  | setHd => rfl
  | give => simp only [hostAct, hostGive]; split_ifs <;> rfl
  | writeByte => simp only [hostAct, hostWrite]; split_ifs <;> rfl
  | readByte => simp only [hostAct, hostRead]; split_ifs <;> rfl
  | issue c => exact issueCommand_no_fault c s

theorem hostStep_no_fault (s : State) : isFault (hostStep s) = false := by
  cases script : s.script with
  | nil => exact isFault_of_next (hostStep_of_script_nil script)
  | cons op rest =>
    rw [hostStep_of_script_cons script]
    exact hostAct_no_fault op _

theorem moveAgent_no_fault (a : Agent) {s : State} (enc : EncRunning s.hdr s.enc) (dec : DecRunning s.dec) :
    isFault (moveAgent a s) = false := by
  cases a with
  | host => exact hostStep_no_fault s
  | enc =>
    obtain ⟨t, moved⟩ := encodeStep_answers enc
    exact isFault_of_next moved
  | dec =>
    obtain ⟨t, moved⟩ := decodeStep_answers dec
    exact isFault_of_next moved

/-- Settles O44: under the invariant each engine's move answers a next state, and no act of the host faults. -/
theorem noStepLeavesItsSpaces : Obligations.NoStepLeavesItsSpaces := by
  intro s inv
  obtain ⟨-, enc, dec⟩ := inv
  exact moveAgent_no_fault (s := s.popTurn) s.mover enc dec

end Sys2Proof.Machine
end

section
/-! PROOFS. 30_encoding.md: the opcode table's rows (R80, R81, R89), the bytes of each opcode and their decoding
(R83 to R88, R95), and the cursor's advance. -/

namespace Sys2Proof.Machine

open Sys2Proof.Laws.EncodedLength (no_full_tag)

/-! ### The first byte (R80, R81) -/

theorem twoBitTag_eq (b1 : Byte) : twoBitTag b1 = b1.toNat / 64 := by
  have byte := b1.isLt
  simp only [twoBitTag, bitField]
  omega

theorem twoBitTag_lt (b1 : Byte) : twoBitTag b1 < 4 := Nat.mod_lt _ (by decide)

/-- The row by the dispatch order of R81: the two full bytes first, then the two-bit tag. -/
def selectedRow (b1 : Byte) : OpcodeRow :=
  if b1 = tagRgb then opcodeRows[0]
  else if b1 = tagRgba then opcodeRows[1]
  else opcodeRows[2 + twoBitTag b1]'(Nat.add_lt_add_left (twoBitTag_lt b1) 2)

theorem selectedRow_mem (b1 : Byte) : selectedRow b1 ∈ opcodeRows := by
  unfold selectedRow
  split_ifs <;> exact List.getElem_mem _

/-- The table's masks and exclusions are that dispatch: the 256 values of a first byte, row by row. -/
theorem selects_iff : ∀ row ∈ opcodeRows, ∀ b1 : Byte, row.selects b1 = true ↔ row = selectedRow b1 := by
  decide

theorem opcodeLength_eq_selectedRow : ∀ b1 : Byte, opcodeLength b1 = (selectedRow b1).lengthBytes := by
  decide

/-- A first byte by the branches of `decode`. -/
theorem firstByte_cases (b1 : Byte) :
    b1 = tagRgb ∨ b1 = tagRgba ∨
      b1.toNat < 254 ∧ (twoBitTag b1 = 0 ∨ twoBitTag b1 = 1 ∨ twoBitTag b1 = 2 ∨ twoBitTag b1 = 3) := by
  have byte := b1.isLt
  have rgb : tagRgb.toNat = 254 := rfl
  have rgba : tagRgba.toNat = 255 := rfl
  simp only [← BitVec.toNat_inj, twoBitTag_eq]
  omega

/-! ### The decoder's answers -/

section decoding
variable {b1 : Byte} (rest : List Byte)

theorem decode_of_tag_index (below : b1.toNat < 254) (tag : twoBitTag b1 = 0) :
    decode (b1 :: rest) = .ok (.index (Fin.ofNat 64 (bitField b1 0 6)), rest) := by
  simp [decode, no_full_tag below, tag]

theorem decode_of_tag_diff (below : b1.toNat < 254) (tag : twoBitTag b1 = 1) :
    decode (b1 :: rest) = .ok (diffOf b1, rest) := by
  simp [decode, no_full_tag below, tag]

theorem decode_of_tag_luma (below : b1.toNat < 254) (tag : twoBitTag b1 = 2) (b2 : Byte) :
    decode (b1 :: b2 :: rest) = .ok (lumaOf b1 b2, rest) := by
  simp [decode, no_full_tag below, tag]

theorem decode_of_tag_run (below : b1.toNat < 254) (tag : twoBitTag b1 = 3) :
    decode (b1 :: rest) = .ok (.run (bitField b1 0 6 + 1), rest) := by
  simp [decode, no_full_tag below, tag]

end decoding

/-- R80: bytes that end inside an opcode are refused by the name of the selected row. -/
theorem decode_of_incomplete {b1 : Byte} {rest : List Byte} (incomplete : rest.length + 1 < opcodeLength b1) :
    decode (b1 :: rest) = .error (.operandsMissing (selectedRow b1).mnemonic) := by
  unfold opcodeLength at incomplete
  split_ifs at incomplete with rgb rgba luma
  · subst rgb
    obtain _ | ⟨r, _ | ⟨g, _ | ⟨b, rest⟩⟩⟩ := rest
    case cons.cons.cons => simp only [List.length_cons] at incomplete; omega
    all_goals rfl
  · subst rgba
    obtain _ | ⟨r, _ | ⟨g, _ | ⟨b, _ | ⟨a, rest⟩⟩⟩⟩ := rest
    case cons.cons.cons.cons => simp only [List.length_cons] at incomplete; omega
    all_goals rfl
  · obtain rfl : rest = [] := List.length_eq_zero_iff.mp (by omega)
    simp [decode, selectedRow, rgb, rgba, luma, opcodeRows]
  · omega

/-! ### Encoding and decoding (R95) -/

/-- The stored byte of a number below 256. -/
theorem toNat_ofInt_byte {v : Int} (low : 0 ≤ v) (high : v < 256) : ((BitVec.ofInt 8 v).toNat : Int) = v := by
  rw [BitVec.toNat_ofInt]
  omega

theorem decode_encode {i : Instr} (wf : i.wf = true) (rest : List Byte) :
    decode (encode i ++ rest) = .ok (i, rest) := by
  cases i with
  | index slot =>
    have stored : (BitVec.ofNat 8 slot.val).toNat = slot.val := by
      rw [BitVec.toNat_ofNat]; omega
    have field : Fin.ofNat 64 (bitField (BitVec.ofNat 8 slot.val) 0 6) = slot := by
      ext; simp [bitField, stored]
    simp only [encode, List.cons_append, List.nil_append]
    rw [decode_of_tag_index rest (by omega) (by rw [twoBitTag_eq]; omega), field]
  | diff dr dg db =>
    simp only [Instr.wf, inRange, Bool.and_eq_true, decide_eq_true_eq] at wf
    have stored := toNat_ofInt_byte (v := 0x40 + (dr + 2) * 16 + (dg + 2) * 4 + (db + 2)) (by omega) (by omega)
    simp only [encode, List.cons_append, List.nil_append]
    rw [decode_of_tag_diff rest (by omega) (by rw [twoBitTag_eq]; omega)]
    simp only [diffOf, bitField, Except.ok.injEq, Prod.mk.injEq, Instr.diff.injEq, and_true]
    omega
  | luma dg drg dbg =>
    simp only [Instr.wf, inRange, Bool.and_eq_true, decide_eq_true_eq] at wf
    have stored1 := toNat_ofInt_byte (v := 0x80 + (dg + 32)) (by omega) (by omega)
    have stored2 := toNat_ofInt_byte (v := (drg + 8) * 16 + (dbg + 8)) (by omega) (by omega)
    simp only [encode, List.cons_append, List.nil_append]
    rw [decode_of_tag_luma rest (by omega) (by rw [twoBitTag_eq]; omega)]
    simp only [lumaOf, bitField, Except.ok.injEq, Prod.mk.injEq, Instr.luma.injEq, and_true]
    omega
  | run n =>
    simp only [Instr.wf, Bool.and_eq_true, decide_eq_true_eq] at wf
    have stored : (BitVec.ofNat 8 (0xC0 + (n - 1))).toNat = 0xC0 + (n - 1) := by
      rw [BitVec.toNat_ofNat]; omega
    simp only [encode, List.cons_append, List.nil_append]
    rw [decode_of_tag_run rest (by omega) (by rw [twoBitTag_eq]; omega)]
    simp only [bitField, Except.ok.injEq, Prod.mk.injEq, Instr.run.injEq, and_true]
    omega
  | rgb r g b => rfl
  | rgba r g b a => rfl

/-! #### The bytes a decoded opcode came from -/

section fields
variable {b1 : Byte}

theorem encode_index_of_tag (tag : twoBitTag b1 = 0) :
    encode (.index (Fin.ofNat 64 (bitField b1 0 6))) = [b1] := by
  rw [twoBitTag_eq] at tag
  simp only [encode, bitField, List.cons.injEq, and_true, ← BitVec.toNat_inj, BitVec.toNat_ofNat, Fin.val_ofNat]
  omega

theorem diffOf_wf (b1 : Byte) : (diffOf b1).wf = true := by
  simp only [diffOf, Instr.wf, inRange, bitField, Bool.and_eq_true, decide_eq_true_eq]
  omega

theorem encode_diffOf (tag : twoBitTag b1 = 1) : encode (diffOf b1) = [b1] := by
  rw [twoBitTag_eq] at tag
  simp only [encode, diffOf, bitField, List.cons.injEq, and_true, ← BitVec.toNat_inj, BitVec.toNat_ofInt]
  omega

theorem lumaOf_wf (b1 b2 : Byte) : (lumaOf b1 b2).wf = true := by
  simp only [lumaOf, Instr.wf, inRange, bitField, Bool.and_eq_true, decide_eq_true_eq]
  omega

theorem encode_lumaOf (tag : twoBitTag b1 = 2) (b2 : Byte) : encode (lumaOf b1 b2) = [b1, b2] := by
  have byte := b2.isLt
  rw [twoBitTag_eq] at tag
  simp only [encode, lumaOf, bitField, List.cons.injEq, and_true, ← BitVec.toNat_inj, BitVec.toNat_ofInt]
  omega

/-- R90: payloads 62 and 63 would be the two full-byte tags. -/
theorem run_wf_of_tag (below : b1.toNat < 254) (tag : twoBitTag b1 = 3) :
    (Instr.run (bitField b1 0 6 + 1)).wf = true := by
  rw [twoBitTag_eq] at tag
  have payload : bitField b1 0 6 < 62 := by simp only [bitField]; omega
  simp [Instr.wf, payload]

theorem encode_run_of_tag (tag : twoBitTag b1 = 3) : encode (.run (bitField b1 0 6 + 1)) = [b1] := by
  rw [twoBitTag_eq] at tag
  simp only [encode, bitField, List.cons.injEq, and_true, ← BitVec.toNat_inj, BitVec.toNat_ofNat]
  omega

end fields

/-- R80, R89: complete bytes begin with the encoding of a well-formed opcode of the selected row. -/
theorem exists_encode_of_complete {b1 : Byte} {rest : List Byte} (complete : opcodeLength b1 ≤ rest.length + 1) :
    ∃ i : Instr, i.wf = true ∧ i.mnemonic = (selectedRow b1).mnemonic ∧
      encode i ++ rest.drop (opcodeLength b1 - 1) = b1 :: rest := by
  obtain rfl | rfl | ⟨below, index | diff | luma | run⟩ := firstByte_cases b1
  · obtain _ | ⟨r, _ | ⟨g, _ | ⟨b, rest⟩⟩⟩ := rest
    case cons.cons.cons => exact ⟨.rgb r g b, rfl, rfl, rfl⟩
    all_goals contradiction
  · obtain _ | ⟨r, _ | ⟨g, _ | ⟨b, _ | ⟨a, rest⟩⟩⟩⟩ := rest
    case cons.cons.cons.cons => exact ⟨.rgba r g b a, rfl, rfl, rfl⟩
    all_goals contradiction
  · refine ⟨.index (Fin.ofNat 64 (bitField b1 0 6)), rfl, ?_, ?_⟩
    · simp [selectedRow, no_full_tag below, index, opcodeRows, Instr.mnemonic]
    · rw [encode_index_of_tag index]; simp [opcodeLength, no_full_tag below, index]
  · refine ⟨diffOf b1, diffOf_wf b1, ?_, ?_⟩
    · simp [selectedRow, no_full_tag below, diff, opcodeRows, Instr.mnemonic, diffOf]
    · rw [encode_diffOf diff]; simp [opcodeLength, no_full_tag below, diff]
  · obtain _ | ⟨b2, rest⟩ := rest
    · simp [opcodeLength, no_full_tag below, luma] at complete
    refine ⟨lumaOf b1 b2, lumaOf_wf b1 b2, ?_, ?_⟩
    · simp [selectedRow, no_full_tag below, luma, opcodeRows, Instr.mnemonic, lumaOf]
    · rw [encode_lumaOf luma b2]; simp [opcodeLength, no_full_tag below, luma]
  · refine ⟨.run (bitField b1 0 6 + 1), run_wf_of_tag below run, ?_, ?_⟩
    · simp [selectedRow, no_full_tag below, run, opcodeRows, Instr.mnemonic]
    · rw [encode_run_of_tag run]; simp [opcodeLength, no_full_tag below, run]

/-- What decodes was complete, so it begins with an encoding, and that encoding decodes to its own opcode. -/
theorem encode_of_decode {bytes rest : List Byte} {i : Instr} (decoded : decode bytes = .ok (i, rest)) :
    i.wf = true ∧ encode i ++ rest = bytes := by
  obtain _ | ⟨b1, tail⟩ := bytes
  · cases decoded
  obtain incomplete | complete := Nat.lt_or_ge (tail.length + 1) (opcodeLength b1)
  · cases decoded.symm.trans (decode_of_incomplete incomplete)
  · obtain ⟨j, wf, -, whole⟩ := exists_encode_of_complete complete
    have again := decode_encode wf (tail.drop (opcodeLength b1 - 1))
    rw [whole, decoded] at again
    cases again
    exact ⟨wf, whole⟩

/-- Settles O2: `encode` is defined by those bytes, `decode_encode` and `encode_of_decode` are the two inverses. -/
theorem decodeAndEncodeAreInverse : Obligations.DecodeAndEncodeAreInverse :=
  ⟨fun _ => rfl, fun _ _ _ _ => rfl, fun _ _ _ _ => rfl, fun _ _ => rfl, fun _ _ _ => rfl, fun _ _ _ _ => rfl,
    fun _ rest wf => decode_encode wf rest, fun _ _ _ => encode_of_decode⟩

/-- Settles O3: the row is `selectedRow`, and complete bytes are the encoding of one of its opcodes. -/
theorem firstByteSelectsExactlyOneOpcode : Obligations.FirstByteSelectsExactlyOneOpcode := by
  intro b1 rest
  have selected := selectedRow_mem b1
  refine ⟨selectedRow b1, selected, (selects_iff _ selected b1).mpr rfl,
    fun other mem => (selects_iff other mem b1).mp, opcodeLength_eq_selectedRow b1, fun complete => ?_⟩
  rw [← opcodeLength_eq_selectedRow] at complete ⊢
  obtain ⟨i, wf, name, whole⟩ := exists_encode_of_complete complete
  exact ⟨i, whole ▸ decode_encode wf _, name⟩

/-- Settles O4: incomplete bytes are refused by name, complete ones decode. -/
theorem onlyIncompleteOpcodesAreRefused : Obligations.OnlyIncompleteOpcodesAreRefused := by
  refine ⟨fun b1 rest incomplete => ?named, fun bytes e refused => ?only⟩
  case named =>
    have selected := selectedRow_mem b1
    exact ⟨selectedRow b1, selected, (selects_iff _ selected b1).mpr rfl, decode_of_incomplete incomplete⟩
  case only =>
    obtain _ | ⟨b1, rest⟩ := bytes
    · cases refused
      exact .inl ⟨rfl, rfl⟩
    · refine .inr ⟨b1, rest, rfl, Nat.lt_of_not_le fun complete => ?_⟩
      obtain ⟨_, decoded⟩ := decode_of_complete complete
      cases decoded.symm.trans refused

/-- Settles O1: six closed words, evaluated. -/
theorem wordsOfTheFormatsDecode : Obligations.WordsOfTheFormatsDecode := by
  unfold Obligations.WordsOfTheFormatsDecode
  decide

/-! ### The cursor past an opcode (10_state.md R26) -/

theorem decAfter_p (i : Instr) (d : DecEngine) : (decAfter i d).p = d.p + (encode i).length := by
  cases i <;> rfl

theorem exec_completes (i : Instr) (s : State) :
    ∃ t, exec i s = .next t ∧ t.dec.p = s.dec.p + (encode i).length :=
  ⟨_, exec_eq i s, decAfter_p i s.dec⟩

/-- Settles O11: `exec_completes` for each of the six opcodes. -/
theorem everyOpcodeCompletes : Obligations.EveryOpcodeCompletes :=
  ⟨fun _ => exec_completes _, fun _ _ _ => exec_completes _, fun _ _ _ => exec_completes _, fun _ => exec_completes _,
    fun _ _ _ => exec_completes _, fun _ _ _ _ => exec_completes _⟩

end Sys2Proof.Machine
end

section
/-! PROOFS. 40_header_serializer.md: the validity predicate (R100), the 14 header bytes and the fields in them
(R102, R106), what the three commands answer (R102 to R108, R110), and the round trip (R109). -/

namespace Sys2Proof.Machine

/-! ### Validity (R100) -/

theorem byte_eq_ofNat_iff (b : Byte) {n : Nat} (byte : n < 256) : b = BitVec.ofNat 8 n ↔ b.toNat = n := by
  rw [← BitVec.toNat_inj, BitVec.toNat_ofNat, Nat.mod_eq_of_lt byte]

/-- Settles O37: the three parts of the predicate, read as numbers. -/
theorem headerValidExactlyWhen : Obligations.HeaderValidExactlyWhen := by
  intro h
  have channels : channelsValid h.channels = true ↔ h.channels.toNat = 3 ∨ h.channels.toNat = 4 := by
    rw [channelsValid_iff, byte_eq_ofNat_iff _ (by decide), byte_eq_ofNat_iff _ (by decide)]
  have colorspace : colorspaceValid h.colorspace = true ↔ h.colorspace.toNat = 0 ∨ h.colorspace.toNat = 1 := by
    rw [colorspaceValid_iff, byte_eq_ofNat_iff _ (by decide), byte_eq_ofNat_iff _ (by decide)]
  rw [hdrValid_iff, dimsValid_iff, channels, colorspace, Nat.not_le, pixelsGuard]
  exact ⟨fun ⟨⟨width, height, guard⟩, channels, colorspace⟩ => ⟨width, height, channels, colorspace, guard⟩,
    fun ⟨width, height, channels, colorspace, guard⟩ => ⟨⟨width, height, guard⟩, channels, colorspace⟩⟩

/-! ### MAX_SIZE (R110) -/

/-- Settles O36: the command is one register write of `worstCaseLength`. -/
theorem maxSizeIsTheWorstCase : Obligations.MaxSizeIsTheWorstCase := fun _ => rfl

/-! ### Runs of bytes in a space -/

@[simp] theorem Memory.length_bytesFrom (m : Memory) (a n : Nat) : (m.bytesFrom a n).length = n := by
  simp [Memory.bytesFrom]

theorem Memory.bytesFrom_eq_iff (m m' : Memory) (a n : Nat) :
    m.bytesFrom a n = m'.bytesFrom a n ↔ ∀ j, j < n → m.byteAt (a + j) = m'.byteAt (a + j) := by
  simp [Memory.bytesFrom]

theorem Memory.bytesFrom_writeList {m : Memory} (w : m.wf = true) {a : Nat} {bs : List Byte}
    (inside : a + bs.length ≤ m.size) : (m.writeList a bs).bytesFrom a bs.length = bs := by
  refine List.ext_getElem (by simp) fun j _ hj => ?_
  simp [Memory.bytesFrom, Memory.byteAt_writeList w inside, hj]

theorem Memory.writeList_sameOutside {m : Memory} (w : m.wf = true) {a : Nat} {bs : List Byte}
    (inside : a + bs.length ≤ m.size) : m.SameOutside (m.writeList a bs) a bs.length := by
  refine ⟨m.writeList_base a bs, m.writeList_content a bs, m.writeList_size a bs, fun x outside => ?_⟩
  rw [Memory.byteAt_writeList w inside, if_neg (by omega)]

/-! ### The header bytes and the fields in them (R102, R106; 20_memory.md R52) -/

theorem toNat_ofBE32 (b0 b1 b2 b3 : Byte) :
    (ofBE32 b0 b1 b2 b3).toNat = b0.toNat * 2 ^ 24 + b1.toNat * 2 ^ 16 + b2.toNat * 2 ^ 8 + b3.toNat := by
  rw [ofBE32, BitVec.toNat_ofNat]
  omega

theorem be32_ofBE32 (b0 b1 b2 b3 : Byte) : be32 (ofBE32 b0 b1 b2 b3) = [b0, b1, b2, b3] := by
  simp only [be32, toNat_ofBE32, List.cons.injEq, and_true]
  refine ⟨?_, ?_, ?_, ?_⟩ <;> (apply BitVec.eq_of_toNat_eq; rw [BitVec.toNat_ofNat]; omega)

/-- The fields that the first 14 bytes of a space spell. -/
def Memory.headerRead (m : Memory) : Header :=
  { width := ofBE32 (m.byteAt 4) (m.byteAt 5) (m.byteAt 6) (m.byteAt 7)
    height := ofBE32 (m.byteAt 8) (m.byteAt 9) (m.byteAt 10) (m.byteAt 11)
    channels := m.byteAt 12
    colorspace := m.byteAt 13 }

theorem headerOf_bytesFrom (m : Memory) : headerOf (m.bytesFrom 0 headerLen) = some m.headerRead := rfl

theorem headerOf_hdrBytes (h : Header) : headerOf (hdrBytes h) = some h := by
  change some (Header.mk (ofBE32 _ _ _ _) (ofBE32 _ _ _ _) h.channels h.colorspace) = some h
  rw [ofBE32_be32, ofBE32_be32]

/-- A space that starts with a header's bytes starts with the magic, and its fields are that header. -/
theorem Memory.fields_of_hdrBytes {m : Memory} {h : Header} (bytes : m.bytesFrom 0 headerLen = hdrBytes h) :
    m.bytesFrom 0 4 = magic ∧ m.headerRead = h := by
  constructor
  · exact congrArg (List.take 4) bytes
  · rw [← Option.some_inj, ← headerOf_bytesFrom, bytes, headerOf_hdrBytes]

/-- The converse: with the magic in front, the first 14 bytes are those of the header they spell. -/
theorem Memory.hdrBytes_headerRead {m : Memory} (isMagic : m.bytesFrom 0 4 = magic) :
    hdrBytes m.headerRead = m.bytesFrom 0 headerLen := by
  rw [hdrBytes, Memory.headerRead, be32_ofBE32, be32_ofBE32, ← isMagic]
  rfl

theorem Memory.holdsHeader_of_hdrBytes {m : Memory} {h : Header} (bytes : m.bytesFrom 0 headerLen = hdrBytes h) :
    m.HoldsHeader h := by
  obtain ⟨isMagic, rfl⟩ := Memory.fields_of_hdrBytes bytes
  have magicBytes : m.byteAt 0 = 0x71#8 ∧ m.byteAt 1 = 0x6F#8 ∧ m.byteAt 2 = 0x69#8 ∧ m.byteAt 3 = 0x66#8 := by
    simpa [Memory.bytesFrom, magic, List.range_succ] using isMagic
  obtain ⟨q, o, i, f⟩ := magicBytes
  simp only [Memory.HoldsHeader, Memory.headerRead, toNat_ofBE32, q, o, i, f, true_and, and_true]
  omega

/-! ### ENCODE_HEADER (R102, R103) -/

/-- All ENCODE_HEADER does with a valid header: the destination starts with its bytes and is otherwise as it was. -/
theorem encodeHeader_of_valid {s : State} (valid : hdrValid s.hdr = true) (w : s.he.dst.wf = true)
    (room : headerLen ≤ s.he.dst.size) :
    ∃ dst, encodeHeader s = .next (s.setHe { ok := true, status := .ok, dst := dst }) ∧
      dst.bytesFrom 0 headerLen = hdrBytes s.hdr ∧ s.he.dst.SameOutside dst 0 headerLen := by
  have length : (hdrBytes s.hdr).length = headerLen := length_hdrBytes s.hdr
  have inside : 0 + (hdrBytes s.hdr).length ≤ s.he.dst.size := by rwa [length, Nat.zero_add]
  have stored := Memory.store_inside (cap := headerLen) (by rw [length, Nat.zero_add]) inside
  have written := Memory.bytesFrom_writeList w inside
  have kept := Memory.writeList_sameOutside w inside
  rw [length] at written kept
  refine ⟨s.he.dst.writeList 0 (hdrBytes s.hdr), ?_, written, kept⟩
  simp only [encodeHeader, valid, if_true, stored, HeUnit.accept]

theorem encodeHeader_of_invalid {s : State} (invalid : hdrValid s.hdr = false) :
    encodeHeader s = .next (s.setHe (s.he.fail .invalidHeader)) := by
  simp only [encodeHeader, invalid, Bool.false_eq_true, if_false]
  rfl

/-- Settles O33: the written bytes are `hdrBytes`, which spell the header. -/
theorem encodeHeaderWritesFourteenBytesOrFails : Obligations.EncodeHeaderWritesFourteenBytesOrFails := by
  intro s w room
  refine ⟨fun valid => ?_, encodeHeader_of_invalid⟩
  obtain ⟨dst, answer, written, kept⟩ := encodeHeader_of_valid valid w room
  exact ⟨_, answer, rfl, Memory.holdsHeader_of_hdrBytes written, kept⟩

/-! ### DECODE_HEADER (R104 to R108) -/

theorem headerLen_le_minStreamLen : headerLen ≤ minStreamLen := by decide

/-- HD after DECODE_HEADER: length, then magic, then fields. -/
def HdUnit.decoded (u : HdUnit) : HdUnit :=
  if u.srcLen < minStreamLen then u.fail .bufferTooSmall
  else if u.src.bytesFrom 0 4 ≠ magic then u.fail .invalidHeader
  else if hdrValid u.src.headerRead then u.accept u.src.headerRead
  else u.fail .invalidHeader

/-- All DECODE_HEADER can answer when its source has the bytes it reads. -/
theorem decodeHeader_eq {s : State} (room : minStreamLen ≤ s.hd.srcLen → headerLen ≤ s.hd.src.size) :
    decodeHeader s = .next (s.setHd s.hd.decoded) := by
  unfold decodeHeader HdUnit.decoded
  by_cases short : s.hd.srcLen < minStreamLen
  case pos =>
    simp only [short, if_true]
    rfl
  case neg =>
    have long : minStreamLen ≤ s.hd.srcLen := Nat.le_of_not_lt short
    have loaded : s.hd.src.load s.hd.srcLen 0 headerLen = some (s.hd.src.bytesFrom 0 headerLen) :=
      Memory.load_inside (by simpa using headerLen_le_minStreamLen.trans long) (by simpa using room long)
    have leading : (s.hd.src.bytesFrom 0 headerLen).take 4 = s.hd.src.bytesFrom 0 4 := rfl
    simp only [short, if_false, loaded, leading, headerOf_bytesFrom]
    split_ifs <;> rfl

/-- DECODE_HEADER that answers has read its 14 bytes inside the source. -/
theorem room_of_decodeHeader {s t : State} (answered : decodeHeader s = .next t) (long : minStreamLen ≤ s.hd.srcLen) :
    headerLen ≤ s.hd.src.size := by
  by_contra outside
  have notLoaded : s.hd.src.load s.hd.srcLen 0 headerLen = none := by
    simp [Memory.load, Memory.covers, Nat.not_le.mp outside]
  simp only [decodeHeader, Nat.not_lt.mpr long, if_false, notLoaded] at answered
  cases answered

theorem HdUnit.decoded_of_short {u : HdUnit} (short : u.srcLen < minStreamLen) : u.decoded = u.fail .bufferTooSmall :=
  if_pos short

section
variable {u : HdUnit} (long : minStreamLen ≤ u.srcLen)
include long

theorem HdUnit.decoded_of_not_magic (notMagic : u.src.bytesFrom 0 4 ≠ magic) : u.decoded = u.fail .invalidHeader := by
  rw [HdUnit.decoded, if_neg (Nat.not_lt.mpr long), if_pos notMagic]

variable (isMagic : u.src.bytesFrom 0 4 = magic)
include isMagic

theorem HdUnit.decoded_of_valid (valid : hdrValid u.src.headerRead = true) :
    u.decoded = u.accept u.src.headerRead := by
  rw [HdUnit.decoded, if_neg (Nat.not_lt.mpr long), if_neg (not_not_intro isMagic), if_pos valid]

theorem HdUnit.decoded_of_invalid (invalid : hdrValid u.src.headerRead = false) :
    u.decoded = u.fail .invalidHeader := by
  rw [HdUnit.decoded, if_neg (Nat.not_lt.mpr long), if_neg (not_not_intro isMagic), if_neg (by simp [invalid])]

end

theorem HdUnit.decoded_keeps_source (u : HdUnit) : u.decoded.src = u.src ∧ u.decoded.srcLen = u.srcLen := by
  unfold HdUnit.decoded
  split_ifs <;> exact ⟨rfl, rfl⟩

/-- The checks that an accepted buffer has passed. -/
theorem HdUnit.passed_of_decoded_ok {u : HdUnit} (accepted : u.decoded.ok = true) :
    minStreamLen ≤ u.srcLen ∧ u.src.bytesFrom 0 4 = magic ∧ hdrValid u.src.headerRead = true := by
  unfold HdUnit.decoded at accepted
  split_ifs at accepted with short notMagic valid
  · cases accepted
  · cases accepted
  · exact ⟨Nat.le_of_not_lt short, not_not.mp notMagic, valid⟩
  · cases accepted

/-- A header whose numbers are those of the bytes is the header the bytes spell. -/
theorem Memory.eq_headerRead {m : Memory} {h : Header}
    (width : h.width.toNat = (m.byteAt 4).toNat * 2 ^ 24 + (m.byteAt 5).toNat * 2 ^ 16 + (m.byteAt 6).toNat * 2 ^ 8 +
      (m.byteAt 7).toNat)
    (height : h.height.toNat = (m.byteAt 8).toNat * 2 ^ 24 + (m.byteAt 9).toNat * 2 ^ 16 +
      (m.byteAt 10).toNat * 2 ^ 8 + (m.byteAt 11).toNat)
    (channels : h.channels = m.byteAt 12) (colorspace : h.colorspace = m.byteAt 13) : h = m.headerRead := by
  rw [← toNat_ofBE32, BitVec.toNat_inj] at width height
  rw [Memory.headerRead, ← width, ← height, ← channels, ← colorspace]

/-- Settles O34: `HdUnit.decoded`, check by check. -/
theorem decodeHeaderChecksInOrder : Obligations.DecodeHeaderChecksInOrder := by
  intro s srcTrue
  obtain ⟨src, srcLen⟩ := s.hd.decoded_keeps_source
  refine ⟨_, decodeHeader_eq fun long => headerLen_le_minStreamLen.trans (long.trans srcTrue), rfl, src, srcLen,
    fun short => ?short, fun long notMagic => ?notMagic, fun long isMagic h width height channels colorspace => ?fields⟩
  case short =>
    rw [State.setHd_hd, HdUnit.decoded_of_short short]
    exact ⟨rfl, rfl⟩
  case notMagic =>
    rw [State.setHd_hd, HdUnit.decoded_of_not_magic long notMagic]
    exact ⟨rfl, rfl⟩
  case fields =>
    obtain rfl := Memory.eq_headerRead width height channels colorspace
    refine ⟨fun invalid => ?_, fun valid => ?_⟩
    · rw [State.setHd_hd, HdUnit.decoded_of_invalid long isMagic invalid]
      exact ⟨rfl, rfl⟩
    · rw [State.setHd_hd, HdUnit.decoded_of_valid long isMagic valid]
      exact ⟨rfl, rfl, rfl, rfl, rfl, rfl⟩

/-! ### The round trip (R109) -/

/-- DECODE_HEADER of a valid header's bytes accepts that header. -/
theorem decodeHeader_of_hdrBytes {u : State} {h : Header} (valid : hdrValid h = true)
    (long : minStreamLen ≤ u.hd.srcLen) (srcTrue : u.hd.srcLen ≤ u.hd.src.size)
    (bytes : u.hd.src.bytesFrom 0 headerLen = hdrBytes h) : decodeHeader u = .next (u.setHd (u.hd.accept h)) := by
  obtain ⟨isMagic, rfl⟩ := Memory.fields_of_hdrBytes bytes
  rw [decodeHeader_eq fun _ => headerLen_le_minStreamLen.trans (long.trans srcTrue),
    HdUnit.decoded_of_valid long isMagic valid]

/-- A buffer DECODE_HEADER accepts starts with the bytes of the valid header it returns. -/
theorem hdrBytes_of_decodeHeader {u v : State} (answered : decodeHeader u = .next v) (accepted : v.hd.ok = true) :
    ∃ h, v.hd = u.hd.accept h ∧ hdrValid h = true ∧ hdrBytes h = u.hd.src.bytesFrom 0 headerLen := by
  cases answered.symm.trans (decodeHeader_eq (room_of_decodeHeader answered))
  obtain ⟨long, isMagic, valid⟩ := HdUnit.passed_of_decoded_ok accepted
  exact ⟨_, HdUnit.decoded_of_valid long isMagic valid, valid, Memory.hdrBytes_headerRead isMagic⟩

/-- Settles O35: both commands agree with `hdrBytes`, from the header to the bytes and back. -/
theorem headerRoundTrip : Obligations.HeaderRoundTrip := by
  refine ⟨fun s valid w room => ?decodeOfEncode, fun u v answered accepted s returned w room => ?encodeOfDecode⟩
  case decodeOfEncode =>
    obtain ⟨dst, encoded, written, -⟩ := encodeHeader_of_valid valid w room
    refine ⟨_, encoded, fun u long srcTrue same => ?_⟩
    have bytes : u.hd.src.bytesFrom 0 headerLen = hdrBytes s.hdr := by
      rw [← written, Memory.bytesFrom_eq_iff]
      simpa [headerLen] using same
    exact ⟨_, decodeHeader_of_hdrBytes valid long srcTrue bytes, rfl, rfl⟩
  case encodeOfDecode =>
    obtain ⟨h, unit, valid, bytes⟩ := hdrBytes_of_decodeHeader answered accepted
    have header : s.hdr = h := by rw [returned, unit]; rfl
    obtain ⟨dst, encoded, written, -⟩ := encodeHeader_of_valid (header ▸ valid) w room
    rw [header, bytes, Memory.bytesFrom_eq_iff] at written
    exact ⟨_, encoded, rfl, by simpa [headerLen] using written⟩

end Sys2Proof.Machine
end

section
/-! PROOFS. 41_pixel_cache_hash.md: the hash as a number (R120, R121), and a RUN opcode's cache write under the
encoder's and the decoder's relation (R126; 43_opcode_decoder.md R192). -/

namespace Sys2Proof.Machine

/-! ### The hash (R120, R121) -/

theorem val_pixelHash (p : Pixel) :
    (pixelHash p).val = (p.r.toNat * 3 + p.g.toNat * 5 + p.b.toNat * 7 + p.a.toNat * 11) % 64 := rfl

/-- The slot in which a leading run lets the caches differ (R126). -/
theorem pixelHash_initPrev : pixelHash initPrev = 53 := by decide

/-- Settles O39: the sum of R120, and reducing each channel first leaves it the same modulo 64. -/
theorem hashUsesTheLowSixBits : Obligations.HashUsesTheLowSixBits := by
  refine fun p => ⟨val_pixelHash p, ?_⟩
  rw [val_pixelHash]
  omega

/-! ### The caches after a RUN (R126) -/

/-- The decoder may write again a pixel the encoder has in its slot, or the initial pixel while the encoder's
slot 53 is still zero. -/
theorem cachesAgree_cacheWrite {ec dc : Cache} {p : Pixel} (agree : CachesAgree ec dc)
    (cached : cacheRead ec (pixelHash p) = p ∨ (p = initPrev ∧ cacheRead ec 53 = zeroPixel)) :
    CachesAgree ec (cacheWrite dc p) := by
  intro h
  rw [cacheRead_cacheWrite]
  split
  case isTrue written =>
    subst written
    obtain here | ⟨rfl, zero⟩ := cached
    · exact .inl here
    · rw [pixelHash_initPrev]
      exact .inr ⟨rfl, zero, rfl⟩
  case isFalse => exact agree h

/-- Settles O56: a RUN opcode keeps the pixel and writes it to its slot (`exec_eq`). -/
theorem runKeepsTheCachesAgreeing : Obligations.RunKeepsTheCachesAgreeing := fun _ s n agree cached =>
  ⟨_, exec_eq (.run n) s, rfl, cachesAgree_cacheWrite agree cached⟩

end Sys2Proof.Machine
end

section
/-! PROOFS. 42_opcode_encoder.md: the scan (R143), the opcodes of a step (R145 to R153), what a start, a step and the
tail do to ENC (R141, R142, R144, R155), the invariants (R158, R159; with those of DEC and the host), and completion
within the size bound (R157, R160). -/

namespace Sys2Proof.Machine

/-! ### The opcodes of a step (R145 to R153) -/

theorem encodeAll_concat (ops : List Instr) (op : Instr) : encodeAll (ops ++ [op]) = encodeAll ops ++ encode op := by
  simp [encodeAll]

theorem encodeAll_singleton (op : Instr) : encodeAll [op] = encode op := encodeAll_concat [] op

theorem toNat_eq_zero_iff (run : BitVec 6) : run.toNat = 0 ↔ run = 0#6 := BitVec.toNat_inj (y := 0#6)

/-- R146: the flush of a pending run, byte by byte. -/
theorem encodeAll_flushRun (run : BitVec 6) : encodeAll (flushRun run) = flushBytes run := by
  unfold flushRun flushBytes
  simp only [toNat_eq_zero_iff]
  split
  · rfl
  · exact encodeAll_singleton _

theorem length_encode_pos_and_le (i : Instr) : 1 ≤ (encode i).length ∧ (encode i).length ≤ 5 := by
  cases i <;> simp [encode]

theorem length_flushBytes_le (run : BitVec 6) : (flushBytes run).length ≤ 1 := by
  unfold flushBytes
  split <;> simp

/-- R145: below 62 the run counter does not wrap. -/
theorem toNat_run_succ {run : BitVec 6} (runLe : run.toNat ≤ 61) : (run + 1#6).toNat = run.toNat + 1 := by
  rw [BitVec.toNat_add]
  exact Nat.mod_eq_of_lt (show run.toNat + 1 < 64 by omega)

theorem run_succ_eq_runMax_iff {run : BitVec 6} (runLe : run.toNat ≤ 61) :
    run + 1#6 = runMax ↔ run.toNat + 1 = 62 := by
  rw [← BitVec.toNat_inj, toNat_run_succ runLe]
  rfl

section choice
variable {prev px : Pixel} {run : BitVec 6} {cache : Cache} {last : Bool}

/-- R145: the run goes out at 62 and at the last pixel. -/
theorem encodePixel_of_run_ends (runLe : run.toNat ≤ 61) (same : px = prev) (ends : run.toNat + 1 = 62 ∨ last = true) :
    encodePixel prev run cache last px = ([.run (run.toNat + 1)], 0#6, cache) := by
  rw [← run_succ_eq_runMax_iff runLe] at ends
  rw [encodePixel, if_pos same, if_pos ends, toNat_run_succ runLe]

theorem encodePixel_of_run_counts (runLe : run.toNat ≤ 61) (same : px = prev) (below : run.toNat + 1 ≠ 62)
    (notLast : last = false) : encodePixel prev run cache last px = ([], run + 1#6, cache) := by
  have goesOn : ¬ (run + 1#6 = runMax ∨ last = true) := by
    rw [run_succ_eq_runMax_iff runLe, notLast]
    simp [below]
  rw [encodePixel, if_pos same, if_neg goesOn]

theorem encodePixel_of_ne (ne : px ≠ prev) :
    encodePixel prev run cache last px =
      (flushRun run ++ [(chooseOpcode prev cache px).1], 0#6, (chooseOpcode prev cache px).2) :=
  if_neg ne

/-- All a step can make of its pixel: the run ends, or counts, or another opcode goes out after the flush. -/
theorem encodePixel_cases (runLe : run.toNat ≤ 61) :
    (px = prev ∧ encodePixel prev run cache last px = ([.run (run.toNat + 1)], 0#6, cache)) ∨
    (px = prev ∧ run.toNat + 1 ≤ 61 ∧ last = false ∧ encodePixel prev run cache last px = ([], run + 1#6, cache)) ∨
    (px ≠ prev ∧ encodePixel prev run cache last px =
      (flushRun run ++ [(chooseOpcode prev cache px).1], 0#6, (chooseOpcode prev cache px).2)) := by
  by_cases same : px = prev
  case neg => exact .inr (.inr ⟨same, encodePixel_of_ne same⟩)
  by_cases ends : run.toNat + 1 = 62 ∨ last = true
  case pos => exact .inl ⟨same, encodePixel_of_run_ends runLe same ends⟩
  case neg =>
    obtain ⟨below, notLast⟩ := not_or.mp ends
    rw [Bool.not_eq_true] at notLast
    exact .inr (.inl ⟨same, by omega, notLast, encodePixel_of_run_counts runLe same below notLast⟩)

/-- R158 (a), (c): the counter stays below 62, and the last pixel leaves no run. -/
theorem run_encodePixel (runLe : run.toNat ≤ 61) :
    (encodePixel prev run cache last px).2.1.toNat ≤ 61 ∧
      (last = true → (encodePixel prev run cache last px).2.1 = 0#6) := by
  obtain ⟨-, choice⟩ | ⟨-, below, notLast, choice⟩ | ⟨-, choice⟩ :=
    encodePixel_cases (prev := prev) (px := px) (cache := cache) (last := last) runLe <;> rw [choice]
  · exact ⟨by simp, fun _ => rfl⟩
  · exact ⟨(toNat_run_succ runLe).trans_le below, fun isLast => by simp [notLast] at isLast⟩
  · exact ⟨by simp, fun _ => rfl⟩

/-- 20_memory.md R56: at most the flush and the longest opcode. -/
theorem length_encodePixel_le_six (runLe : run.toNat ≤ 61) :
    (encodeAll (encodePixel prev run cache last px).1).length ≤ 6 := by
  obtain ⟨-, choice⟩ | ⟨-, -, -, choice⟩ | ⟨-, choice⟩ :=
    encodePixel_cases (prev := prev) (px := px) (cache := cache) (last := last) runLe <;> rw [choice]
  · simp [encodeAll, encode]
  · simp [encodeAll]
  · have flush := length_flushBytes_le run
    have opcode := (length_encode_pos_and_le (chooseOpcode prev cache px).1).2
    rw [encodeAll_concat, encodeAll_flushRun, List.length_append]
    omega

/-- A step puts out a byte or leaves a run. -/
theorem encodePixel_progress (runLe : run.toNat ≤ 61) :
    1 ≤ (encodeAll (encodePixel prev run cache last px).1).length +
      (encodePixel prev run cache last px).2.1.toNat := by
  obtain ⟨-, choice⟩ | ⟨-, -, -, choice⟩ | ⟨-, choice⟩ :=
    encodePixel_cases (prev := prev) (px := px) (cache := cache) (last := last) runLe <;> rw [choice]
  · simp [encodeAll, encode]
  · simp [encodeAll, toNat_run_succ runLe]
  · have opcode := (length_encode_pos_and_le (chooseOpcode prev cache px).1).1
    rw [length_encodeAll_concat]
    omega

/-! #### The opcode of a pixel that differs from the previous one (R147 to R153) -/

theorem chooseOpcode_of_hit (hit : cacheRead cache (pixelHash px) = px) :
    chooseOpcode prev cache px = (.index (pixelHash px), cache) :=
  if_pos hit

theorem chooseOpcode_of_miss (miss : cacheRead cache (pixelHash px) ≠ px) :
    chooseOpcode prev cache px = (chooseOnMiss prev px, cacheWrite cache px) :=
  if_neg miss

theorem chooseOnMiss_of_alpha_changed (changed : px.a ≠ prev.a) :
    chooseOnMiss prev px = .rgba px.r px.g px.b px.a :=
  if_pos changed

theorem chooseOnMiss_of_alpha_kept (kept : px.a = prev.a) :
    chooseOnMiss prev px =
      chooseByDeltas px (delta8 px.r prev.r) (delta8 px.g prev.g) (delta8 px.b prev.b) :=
  if_neg (not_not_intro kept)

/-- R147, R148: after the choice the pixel is in its slot. -/
theorem cacheRead_chooseOpcode : cacheRead (chooseOpcode prev cache px).2 (pixelHash px) = px := by
  by_cases hit : cacheRead cache (pixelHash px) = px
  · rw [chooseOpcode_of_hit hit]
    exact hit
  · rw [chooseOpcode_of_miss hit, cacheRead_cacheWrite, if_pos rfl]

theorem chooseByDeltas_ne_rgba (dr dg db : Int) (r g b a : Byte) : chooseByDeltas px dr dg db ≠ .rgba r g b a := by
  unfold chooseByDeltas
  split_ifs <;> exact nofun

/-- R153: RGBA only where alpha changed. -/
theorem chooseOpcode_ne_rgba (kept : px.a = prev.a) (r g b a : Byte) :
    (chooseOpcode prev cache px).1 ≠ .rgba r g b a := by
  by_cases hit : cacheRead cache (pixelHash px) = px
  · rw [chooseOpcode_of_hit hit]
    exact nofun
  · rw [chooseOpcode_of_miss hit, chooseOnMiss_of_alpha_kept kept]
    exact chooseByDeltas_ne_rgba _ _ _ r g b a

theorem encodePixel_ne_rgba (runLe : run.toNat ≤ 61) (kept : px.a = prev.a) :
    ∀ i ∈ (encodePixel prev run cache last px).1, ∀ r g b a, i ≠ .rgba r g b a := by
  obtain ⟨-, choice⟩ | ⟨-, -, -, choice⟩ | ⟨-, choice⟩ :=
    encodePixel_cases (prev := prev) (px := px) (cache := cache) (last := last) runLe <;> rw [choice]
  · simp
  · simp
  · intro i mem
    obtain flush | opcode := List.mem_append.mp mem
    · unfold flushRun at flush
      split at flush
      · cases flush
      · obtain rfl := List.mem_singleton.mp flush
        exact nofun
    · obtain rfl := List.mem_singleton.mp opcode
      exact chooseOpcode_ne_rgba kept

/-- R150. -/
theorem diffFits_iff (dr dg db : Int) :
    diffFits dr dg db = true ↔ -2 ≤ dr ∧ dr ≤ 1 ∧ -2 ≤ dg ∧ dg ≤ 1 ∧ -2 ≤ db ∧ db ≤ 1 := by
  simp [diffFits, inRange, and_assoc]

/-- R151. -/
theorem lumaFits_iff (dr dg db : Int) :
    lumaFits dr dg db = true ↔
      -32 ≤ dg ∧ dg ≤ 31 ∧ -8 ≤ dr - dg ∧ dr - dg ≤ 7 ∧ -8 ≤ db - dg ∧ db - dg ≤ 7 := by
  simp only [lumaFits, inRange, Bool.and_eq_true, decide_eq_true_iff, and_assoc]

/-- The wrapping difference is the only integer that 00_scope.md R12 allows. -/
theorem delta8_eq_of_isDelta {x y : Byte} {d : Int} (delta : IsDelta x y d) : delta8 x y = d := by
  obtain ⟨low, high, congruent⟩ := delta
  unfold delta8 s8
  split <;> omega

theorem chooseOpcode_of_deltas {dr dg db : Int} (miss : cacheRead cache (pixelHash px) ≠ px) (kept : px.a = prev.a)
    (red : IsDelta px.r prev.r dr) (green : IsDelta px.g prev.g dg) (blue : IsDelta px.b prev.b db) :
    chooseOpcode prev cache px = (chooseByDeltas px dr dg db, cacheWrite cache px) := by
  rw [chooseOpcode_of_miss miss, chooseOnMiss_of_alpha_kept kept, delta8_eq_of_isDelta red,
    delta8_eq_of_isDelta green, delta8_eq_of_isDelta blue]

end choice

/-! ### Bytes put out (20_memory.md R51, R57) -/

theorem Memory.writeList_holdsAt {m : Memory} (w : m.wf = true) {a : Nat} {bs : List Byte}
    (inside : a + bs.length ≤ m.size) : (m.writeList a bs).HoldsAt a bs := by
  intro j hj
  rw [Memory.byteAt_writeList w inside, if_pos (by omega), Nat.add_sub_cancel_left]
  rfl

/-- An emit inside the destination puts out its bytes and changes no other. -/
theorem EncEngine.emit_effect {e : EncEngine} {bytes : List Byte} (w : e.dst.wf = true)
    (room : e.o + bytes.length ≤ e.dstCap) (dstTrue : e.dstCap ≤ e.dst.size) :
    ∃ dst, e.emit bytes = some (e.emitted dst bytes.length) ∧ dst.HoldsAt e.o bytes ∧
      e.dst.SameOutside dst e.o bytes.length := by
  have inside := room.trans dstTrue
  exact ⟨_, EncEngine.emit_inside room inside, Memory.writeList_holdsAt w inside, Memory.writeList_sameOutside w inside⟩

/-! ### One pixel (R143 to R154) -/

section pixel
variable {s : State} {px : Pixel}

/-- All a step of ENC with a pixel due does: the opcodes of `encChoice` go out and the registers follow it. -/
theorem encodeStep_of_pixelDue (due : s.PixelDue px) (runLe : s.enc.run.toNat ≤ 61) :
    ∃ t, encodeStep s = .next t ∧
      PixelDid s t px (encodeAll (s.encChoice px).1) (s.encChoice px).2.1 (s.encChoice px).2.2 := by
  obtain ⟨busy, left, fetched, room, dstTrue, w⟩ := due
  have short : (encodeAll (s.encChoice px).1).length ≤ 6 := length_encodePixel_le_six runLe
  obtain ⟨dst, emitted, written, kept⟩ := EncEngine.emit_effect
    (e := s.enc.consume px (s.encChoice px).2.1 (s.encChoice px).2.2) w
    (show s.enc.o + (encodeAll (s.encChoice px).1).length ≤ s.enc.dstCap by omega) dstTrue
  have moved : encodeStep s = .next (s.setEnc ((s.enc.consume px (s.encChoice px).2.1 (s.encChoice px).2.2).emitted
      dst (encodeAll (s.encChoice px).1).length)) := by
    rw [encodeStep_of_pixels_left busy left]
    simp only [encodeOnePixel, fetched, emitted]
  exact ⟨_, moved, rfl, written, kept⟩

/-- The same for a step whose choice is known. -/
theorem encodeStep_of_encChoice {ops : List Instr} {run : BitVec 6} {cache : Cache} (due : s.PixelDue px)
    (runLe : s.enc.run.toNat ≤ 61) (choice : s.encChoice px = (ops, run, cache)) :
    ∃ t, encodeStep s = .next t ∧ PixelDid s t px (encodeAll ops) run cache := by
  have step := encodeStep_of_pixelDue due runLe
  rwa [choice] at step

/-- A step with a pixel that differs from the previous one: the flush, then its opcode. -/
theorem encodeStep_of_ne {op : Instr} {cache : Cache} (due : s.PixelDue px) (runLe : s.enc.run.toNat ≤ 61)
    (ne : px ≠ s.enc.prev) (choice : chooseOpcode s.enc.prev s.enc.cache px = (op, cache)) :
    ∃ t, encodeStep s = .next t ∧ PixelDid s t px (flushBytes s.enc.run ++ encode op) 0#6 cache := by
  rw [← encodeAll_flushRun, ← encodeAll_concat]
  refine encodeStep_of_encChoice due runLe ?_
  rw [State.encChoice, encodePixel_of_ne ne, choice]

end pixel

/-- Settles O26: the two answers of a step with an equal pixel, by whether the run ends. -/
theorem equalPixelCountsIntoTheRun : Obligations.EqualPixelCountsIntoTheRun := by
  intro s px due same runLe
  by_cases ends : s.enc.run.toNat + 1 = 62 ∨ s.enc.i + 1 = s.encPixels
  case pos =>
    obtain ⟨t, moved, did⟩ := encodeStep_of_encChoice due runLe
      (encodePixel_of_run_ends runLe same (by simpa using ends))
    exact ⟨t, moved, fun _ => did, fun below notLast => absurd ends (not_or_intro below notLast)⟩
  case neg =>
    obtain ⟨below, notLast⟩ := not_or.mp ends
    obtain ⟨t, moved, did⟩ := encodeStep_of_encChoice due runLe
      (encodePixel_of_run_counts runLe same below (by simpa using notLast))
    exact ⟨t, moved, fun ended => absurd ended ends, fun _ _ => did⟩

/-- Settles O27: on a hit the opcode is INDEX, and the cache is as it was. -/
theorem cachedPixelGoesOutAsIndex : Obligations.CachedPixelGoesOutAsIndex :=
  fun _ _ due ne runLe hit => encodeStep_of_ne due runLe ne (chooseOpcode_of_hit hit)

/-- Settles O28: on a miss with another alpha the opcode is RGBA, and the pixel is stored. -/
theorem changedAlphaGoesOutAsRgba : Obligations.ChangedAlphaGoesOutAsRgba := by
  intro s px due ne runLe miss changed
  refine encodeStep_of_ne (op := .rgba px.r px.g px.b px.a) due runLe ne ?_
  rw [chooseOpcode_of_miss miss, chooseOnMiss_of_alpha_changed changed]

/-- Settles O29: the opcode is `chooseByDeltas` of the three deltas, range by range. -/
theorem missedPixelGoesOutAsDiffLumaOrRgb : Obligations.MissedPixelGoesOutAsDiffLumaOrRgb := by
  intro s px dr dg db due ne runLe miss kept red green blue
  obtain ⟨t, moved, did⟩ := encodeStep_of_ne due runLe ne (chooseOpcode_of_deltas miss kept red green blue)
  refine ⟨t, moved, fun diff => ?diff, fun notDiff luma => ?luma, fun notDiff notLuma => ?rgb⟩
  case diff =>
    rwa [chooseByDeltas, if_pos ((diffFits_iff ..).mpr diff)] at did
  case luma =>
    rwa [chooseByDeltas, if_neg (mt (diffFits_iff ..).mp notDiff), if_pos ((lumaFits_iff ..).mpr luma)] at did
  case rgb =>
    rwa [chooseByDeltas, if_neg (mt (diffFits_iff ..).mp notDiff), if_neg (mt (lumaFits_iff ..).mp notLuma)] at did

/-! ### The scan (R143) -/

/-- Without flip the scan reads the pixels in order. -/
theorem sourceAddress_unflipped (h : Header) (i : Nat) : sourceAddress h false i = i * h.channels.toNat := by
  simp [sourceAddress, sourceRow, Nat.div_add_mod']

theorem sourceAddress_of_row_column {h : Header} {x : Nat} (flip : Bool) (y : Nat) (column : x < h.width.toNat) :
    sourceAddress h flip (y * h.width.toNat + x) = (sourceRow h flip y * h.width.toNat + x) * h.channels.toNat := by
  have row : (y * h.width.toNat + x) / h.width.toNat = y := by
    rw [Nat.mul_comm, Nat.mul_add_div (Nat.zero_lt_of_lt column), Nat.div_eq_of_lt column, Nat.add_zero]
  have rest : (y * h.width.toNat + x) % h.width.toNat = x := Nat.mul_add_mod_of_lt column
  rw [sourceAddress, row, rest]

theorem fetchPixel_inside {m : Memory} {len k : Nat} {channels : Byte} (legal : channelsValid channels = true)
    (inside : k + channels.toNat ≤ len) (lenTrue : len ≤ m.size) :
    fetchPixel m len channels k = some
      { r := m.byteAt k
        g := m.byteAt (k + 1)
        b := m.byteAt (k + 2)
        a := if channels = 4#8 then m.byteAt (k + 3) else 255#8 } := by
  refine if_pos ?_
  simp only [Memory.covers, pixelWidth_eq legal, Bool.and_eq_true, decide_eq_true_iff]
  exact ⟨inside, inside.trans lenTrue⟩

/-- Settles O25: the row and the column are the quotient and the rest of the step index. -/
theorem pixelFetchFollowsTheScan : Obligations.PixelFetchFollowsTheScan := by
  refine ⟨fun s x y column row index k sy source address legal inside srcTrue => ?pixel, sourceAddress_unflipped⟩
  have scanned : sourceAddress s.hdr s.enc.flip s.enc.i = k := by
    rw [index, sourceAddress_of_row_column s.enc.flip y column, address, source, sourceRow]
  rw [State.encFetch, scanned, fetchPixel_inside legal inside srcTrue]
  simp only [byte_eq_ofNat_iff s.hdr.channels (n := 4) (by decide)]

/-! ### The start of ENCODE (R141, R142) -/

/-- All a start can answer a next state with. -/
theorem encodeStart_next {s t : State} (h : encodeStart s = .next t) :
    (∃ c, encodeCheck s.hdr s.enc.srcLen s.enc.dstCap = some c ∧ t = s.setEnc (s.enc.fail c.status)) ∨
    (encodeCheck s.hdr s.enc.srcLen s.enc.dstCap = none ∧
      ∃ e, s.enc.callStart.emit (hdrBytes s.hdr) = some e ∧ t = s.setEnc e) := by
  cases check : encodeCheck s.hdr s.enc.srcLen s.enc.dstCap with
  | some c =>
    cases (encodeStart_of_failed check).symm.trans h
    exact .inl ⟨c, rfl, rfl⟩
  | none =>
    simp only [encodeStart, check] at h
    split at h
    next e emitted =>
      cases h
      exact .inr ⟨rfl, e, emitted, rfl⟩
    · cases h

/-- All a start whose checks pass does: ENC at its call start, the header's 14 bytes at the front of its destination. -/
theorem encodeStart_of_passed {s : State} (passed : encodeCheck s.hdr s.enc.srcLen s.enc.dstCap = none)
    (w : s.enc.dst.wf = true) (dstTrue : s.enc.dstCap ≤ s.enc.dst.size) :
    ∃ dst, encodeStart s = .next (s.setEnc (s.enc.callStart.emitted dst headerLen)) ∧
      dst.bytesFrom 0 headerLen = hdrBytes s.hdr ∧ s.enc.dst.SameOutside dst 0 headerLen := by
  obtain ⟨-, -, capacity⟩ := (encodeCheck_none_iff _ _ _).mp passed
  have length : (hdrBytes s.hdr).length = headerLen := length_hdrBytes s.hdr
  have room : 0 + (hdrBytes s.hdr).length ≤ s.enc.dstCap := by
    simp only [worstCaseLength, minStreamLen] at capacity
    rw [length, headerLen]
    omega
  have inside := room.trans dstTrue
  have emitted := EncEngine.emit_inside (e := s.enc.callStart) room inside
  have written := Memory.bytesFrom_writeList w inside
  have kept := Memory.writeList_sameOutside w inside
  rw [length] at written kept emitted
  refine ⟨s.enc.dst.writeList 0 (hdrBytes s.hdr), ?_, written, kept⟩
  simp only [encodeStart, passed, emitted]
  rfl

/-- 60_exceptions.md R223, R226, R228: ENC after a failed ENCODE. -/
theorem encodeFailed_of_fail {s : State} (w : s.enc.dst.wf = true) (dstTrue : s.enc.dstCap ≤ s.enc.dst.size)
    (st : Status) : EncodeFailed s (s.setEnc (s.enc.fail st)) st := by
  refine ⟨rfl, rfl, rfl, ⟨rfl, rfl, rfl, rfl, rfl, rfl, rfl⟩, ⟨rfl, rfl, rfl, rfl⟩, Memory.fill_base w _ _,
    Memory.fill_content w _ _, Memory.fill_size w _ _, fun a above => ?_⟩
  exact (Memory.byteAt_fill w dstTrue _ a).trans (if_neg (Nat.not_lt.mpr above))

/-- A check that fails ends the command with the status of its cause (R141). -/
theorem encodeStart_fails {s : State} {c : Cause} (w : s.enc.dst.wf = true) (dstTrue : s.enc.dstCap ≤ s.enc.dst.size)
    (failed : encodeCheck s.hdr s.enc.srcLen s.enc.dstCap = some c) :
    ∃ t, encodeStart s = .next t ∧ EncodeFailed s t c.status :=
  ⟨_, encodeStart_of_failed failed, encodeFailed_of_fail w dstTrue c.status⟩

section checks
variable {h : Header} {srcLen dstCap : Nat}

theorem encodeCheck_of_invalid (invalid : hdrValid h = false) : encodeCheck h srcLen dstCap = some .encHeader := by
  simp [encodeCheck, invalid]

variable (valid : hdrValid h = true)
include valid

theorem encodeCheck_of_short_source (short : srcLen < rawLength h.width h.height h.channels) :
    encodeCheck h srcLen dstCap = some .encSource := by
  simp [encodeCheck, valid, short]

theorem encodeCheck_of_small_destination (long : rawLength h.width h.height h.channels ≤ srcLen)
    (small : dstCap < worstCaseLength h.width h.height h.channels) :
    encodeCheck h srcLen dstCap = some .encDestination := by
  simp [encodeCheck, valid, Nat.not_lt.mpr long, small]

end checks

/-- Settles O24: the first check that fails decides, and a start that passes all three writes the header. -/
theorem encodeChecksThenStarts : Obligations.EncodeChecksThenStarts := by
  intro s w dstTrue
  refine ⟨fun invalid => ?header, fun valid => ⟨fun short => ?source, fun long => ⟨fun small => ?destination,
    fun large => ?starts⟩⟩⟩
  case header => exact encodeStart_fails w dstTrue (encodeCheck_of_invalid invalid)
  case source => exact encodeStart_fails w dstTrue (encodeCheck_of_short_source valid short)
  case destination => exact encodeStart_fails w dstTrue (encodeCheck_of_small_destination valid long small)
  case starts =>
    obtain ⟨dst, started, written, kept⟩ :=
      encodeStart_of_passed ((encodeCheck_none_iff _ _ _).mpr ⟨valid, long, large⟩) w dstTrue
    exact ⟨_, started, rfl, Memory.holdsHeader_of_hdrBytes written, kept⟩

/-! ### The tail (R155) -/

theorem encodeStep_of_no_pixel_left {s : State} (busy : s.enc.busy = true) (done : s.encPixels ≤ s.enc.i) :
    encodeStep s = encodeEnd s := by
  simp [encodeStep, busy, Nat.not_lt.mpr done]

/-- Settles O31: the end marker goes out and the result registers are written. -/
theorem encodeTailWritesTheEndMarker : Obligations.EncodeTailWritesTheEndMarker := by
  intro s busy done room dstTrue w
  obtain ⟨dst, emitted, written, kept⟩ := EncEngine.emit_effect (bytes := endMarker) w room dstTrue
  have moved : encodeStep s = .next (s.setEnc (s.enc.emitted dst endMarker.length).finish) := by
    simp only [encodeStep_of_no_pixel_left busy done, encodeEnd, emitted]
  exact ⟨_, moved, rfl, written, kept⟩

/-! ### Three channels (R159) -/

/-- Settles O30: the fetched alpha is 255, as the previous one is, and RGBA needs a changed alpha. -/
theorem threeChannelsNeverEmitRgba : Obligations.ThreeChannelsNeverEmitRgba := by
  intro s px running busy three fetched
  obtain ⟨-, -, -, -, runLe, -, -, -, alpha⟩ := running busy
  have px255 := encFetch_alpha fetched (by rw [three]; decide)
  exact ⟨px255, encodePixel_ne_rgba runLe (px255.trans (alpha three).symm)⟩

/-! ### The previous pixel cached (R158 (d)) -/

theorem EncEngine.prevCached_of_emit {e e' : EncEngine} {bytes : List Byte} (h : e.emit bytes = some e')
    (cached : e.PrevCached) : e'.PrevCached := by
  obtain ⟨-, -, rfl⟩ := EncEngine.emit_some h
  exact cached

/-- Only a pixel that differs from the previous one can change the cache. -/
theorem cache_encodePixel (prev : Pixel) (run : BitVec 6) (cache : Cache) (last : Bool) (px : Pixel) :
    (encodePixel prev run cache last px).2.2 = if px = prev then cache else (chooseOpcode prev cache px).2 := by
  unfold encodePixel
  split_ifs <;> rfl

theorem encodeOnePixel_keeps_prevCached {s t : State} (h : encodeOnePixel s = .next t) (cached : s.enc.PrevCached) :
    t.enc.PrevCached := by
  obtain ⟨px, e, -, emitted, rfl⟩ := encodeOnePixel_next h
  refine EncEngine.prevCached_of_emit emitted ?_
  have cache : (s.encChoice px).2.2 = _ := cache_encodePixel ..
  by_cases same : px = s.enc.prev
  · rw [cache, if_pos same, same]
    exact cached
  · rw [cache, if_neg same]
    exact .inl cacheRead_chooseOpcode

theorem encodeStep_keeps_prevCached {s t : State} (h : encodeStep s = .next t)
    (cached : s.enc.busy = true → s.enc.PrevCached) (busy : t.enc.busy = true) : t.enc.PrevCached := by
  obtain ⟨-, rfl⟩ | ⟨running, -, pixel⟩ | ⟨-, -, tail⟩ := encodeStep_next h
  · exact cached busy
  · exact encodeOnePixel_keeps_prevCached pixel (cached running)
  · obtain ⟨e, -, rfl⟩ := encodeEnd_next tail
    cases busy

theorem encodeStart_prevCached {s t : State} (h : encodeStart s = .next t) (busy : t.enc.busy = true) :
    t.enc.PrevCached := by
  obtain ⟨c, -, rfl⟩ | ⟨-, e, emitted, rfl⟩ := encodeStart_next h
  · cases busy
  · exact EncEngine.prevCached_of_emit emitted (.inr ⟨rfl, rfl⟩)

theorem State.setSpace_enc_registers (s : State) (sp : SpaceName) (m : Memory) :
    (s.setSpace sp m).enc.prev = s.enc.prev ∧ (s.setSpace sp m).enc.cache = s.enc.cache := by
  cases sp <;> exact ⟨rfl, rfl⟩

/-- An act of the host that starts no ENC leaves a running ENC's registers alone. -/
theorem hostChange_keeps_prevCached {s t : State} (change : HostChange s t) (same : t.enc.busy = s.enc.busy)
    (cached : s.enc.busy = true → s.enc.PrevCached) (busy : t.enc.busy = true) : t.enc.PrevCached := by
  rw [same] at busy
  cases change with
  | enc e idle => simp [idle] at busy
  | nothing | hdr | dec | he | hd | ms => exact cached busy
  | byte sp a v =>
    obtain ⟨prev, cache⟩ := s.setSpace_enc_registers sp ((s.space sp).write a v)
    rw [EncEngine.PrevCached, prev, cache]
    exact cached busy

theorem hostAct_keeps_prevCached {op : HostOp} {s t : State} (h : hostAct op s = .next t)
    (cached : s.enc.busy = true → s.enc.PrevCached) (busy : t.enc.busy = true) : t.enc.PrevCached := by
  by_cases encode : op = .issue .encode
  · subst encode
    exact encodeStart_prevCached (issueCommand_next h).2 busy
  by_cases decode : op = .issue .decode
  · subst decode
    cases (decodeStart_eq s).symm.trans (issueCommand_next h).2
    exact cached busy
  exact hostChange_keeps_prevCached (hostChange_of_hostAct h) (hostAct_busy h encode decode).1 cached busy

theorem hostStep_keeps_prevCached {s t : State} (h : hostStep s = .next t)
    (cached : s.enc.busy = true → s.enc.PrevCached) (busy : t.enc.busy = true) : t.enc.PrevCached := by
  cases script : s.script with
  | nil =>
    cases (hostStep_of_script_nil script).symm.trans h
    exact cached busy
  | cons op rest =>
    exact hostAct_keeps_prevCached (s := s.setScript rest) ((hostStep_of_script_cons script).symm.trans h) cached busy

theorem moveAgent_keeps_prevCached {a : Agent} {s t : State} (h : moveAgent a s = .next t)
    (cached : s.enc.busy = true → s.enc.PrevCached) (busy : t.enc.busy = true) : t.enc.PrevCached := by
  cases a with
  | host => exact hostStep_keeps_prevCached h cached busy
  | enc => exact encodeStep_keeps_prevCached h cached busy
  | dec =>
    obtain ⟨d, rfl, -⟩ := decodeStep_sameInputs h
    exact cached busy

/-- Settles O41: a start clears both registers, a step leaves its pixel in the cache, the host changes neither. -/
theorem previousPixelStaysCached : Obligations.PreviousPixelStaysCached :=
  fun s _ cached h => moveAgent_keeps_prevCached (s := s.popTurn) h cached

/-! ### The invariant of a run (R157, R158; 43_opcode_decoder.md R197; 10_state.md R24 to R26) -/

/-! #### A unit replaced -/

section replaced
variable {s : State} (inv : s.Inv)
include inv

theorem State.inv_setEnc {e : EncEngine} (src : e.src.wf = true) (dst : e.dst.wf = true)
    (running : EncRunning s.hdr e) : (s.setEnc e).Inv := by
  obtain ⟨⟨-, -, others⟩, -, dec⟩ := inv
  exact ⟨⟨src, dst, others⟩, running, dec⟩

theorem State.inv_setDec {d : DecEngine} (src : d.src.wf = true) (dst : d.dst.wf = true) (running : DecRunning d) :
    (s.setDec d).Inv := by
  obtain ⟨⟨encSrc, encDst, -, -, others⟩, enc, -⟩ := inv
  exact ⟨⟨encSrc, encDst, src, dst, others⟩, enc, running⟩

theorem State.inv_setHe {u : HeUnit} (dst : u.dst.wf = true) : (s.setHe u).Inv := by
  obtain ⟨⟨encSrc, encDst, decSrc, decDst, -, hdSrc⟩, engines⟩ := inv
  exact ⟨⟨encSrc, encDst, decSrc, decDst, dst, hdSrc⟩, engines⟩

theorem State.inv_setHd {u : HdUnit} (src : u.src.wf = true) : (s.setHd u).Inv := by
  obtain ⟨⟨encSrc, encDst, decSrc, decDst, heDst, -⟩, engines⟩ := inv
  exact ⟨⟨encSrc, encDst, decSrc, decDst, heDst, src⟩, engines⟩

/-- The spaces of the two engines are canonical. -/
theorem State.engine_spaces_of_inv :
    (s.enc.src.wf = true ∧ s.enc.dst.wf = true) ∧ s.dec.src.wf = true ∧ s.dec.dst.wf = true := by
  obtain ⟨⟨encSrc, encDst, decSrc, decDst, -⟩, -⟩ := inv
  exact ⟨⟨encSrc, encDst⟩, decSrc, decDst⟩

end replaced

/-! #### ENC -/

theorem EncEngine.emit_keeps_wf {e e' : EncEngine} {bytes : List Byte} (h : e.emit bytes = some e')
    (src : e.src.wf = true) (dst : e.dst.wf = true) : e'.src.wf = true ∧ e'.dst.wf = true := by
  obtain ⟨-, -, rfl⟩ := EncEngine.emit_some h
  exact ⟨src, Memory.wf_writeList dst _ _⟩

theorem three_le_channels_of_encRunning {h : Header} {e : EncEngine} (running : EncRunning h e) (busy : e.busy = true) :
    3 ≤ h.channels.toNat := by
  obtain ⟨check, -⟩ := running busy
  obtain ⟨valid, -⟩ := (encodeCheck_none_iff _ _ _).mp check
  obtain ⟨-, channels, -⟩ := (hdrValid_iff _).mp valid
  obtain three | four := (channelsValid_iff _).mp channels
  · rw [three]
    decide
  · rw [four]
    decide

/-- R157, for one step: what it puts out and leaves pending is at most what its pixel and the run before it may
cost. -/
theorem length_encChoice_le {s : State} {px : Pixel} (running : EncRunning s.hdr s.enc) (busy : s.enc.busy = true)
    (fetched : s.encFetch = some px) :
    (encodeAll (s.encChoice px).1).length + (s.encChoice px).2.1.toNat * (s.hdr.channels.toNat + 1) ≤
      (s.enc.run.toNat + 1) * (s.hdr.channels.toNat + 1) := by
  have alpha := alpha_of_encRunning running busy fetched
  have three := three_le_channels_of_encRunning running busy
  obtain ⟨-, -, -, -, runLe, -⟩ := running busy
  exact length_encodePixel_le three (fun changed => by simp [alpha changed]) runLe

/-- R157, R158 (a), (c), R159 after a step. -/
theorem encodeOnePixel_keeps_encRunning {s t : State} (h : encodeOnePixel s = .next t)
    (running : EncRunning s.hdr s.enc) (busy : s.enc.busy = true) (left : s.enc.i < s.encPixels) :
    EncRunning t.hdr t.enc := by
  obtain ⟨px, e, fetched, emitted, rfl⟩ := encodeOnePixel_next h
  have cost := length_encChoice_le running busy fetched
  obtain ⟨-, -, rfl⟩ := EncEngine.emit_some emitted
  obtain ⟨check, srcTrue, dstTrue, -, runLe, oGe, bound, -, -⟩ := running busy
  obtain ⟨newRunLe, lastRun⟩ : (s.encChoice px).2.1.toNat ≤ 61 ∧ ((s.enc.i + 1 == s.encPixels) = true →
    (s.encChoice px).2.1 = 0#6) := run_encodePixel runLe
  have newBound : s.enc.o + (encodeAll (s.encChoice px).1).length +
      (s.encChoice px).2.1.toNat * (s.hdr.channels.toNat + 1) ≤
        14 + (s.enc.i + 1) * (s.hdr.channels.toNat + 1) := by
    rw [Nat.succ_mul] at cost ⊢
    omega
  exact fun _ => ⟨check, srcTrue, dstTrue.trans_eq (Memory.writeList_size _ _ _).symm, left, newRunLe,
    oGe.trans (Nat.le_add_right _ _), newBound, fun last => lastRun (beq_iff_eq.mpr last),
    fun three => encFetch_alpha fetched (by simp only [State.setEnc_hdr] at three; rw [three]; decide)⟩

theorem encodeStep_keeps_inv {s t : State} (h : encodeStep s = .next t) (inv : s.Inv) : t.Inv := by
  obtain ⟨⟨src, dst⟩, -⟩ := State.engine_spaces_of_inv inv
  have running : EncRunning s.hdr s.enc := inv.2.1
  obtain ⟨-, rfl⟩ | ⟨busy, left, pixel⟩ | ⟨-, -, tail⟩ := encodeStep_next h
  · exact inv
  · have kept := encodeOnePixel_keeps_encRunning pixel running busy left
    obtain ⟨px, e, -, emitted, rfl⟩ := encodeOnePixel_next pixel
    obtain ⟨newSrc, newDst⟩ := EncEngine.emit_keeps_wf emitted src dst
    exact State.inv_setEnc inv newSrc newDst kept
  · obtain ⟨e, emitted, rfl⟩ := encodeEnd_next tail
    obtain ⟨newSrc, newDst⟩ := EncEngine.emit_keeps_wf emitted src dst
    exact State.inv_setEnc inv newSrc newDst (encRunning_of_idle rfl _)

/-- A start that passes its checks, with true lengths, meets the invariant (R142). -/
theorem encRunning_of_start {h : Header} {e e' : EncEngine} (check : encodeCheck h e.srcLen e.dstCap = none)
    (srcTrue : e.srcLen ≤ e.src.size) (dstTrue : e.dstCap ≤ e.dst.size)
    (emitted : e.callStart.emit (hdrBytes h) = some e') : EncRunning h e' := by
  obtain ⟨-, -, rfl⟩ := EncEngine.emit_some emitted
  exact fun _ => ⟨check, srcTrue, dstTrue.trans_eq (Memory.writeList_size _ _ _).symm, Nat.zero_le _, Nat.zero_le 61,
    le_refl 14, by simp [EncEngine.emitted, EncEngine.callStart, length_hdrBytes], fun _ => rfl, fun _ => rfl⟩

theorem encode_lengthsTrue {s : State} (accepted : launchRefusal .encode s = none) :
    s.enc.srcLen ≤ s.enc.src.size ∧ s.enc.dstCap ≤ s.enc.dst.size := by
  obtain ⟨-, lengths, -⟩ := launchRefusal_none accepted
  simpa [State.statedLengths] using (firstUntrue_none_iff _).mp lengths

theorem encodeStart_keeps_inv {s t : State} (accepted : launchRefusal .encode s = none) (h : encodeStart s = .next t)
    (inv : s.Inv) : t.Inv := by
  obtain ⟨⟨src, dst⟩, -⟩ := State.engine_spaces_of_inv inv
  obtain ⟨srcTrue, dstTrue⟩ := encode_lengthsTrue accepted
  obtain ⟨c, -, rfl⟩ | ⟨check, e, emitted, rfl⟩ := encodeStart_next h
  · exact State.inv_setEnc inv src (Memory.wf_fill dst _ _) (encRunning_of_idle rfl _)
  · obtain ⟨newSrc, newDst⟩ := EncEngine.emit_keeps_wf emitted src dst
    exact State.inv_setEnc inv newSrc newDst (encRunning_of_start check srcTrue dstTrue emitted)

/-! #### DEC -/

theorem DecEngine.wf_of_fetch {d : DecEngine} {i : Instr} (fetched : d.fetch = .ok i) : i.wf = true := by
  unfold DecEngine.fetch at fetched
  split at fetched
  next b1 _ =>
    split at fetched
    next bytes _ =>
      split at fetched
      next j rest decoded =>
        cases fetched
        exact (encode_of_decode decoded).1
      · cases fetched
    · cases fetched
  · cases fetched

/-- An opcode changes only the cursor, the pixel, the run counter and the cache. -/
theorem decAfter_eq (i : Instr) (d : DecEngine) :
    decAfter i d = { d with
      p := d.p + (encode i).length, px := (decAfter i d).px, run := (decAfter i d).run
      cache := (decAfter i d).cache } := by
  cases i <;> rfl

/-- 10_state.md R25: RUN stands for at most 62 pixels, its own step among them. -/
theorem decAfter_run_le {i : Instr} {d : DecEngine} (wf : i.wf = true) (runLe : d.run.toNat ≤ 61) :
    (decAfter i d).run.toNat ≤ 61 := by
  cases i with
  | run n =>
    simp only [Instr.wf, Bool.and_eq_true, decide_eq_true_iff] at wf
    simp only [decAfter, DecEngine.setRun_run, BitVec.toNat_ofNat]
    omega
  | index | diff | luma | rgb | rgba => exact runLe

/-- R197: the fetch guard leaves the longest opcode and 4 bytes more. -/
theorem decRunning_decAfter {d : DecEngine} {i : Instr} (mayFetch : d.mayFetch = true) (fetched : d.fetch = .ok i)
    (running : DecRunning d) : DecRunning (decAfter i d) := by
  have guard : d.p + endLen < d.srcLen := of_decide_eq_true mayFetch
  simp only [endLen] at guard
  have five := (length_encode_pos_and_le i).2
  have run := decAfter_run_le (d := d) (DecEngine.wf_of_fetch fetched)
  rw [decAfter_eq]
  intro busy
  obtain ⟨check, srcTrue, dstTrue, iLe, pGe, -, runLe⟩ := running busy
  exact ⟨check, srcTrue, dstTrue, iLe, pGe.trans (Nat.le_add_right _ _), by dsimp only; omega, run runLe⟩

theorem decRunning_runPath {d : DecEngine} (pending : d.run ≠ 0#6) (running : DecRunning d) :
    DecRunning (d.setRun (d.run - 1#6)) := by
  intro busy
  obtain ⟨check, srcTrue, dstTrue, iLe, pGe, pLe, runLe⟩ := running busy
  have positive : d.run.toNat ≠ 0 := mt (toNat_eq_zero_iff d.run).mp pending
  have down : (d.run - 1#6).toNat ≤ 61 := by
    rw [BitVec.toNat_sub]
    simp only [BitVec.toNat_ofNat]
    omega
  exact ⟨check, srcTrue, dstTrue, iLe, pGe, pLe, down⟩

/-- A pixel store keeps DEC's invariant and its spaces canonical (R193). -/
theorem storePixel_keeps_inv {s t : State} (h : storePixel s = .next t) (left : s.dec.i < s.dec.pixels)
    (inv : s.Inv) : t.Inv := by
  obtain ⟨-, src, dst⟩ := State.engine_spaces_of_inv inv
  have running : DecRunning s.dec := inv.2.2
  obtain ⟨-, -, rfl⟩ := storePixel_next h
  refine State.inv_setDec inv src (Memory.wf_writeList dst _ _) fun busy => ?_
  obtain ⟨check, srcTrue, dstTrue, -, cursorAndRun⟩ := running busy
  exact ⟨check, srcTrue, dstTrue.trans_eq (Memory.writeList_size _ _ _).symm, left, cursorAndRun⟩

theorem decodeOnePixel_keeps_inv {s t : State} (h : decodeOnePixel s = .next t) (left : s.dec.i < s.dec.pixels)
    (inv : s.Inv) : t.Inv := by
  obtain ⟨-, src, dst⟩ := State.engine_spaces_of_inv inv
  have running : DecRunning s.dec := inv.2.2
  obtain ⟨pending, stored⟩ | ⟨-, mayFetch, i, fetched, stored⟩ | ⟨-, -, rfl⟩ := decodeOnePixel_next h
  · exact storePixel_keeps_inv (s := runPath s) stored left
      (State.inv_setDec inv src dst (decRunning_runPath pending running))
  · have kept := decRunning_decAfter mayFetch fetched running
    rw [decAfter_eq] at stored kept
    exact storePixel_keeps_inv stored left (State.inv_setDec inv src dst kept)
  · exact State.inv_setDec inv src (Memory.wf_fill dst _ _) (decRunning_of_idle rfl)

theorem decodeStep_keeps_inv {s t : State} (h : decodeStep s = .next t) (inv : s.Inv) : t.Inv := by
  obtain ⟨-, src, dst⟩ := State.engine_spaces_of_inv inv
  obtain ⟨-, rfl⟩ | ⟨-, left, slot⟩ | ⟨-, -, rfl⟩ := decodeStep_next h
  · exact inv
  · exact decodeOnePixel_keeps_inv slot left inv
  · exact State.inv_setDec inv src dst (decRunning_of_idle rfl)

theorem DecEngine.launched_keeps_wf {d : DecEngine} (src : d.src.wf = true) (dst : d.dst.wf = true) :
    d.launched.src.wf = true ∧ d.launched.dst.wf = true := by
  unfold DecEngine.launched
  split
  · exact ⟨src, Memory.wf_fill dst _ _⟩
  · exact ⟨src, dst⟩

/-- A launch of DECODE with true lengths fails or meets the invariant (43_opcode_decoder.md R181, R182). -/
theorem decRunning_launched {d : DecEngine} (srcTrue : d.srcLen ≤ d.src.size) (dstTrue : d.dstCap ≤ d.dst.size) :
    DecRunning d.launched := by
  unfold DecEngine.launched
  split
  next => exact decRunning_of_idle rfl
  next check =>
    obtain ⟨long, -⟩ := (decodeCheck_none_iff _ _ _ _ _).mp check
    have room : 14 + 4 ≤ d.srcLen := le_trans (by decide) long
    exact fun _ => ⟨check, srcTrue, dstTrue, Nat.zero_le _, le_refl 14, room, Nat.zero_le 61⟩

theorem decodeStart_keeps_inv {s t : State} (accepted : launchRefusal .decode s = none) (h : decodeStart s = .next t)
    (inv : s.Inv) : t.Inv := by
  obtain ⟨-, src, dst⟩ := State.engine_spaces_of_inv inv
  obtain ⟨-, lengths, -⟩ := launchRefusal_none accepted
  obtain ⟨srcTrue, dstTrue⟩ : s.dec.srcLen ≤ s.dec.src.size ∧ s.dec.dstCap ≤ s.dec.dst.size := by
    simpa [State.statedLengths] using (firstUntrue_none_iff _).mp lengths
  cases (decodeStart_eq s).symm.trans h
  obtain ⟨newSrc, newDst⟩ := DecEngine.launched_keeps_wf src dst
  exact State.inv_setDec inv newSrc newDst (decRunning_launched srcTrue dstTrue)

/-! #### The host -/

theorem Memory.wf_of_store {m m' : Memory} {cap a : Nat} {bs : List Byte} (h : m.store cap a bs = some m')
    (w : m.wf = true) : m'.wf = true := by
  obtain ⟨-, -, rfl⟩ := Memory.store_cases h
  exact Memory.wf_writeList w a bs

theorem encodeHeader_keeps_inv {s t : State} (h : encodeHeader s = .next t) (inv : s.Inv) : t.Inv := by
  obtain ⟨-, -, -, -, heDst, -⟩ : s.SpacesCanonical := inv.1
  unfold encodeHeader at h
  split at h
  · split at h
    next dst stored =>
      cases h
      exact State.inv_setHe inv (Memory.wf_of_store stored heDst)
    · cases h
  · cases h
    exact State.inv_setHe inv heDst

theorem decodeHeader_keeps_inv {s t : State} (h : decodeHeader s = .next t) (inv : s.Inv) : t.Inv := by
  obtain ⟨-, -, -, -, -, hdSrc⟩ : s.SpacesCanonical := inv.1
  cases h.symm.trans (decodeHeader_eq (room_of_decodeHeader h))
  exact State.inv_setHd inv (by rw [s.hd.decoded_keeps_source.1]; exact hdSrc)

theorem issueCommand_keeps_inv {c : Command} {s t : State} (h : issueCommand c s = .next t) (inv : s.Inv) : t.Inv := by
  obtain ⟨accepted, run⟩ := issueCommand_next h
  cases c with
  | encodeHeader => exact encodeHeader_keeps_inv run inv
  | decodeHeader => exact decodeHeader_keeps_inv run inv
  | maxSize => cases run; exact inv
  | encode => exact encodeStart_keeps_inv accepted run inv
  | decode => exact decodeStart_keeps_inv accepted run inv

section exchanged
variable {m : Memory}

theorem encRunning_setSrc {h : Header} {e : EncEngine} (running : EncRunning h e)
    (size : e.busy = true → m.size = e.src.size) : EncRunning h (e.setSrc m) := by
  intro busy
  obtain ⟨check, srcTrue, others⟩ := running busy
  exact ⟨check, srcTrue.trans_eq (size busy).symm, others⟩

theorem encRunning_setDst {h : Header} {e : EncEngine} (running : EncRunning h e)
    (size : e.busy = true → m.size = e.dst.size) : EncRunning h (e.setDst m) := by
  intro busy
  obtain ⟨check, srcTrue, dstTrue, others⟩ := running busy
  exact ⟨check, srcTrue, dstTrue.trans_eq (size busy).symm, others⟩

theorem decRunning_setSrc {d : DecEngine} (running : DecRunning d) (size : d.busy = true → m.size = d.src.size) :
    DecRunning (d.setSrc m) := by
  intro busy
  obtain ⟨check, srcTrue, others⟩ := running busy
  exact ⟨check, srcTrue.trans_eq (size busy).symm, others⟩

theorem decRunning_setDst {d : DecEngine} (running : DecRunning d) (size : d.busy = true → m.size = d.dst.size) :
    DecRunning (d.setDst m) := by
  intro busy
  obtain ⟨check, srcTrue, dstTrue, others⟩ := running busy
  exact ⟨check, srcTrue, dstTrue.trans_eq (size busy).symm, others⟩

/-- A canonical buffer in a space's place keeps the invariant, of the same size where a command runs. -/
theorem setSpace_keeps_inv {s : State} {sp : SpaceName} (inv : s.Inv) (w : m.wf = true)
    (size : s.spaceBusy sp = true → m.size = (s.space sp).size) : (s.setSpace sp m).Inv := by
  obtain ⟨⟨encSrc, encDst⟩, decSrc, decDst⟩ := State.engine_spaces_of_inv inv
  have enc : EncRunning s.hdr s.enc := inv.2.1
  have dec : DecRunning s.dec := inv.2.2
  cases sp with
  | encSrc => exact State.inv_setEnc inv w encDst (encRunning_setSrc enc size)
  | encDst => exact State.inv_setEnc inv encSrc w (encRunning_setDst enc size)
  | decSrc => exact State.inv_setDec inv w decDst (decRunning_setSrc dec size)
  | decDst => exact State.inv_setDec inv decSrc w (decRunning_setDst dec size)
  | heDst => exact State.inv_setHe inv w
  | hdSrc => exact State.inv_setHd inv w

end exchanged

theorem State.wf_space {s : State} (canonical : s.SpacesCanonical) (sp : SpaceName) : (s.space sp).wf = true := by
  obtain ⟨encSrc, encDst, decSrc, decDst, heDst, hdSrc⟩ := canonical
  cases sp <;> assumption

theorem hostAct_keeps_inv {op : HostOp} {s t : State} (h : hostAct op s = .next t) (inv : s.Inv) : t.Inv := by
  obtain ⟨⟨encSrc, encDst⟩, decSrc, decDst⟩ := State.engine_spaces_of_inv inv
  have canonical : s.SpacesCanonical := inv.1
  cases op with
  | setHdr header =>
    obtain ⟨idle, rfl⟩ := unlessBusy_next h
    exact ⟨canonical, encRunning_of_idle idle header, inv.2.2⟩
  | setEnc flip srcLen dstCap =>
    obtain ⟨idle, rfl⟩ := unlessBusy_next h
    exact State.inv_setEnc inv encSrc encDst (encRunning_of_idle (e := s.enc.setParams flip srcLen dstCap) idle _)
  | setDec width height channels srcLen dstCap =>
    obtain ⟨idle, rfl⟩ := unlessBusy_next h
    exact State.inv_setDec inv decSrc decDst
      (decRunning_of_idle (d := s.dec.setParams width height channels srcLen dstCap) idle)
  | setHd => cases h; exact inv
  | give sp =>
    obtain ⟨idle, -, rfl⟩ := hostGive_next h
    exact setSpace_keeps_inv inv (Memory.wf_ofBytes _ _ _) fun busy => by simp [idle] at busy
  | writeByte sp =>
    obtain ⟨-, -, rfl⟩ := hostWrite_next h
    exact setSpace_keeps_inv inv (Memory.wf_write (State.wf_space canonical sp) _ _) fun _ => Memory.write_size _ _ _
  | readByte => cases hostRead_next h; exact inv
  | passStream =>
    obtain ⟨idle, rfl⟩ := unlessBusy_next h
    exact State.inv_setDec inv (Memory.wf_firstBytes encDst _) decDst
      (decRunning_of_idle (d := (passStream s).dec) (Bool.or_eq_false_iff.mp idle).2)
  | issue c => exact issueCommand_keeps_inv h inv

theorem hostStep_keeps_inv {s t : State} (h : hostStep s = .next t) (inv : s.Inv) : t.Inv := by
  cases script : s.script with
  | nil =>
    cases (hostStep_of_script_nil script).symm.trans h
    exact inv
  | cons op rest =>
    exact hostAct_keeps_inv (s := s.setScript rest) ((hostStep_of_script_cons script).symm.trans h) inv

theorem moveAgent_keeps_inv {a : Agent} {s t : State} (h : moveAgent a s = .next t) (inv : s.Inv) : t.Inv := by
  cases a with
  | host => exact hostStep_keeps_inv h inv
  | enc => exact encodeStep_keeps_inv h inv
  | dec => exact decodeStep_keeps_inv h inv

/-- Settles O43: each agent's move keeps the invariant, ENC's by the size bound of one step. -/
theorem stepKeepsTheInvariant : Obligations.StepKeepsTheInvariant :=
  fun s _ inv h => moveAgent_keeps_inv (s := s.popTurn) h inv

/-! ### Completion within the size bound (R157, R160) -/

/-- A chain of moves made one longer at its end. -/
theorem moves_succ {f : State → Host.Outcome State Fault Refusal} {k : Nat} {s t : State}
    (reached : moves f k s = .next t) : moves f (k + 1) s = f t := by
  induction k generalizing s with
  | zero =>
    cases reached
    simp only [moves]
    cases f t <;> rfl
  | succ k ih =>
    simp only [moves] at reached ⊢
    cases first : f s with
    | next u =>
      rw [first] at reached
      exact ih reached
    | fault r => simp [first] at reached
    | refused r => simp [first] at reached

/-- ENC in an ENCODE of this header with `k` pixels encoded; the first of them has put out a byte or is pending. -/
structure PixelsEncoded (h : Header) (k : Nat) (s : State) : Prop where
  hdr : s.hdr = h
  running : EncRunning h s.enc
  busy : s.enc.busy = true
  count : s.enc.i = k
  progress : 0 < k → 15 ≤ s.enc.o + s.enc.run.toNat

theorem encodeStart_pixelsEncoded {s : State} (accepted : launchRefusal .encode s = none)
    (check : encodeCheck s.hdr s.enc.srcLen s.enc.dstCap = none) :
    ∃ t, encodeStart s = .next t ∧ PixelsEncoded s.hdr 0 t := by
  obtain ⟨srcTrue, dstTrue⟩ := encode_lengthsTrue accepted
  obtain ⟨t, started⟩ := encodeStart_answers (s := s) dstTrue
  refine ⟨t, started, ?_⟩
  obtain ⟨c, failed, -⟩ | ⟨-, e, emitted, rfl⟩ := encodeStart_next started
  · cases check.symm.trans failed
  · have running := encRunning_of_start check srcTrue dstTrue emitted
    obtain ⟨-, -, rfl⟩ := EncEngine.emit_some emitted
    exact ⟨rfl, running, rfl, rfl, nofun⟩

section encoded
variable {h : Header} {k : Nat} {s : State}

/-- R160: a step with a pixel left consumes it. -/
theorem PixelsEncoded.step (encoded : PixelsEncoded h k s) (left : k < pixelCount h.width h.height) :
    ∃ t, encodeStep s = .next t ∧ PixelsEncoded h (k + 1) t := by
  obtain ⟨rfl, running, busy, rfl, -⟩ := encoded
  obtain ⟨t, moved⟩ := encodeOnePixel_answers running busy left
  refine ⟨t, (encodeStep_of_pixels_left busy left).trans moved, ?_⟩
  have kept := encodeOnePixel_keeps_encRunning moved running busy left
  obtain ⟨-, -, -, -, runLe, oGe, -⟩ := running busy
  obtain ⟨px, e, -, emitted, rfl⟩ := encodeOnePixel_next moved
  obtain ⟨-, -, rfl⟩ := EncEngine.emit_some emitted
  have progress : 1 ≤ (encodeAll (s.encChoice px).1).length + (s.encChoice px).2.1.toNat := encodePixel_progress runLe
  have newProgress : 15 ≤ s.enc.o + (encodeAll (s.encChoice px).1).length + (s.encChoice px).2.1.toNat := by omega
  exact ⟨rfl, kept, busy, rfl, fun _ => newProgress⟩

theorem PixelsEncoded.exists_moves (encoded : PixelsEncoded h 0 s) (le : k ≤ pixelCount h.width h.height) :
    ∃ t, moves encodeStep k s = .next t ∧ PixelsEncoded h k t := by
  induction k with
  | zero => exact ⟨s, rfl, encoded⟩
  | succ k ih =>
    obtain ⟨t, reached, here⟩ := ih (Nat.le_of_succ_le le)
    obtain ⟨u, moved, there⟩ := here.step le
    exact ⟨u, (moves_succ reached).trans moved, there⟩

/-- R155, R157: with every pixel encoded the tail ends the command, at least one byte and at most the bound longer than
the header and the end marker. -/
theorem PixelsEncoded.tail (encoded : PixelsEncoded h (pixelCount h.width h.height) s)
    (nonempty : 0 < pixelCount h.width h.height) :
    ∃ t, encodeStep s = .next t ∧ t.enc.busy = false ∧ t.enc.status = .ok ∧ 23 ≤ t.enc.outLen ∧
      t.enc.outLen ≤ worstCaseLength h.width h.height h.channels := by
  obtain ⟨rfl, running, busy, count, progress⟩ := encoded
  have done : s.encPixels ≤ s.enc.i := Nat.le_of_eq count.symm
  obtain ⟨t, moved⟩ := encodeEnd_answers running busy done
  refine ⟨t, (encodeStep_of_no_pixel_left busy done).trans moved, ?_⟩
  obtain ⟨-, -, -, -, -, -, bound, noRun, -⟩ := running busy
  have written := progress nonempty
  rw [noRun count] at written bound
  rw [count] at bound
  obtain ⟨e, emitted, rfl⟩ := encodeEnd_next moved
  obtain ⟨-, -, rfl⟩ := EncEngine.emit_some emitted
  have low : 23 ≤ s.enc.o + 8 := Nat.add_le_add_right written 8
  have high : s.enc.o + 8 ≤ worstCaseLength s.hdr.width s.hdr.height s.hdr.channels := by
    have atEnd : s.enc.o ≤ 14 + pixelCount s.hdr.width s.hdr.height * (s.hdr.channels.toNat + 1) := by
      simpa using bound
    simp only [worstCaseLength, minStreamLen]
    omega
  exact ⟨rfl, rfl, low, high⟩

end encoded

theorem pixelCount_pos_of_hdrValid {h : Header} (valid : hdrValid h = true) : 0 < pixelCount h.width h.height := by
  obtain ⟨dims, -⟩ := (hdrValid_iff h).mp valid
  obtain ⟨width, height, -⟩ := (dimsValid_iff _ _).mp dims
  exact Nat.mul_pos (Nat.pos_of_ne_zero width) (Nat.pos_of_ne_zero height)

/-- Settles O32: by induction on the pixels encoded (`PixelsEncoded`), then the tail. -/
theorem encodeCompletesWithinTheBound : Obligations.EncodeCompletesWithinTheBound := by
  intro s _ accepted check
  obtain ⟨valid, -⟩ := (encodeCheck_none_iff _ _ _).mp check
  obtain ⟨t, started, encoded⟩ := encodeStart_pixelsEncoded accepted check
  have issued : issueCommand .encode s = .next t := by
    simp only [issueCommand, accepted, runCommand, started]
  refine ⟨t, issued, fun k le => ?pixels, ?tail⟩
  case pixels =>
    obtain ⟨u, reached, here⟩ := encoded.exists_moves le
    exact ⟨u, reached, here.busy, here.count⟩
  case tail =>
    obtain ⟨u, reached, here⟩ := encoded.exists_moves (le_refl _)
    obtain ⟨v, moved, result⟩ := here.tail (pixelCount_pos_of_hdrValid valid)
    exact ⟨v, (moves_succ reached).trans moved, result⟩

end Sys2Proof.Machine
end

section
/-! PROOFS. 43_opcode_decoder.md: what each opcode does to DEC (R186 to R192), and the slots that hash home. -/

namespace Sys2Proof.Machine

/-! ### What an opcode does (R183, R192) -/

/-- R192: whichever of the six it was. -/
@[simp] theorem decAfter_cache (i : Instr) (d : DecEngine) :
    (decAfter i d).cache = cacheWrite d.cache (decAfter i d).px := by
  cases i <;> rfl

/-- An opcode loads the cursor, the pixel and the run counter of `decAfter`, and writes the pixel to the slot of the
spec's sum. -/
theorem opcodeDid_decAfter (i : Instr) (s : State) :
    OpcodeDid s (s.setDec (decAfter i s.dec)) (encode i).length (decAfter i s.dec).px (decAfter i s.dec).run := by
  refine ⟨congrArg s.setDec (decAfter_eq i s.dec), fun h => ?_⟩
  rw [State.setDec_dec, decAfter_cache, cacheRead_cacheWrite]
  simp only [Fin.ext_iff, val_pixelHash]

theorem exec_did (i : Instr) (s : State) :
    ∃ t, exec i s = .next t ∧
      OpcodeDid s t (encode i).length (decAfter i s.dec).px (decAfter i s.dec).run :=
  ⟨_, exec_eq i s, opcodeDid_decAfter i s⟩

/-! ### The six opcodes, from their bytes (R186 to R191) -/

/-- Settles O5: INDEX's byte decodes to it, and its pixel is the slot's. -/
theorem indexLoadsTheSlot : Obligations.IndexLoadsTheSlot := fun s slot =>
  ⟨decode_encode (i := .index slot) rfl [], exec_did (.index slot) s⟩

/-- Settles O6: the deltas are the stored fields less 2, added by `add8`. -/
theorem diffMovesThePixelByItsFields : Obligations.DiffMovesThePixelByItsFields := by
  intro s b1 tag
  obtain ⟨t, done, did⟩ := exec_did (diffOf b1) s
  refine ⟨_, _, _, t, _, decode_of_tag_diff [] (by omega) (by rw [twoBitTag_eq, tag]), done, did, ?_, ?_, ?_, rfl⟩
  all_goals
    simp only [diffOf, decAfter, DecEngine.retire_px, addDeltas, toNat_add8, bitField]
    omega

/-- Settles O7: green moves by the first field less 32, red and blue by that and their own field less 8. -/
theorem lumaMovesThePixelByItsFields : Obligations.LumaMovesThePixelByItsFields := by
  intro s b1 b2 tag
  have byte := b2.isLt
  obtain ⟨t, done, did⟩ := exec_did (lumaOf b1 b2) s
  refine ⟨_, _, _, t, _, decode_of_tag_luma [] (by omega) (by rw [twoBitTag_eq, tag]) b2, done, did, ?field, ?red,
    toNat_add8 _ _, ?blue, rfl⟩
  case field => simp [bitField]
  all_goals
    simp only [lumaOf, decAfter, DecEngine.retire_px, addDeltas, toNat_add8, bitField]
    omega

/-- Settles O8: below 0xFE the tag 11 is a RUN, of one pixel more than its payload. -/
theorem runLoadsTheCounter : Obligations.RunLoadsTheCounter := by
  intro s b1 tag below
  have payload : bitField b1 0 6 = b1.toNat % 64 := by simp [bitField]
  have decoded := decode_of_tag_run (b1 := b1) [] below (by rw [twoBitTag_eq, tag])
  rw [payload] at decoded
  obtain ⟨t, done, did⟩ := exec_did (.run (b1.toNat % 64 + 1)) s
  exact ⟨_, t, decoded, rfl, done, did⟩

/-- Settles O9: the three bytes are the channels, alpha is the previous one. -/
theorem rgbLoadsThreeChannels : Obligations.RgbLoadsThreeChannels := fun s r g b =>
  ⟨decode_encode (i := .rgb r g b) rfl [], exec_did (.rgb r g b) s⟩

/-- Settles O10: the four bytes are the pixel. -/
theorem rgbaLoadsFourChannels : Obligations.RgbaLoadsFourChannels := fun s r g b a =>
  ⟨decode_encode (i := .rgba r g b a) rfl [], exec_did (.rgba r g b a) s⟩

/-! ### What an opcode leaves unchanged (R186 to R192; 10_state.md R32) -/

theorem decAfter_sameOutsideRegisters (i : Instr) (d : DecEngine) : d.SameOutsideRegisters (decAfter i d) := by
  rw [decAfter_eq]
  exact ⟨rfl, rfl, rfl, rfl, rfl, rfl, rfl, rfl, rfl, rfl, rfl⟩

theorem decAfter_i (i : Instr) (d : DecEngine) : (decAfter i d).i = d.i := by
  rw [decAfter_eq]

theorem decAfter_run {i : Instr} (notRun : ∀ n, i ≠ .run n) (d : DecEngine) : (decAfter i d).run = d.run := by
  cases i with
  | run n => exact absurd rfl (notRun n)
  | index | diff | luma | rgb | rgba => rfl

theorem decAfter_alpha {i : Instr} (notIndex : ∀ slot, i ≠ .index slot) (notRgba : ∀ r g b a, i ≠ .rgba r g b a)
    (d : DecEngine) : (decAfter i d).px.a = d.px.a := by
  cases i with
  | index slot => exact absurd rfl (notIndex slot)
  | rgba r g b a => exact absurd rfl (notRgba r g b a)
  | diff | luma | run | rgb => rfl

/-- No opcode stores: the six spaces are as they were. -/
theorem space_setDec_decAfter (s : State) (i : Instr) (sp : SpaceName) :
    (s.setDec (decAfter i s.dec)).space sp = s.space sp := by
  rw [decAfter_eq]
  cases sp <;> rfl

/-- Settles O12: `exec_eq`, register by register. -/
theorem opcodeFrame : Obligations.OpcodeFrame := by
  intro i s t done
  cases (exec_eq i s).symm.trans done
  refine ⟨⟨rfl, rfl, rfl, rfl, rfl, rfl, rfl⟩, decAfter_sameOutsideRegisters i s.dec, decAfter_i i s.dec,
    fun sp a => ?spaces, fun h other => ?slots, fun notRun => decAfter_run notRun s.dec,
    fun notIndex notRgba => decAfter_alpha notIndex notRgba s.dec, ?run⟩
  case spaces => rw [space_setDec_decAfter]
  case slots =>
    rw [State.setDec_dec, decAfter_cache, cacheRead_cacheWrite]
    exact if_neg other
  case run =>
    rintro ⟨n, rfl⟩
    rfl

end Sys2Proof.Machine
end

section
/-! PROOFS. 43_opcode_decoder.md: the start (R181, R182), the fetch (R184), the run path and the pixel store (R183,
R193), exhaustion (R185), the end (R194), what a step does not depend on (R195, R200), and termination (R198). -/

namespace Sys2Proof.Machine

/-! ### The pixel store (R193) -/

theorem pixelBytes_eq (c : Byte) (p : Pixel) :
    pixelBytes c p = if c.toNat = 4 then [p.r, p.g, p.b, p.a] else [p.r, p.g, p.b] := by
  simp only [pixelBytes, byte_eq_ofNat_iff c (n := 4) (by decide)]

theorem slotDid_iff (d e : DecEngine) (px : Pixel) :
    SlotDid d e px ↔ e.i = d.i + 1 ∧ e.dst.HoldsAt d.slotAddress (pixelBytes d.channels px) ∧
      d.dst.SameOutside e.dst d.slotAddress d.channels.toNat := by
  rw [pixelBytes_eq]
  exact Iff.rfl

theorem slotInside_of_slotOpen {d : DecEngine} (slot : d.SlotOpen) : d.SlotInside := by
  obtain ⟨-, -, legal, capacity, dstTrue, -⟩ := slot
  have inside : d.slotAddress + pixelWidth d.channels ≤ d.dstCap := by
    rw [pixelWidth_eq legal]
    exact (Nat.succ_mul _ _).symm.trans_le capacity
  exact ⟨inside, inside.trans dstTrue⟩

/-- All a pixel store with a slot open does. -/
theorem storePixel_did {s : State} (slot : s.dec.SlotOpen) :
    ∃ dst, storePixel s = .next (s.setDec (s.dec.stored dst)) ∧ SlotDid s.dec (s.dec.stored dst) s.dec.px ∧
      dst.wf = true := by
  obtain ⟨cap, size⟩ := slotInside_of_slotOpen slot
  obtain ⟨-, -, legal, -, -, w⟩ := slot
  have stored := storePixel_inside cap size
  rw [← length_pixelBytes _ s.dec.px] at size
  have kept := Memory.writeList_sameOutside w size
  rw [length_pixelBytes, pixelWidth_eq legal] at kept
  exact ⟨_, stored, (slotDid_iff ..).mpr ⟨rfl, Memory.writeList_holdsAt w size, kept⟩, Memory.wf_writeList w _ _⟩

/-- Settles O15: the channel bytes go to the slot, and the slot index goes up. -/
theorem pixelStoreWritesItsSlot : Obligations.PixelStoreWritesItsSlot := by
  intro s slot
  obtain ⟨dst, stored, did, -⟩ := storePixel_did slot
  exact ⟨_, stored, did, rfl⟩

/-! ### The branches of a step (R183) -/

section branches
variable {s : State}

theorem decodeStep_of_slot_left (busy : s.dec.busy = true) (left : s.dec.i < s.dec.pixels) :
    decodeStep s = decodeOnePixel s := by
  simp [decodeStep, busy, left]

theorem decodeStep_of_run (slot : s.dec.SlotOpen) (pending : s.dec.run ≠ 0#6) :
    decodeStep s = storePixel (runPath s) := by
  obtain ⟨busy, left, -⟩ := slot
  rw [decodeStep_of_slot_left busy left, decodeOnePixel, if_pos pending]

theorem decodeStep_of_fetch {i : Instr} (slot : s.dec.SlotOpen) (noRun : s.dec.run = 0#6)
    (mayFetch : s.dec.p + 8 < s.dec.srcLen) (fetched : s.dec.fetch = .ok i) :
    decodeStep s = storePixel (s.setDec (decAfter i s.dec)) := by
  obtain ⟨busy, left, -⟩ := slot
  have guard : s.dec.mayFetch = true := decide_eq_true mayFetch
  rw [decodeStep_of_slot_left busy left, decodeOnePixel, if_neg (not_not_intro noRun), if_pos guard]
  simp only [execFetched, fetched, exec_eq, thenStore]

theorem decodeStep_of_exhausted (busy : s.dec.busy = true) (left : s.dec.i < s.dec.pixels) (noRun : s.dec.run = 0#6)
    (exhausted : s.dec.srcLen ≤ s.dec.p + 8) : decodeStep s = .next (s.setDec (s.dec.fail .bufferTooSmall)) := by
  have guard : ¬ s.dec.mayFetch = true := mt of_decide_eq_true (Nat.not_lt.mpr exhausted)
  rw [decodeStep_of_slot_left busy left, decodeOnePixel, if_neg (not_not_intro noRun), if_neg guard]
  rfl

theorem decodeStep_of_no_slot_left (busy : s.dec.busy = true) (done : s.dec.pixels ≤ s.dec.i) :
    decodeStep s = .next (s.setDec s.dec.finish) := by
  simp [decodeStep, busy, Nat.not_lt.mpr done, decodeEnd]

end branches

/-! ### The run path (R183, R189) -/

theorem toNat_run_pred {run : BitVec 6} (pending : run ≠ 0#6) : (run - 1#6).toNat + 1 = run.toNat := by
  have positive : run.toNat ≠ 0 := mt (toNat_eq_zero_iff run).mp pending
  have counter := run.isLt
  rw [BitVec.toNat_sub, BitVec.toNat_ofNat]
  omega

/-- A step with a run pending: the counter down by one and the pixel stored. -/
theorem decodeStep_run_did {s : State} (slot : s.dec.SlotOpen) (pending : s.dec.run ≠ 0#6) :
    ∃ dst, decodeStep s = .next (s.setDec ((s.dec.setRun (s.dec.run - 1#6)).stored dst)) ∧
      SlotDid s.dec ((s.dec.setRun (s.dec.run - 1#6)).stored dst) s.dec.px ∧ dst.wf = true := by
  rw [decodeStep_of_run slot pending]
  exact storePixel_did (s := runPath s) slot

/-- Settles O16: `decodeStep_run_did` leaves the pixel, the cursor and the cache alone. -/
theorem runPathRepeatsThePixel : Obligations.RunPathRepeatsThePixel := by
  intro s slot pending
  obtain ⟨dst, moved, did, -⟩ := decodeStep_run_did slot pending
  exact ⟨_, moved, did, rfl, toNat_run_pred pending⟩

/-- Settles O13: an opcode writes its new pixel to its slot (`decAfter_cache`), the run path writes no slot. -/
theorem cacheUpdatedByOpcodesNotByTheRunPath : Obligations.CacheUpdatedByOpcodesNotByTheRunPath := by
  refine ⟨fun i s t done h => ?opcode, fun s slot pending => ?runPath⟩
  case opcode =>
    cases (exec_eq i s).symm.trans done
    rw [State.setDec_dec, decAfter_cache, cacheRead_cacheWrite]
  case runPath =>
    obtain ⟨dst, moved, -⟩ := decodeStep_run_did slot pending
    exact ⟨_, moved, rfl⟩

/-! ### The fetch (R184; 30_encoding.md R80) -/

theorem Memory.holdsAt_iff_bytesFrom (m : Memory) (a : Nat) (bs : List Byte) :
    m.HoldsAt a bs ↔ m.bytesFrom a bs.length = bs := by
  constructor
  · intro holds
    refine List.ext_getElem (by simp) fun j _ hj => ?_
    simpa [Memory.bytesFrom, hj] using holds j hj
  · intro bytes j hj
    conv_rhs => rw [← bytes]
    simp [Memory.bytesFrom, hj]

/-- A space holds the front of its own bytes. -/
theorem Memory.holdsAt_of_front {m : Memory} {a n : Nat} {bs rest : List Byte} (front : bs ++ rest = m.bytesFrom a n) :
    m.HoldsAt a bs := by
  intro j hj
  have length : bs.length + rest.length = n := by simpa using congrArg List.length front
  have byte : (bs ++ rest).getD j 0#8 = m.byteAt (a + j) := by
    rw [front]
    simp [Memory.bytesFrom, show j < n by omega]
  rw [← byte, List.getD_append _ _ _ _ hj]

/-- R80: the first byte of a well-formed opcode gives its length. -/
theorem encode_firstByte {i : Instr} (wf : i.wf = true) :
    ∃ b1 rest, encode i = b1 :: rest ∧ opcodeLength b1 = (encode i).length := by
  cases i with
  | index slot => exact Laws.EncodedLength.index slot wf
  | diff dr dg db => exact Laws.EncodedLength.diff dr dg db wf
  | luma dg drg dbg => exact Laws.EncodedLength.luma dg drg dbg wf
  | run n => exact Laws.EncodedLength.run n wf
  | rgb r g b => exact Laws.EncodedLength.rgb r g b wf
  | rgba r g b a => exact Laws.EncodedLength.rgba r g b a wf

/-- The encoding of an opcode at the cursor is fetched as that opcode. -/
theorem DecEngine.fetch_of_encoding {d : DecEngine} {i : Instr} (wf : i.wf = true)
    (holds : d.src.HoldsAt d.p (encode i)) (room : d.p + (encode i).length ≤ d.srcLen) (srcTrue : d.srcLen ≤ d.src.size) : d.fetch = .ok i := by
  obtain ⟨b1, rest, first, length⟩ := encode_firstByte wf
  have positive : 1 ≤ (encode i).length := by simp [first]
  have firstByte : d.src.byteAt d.p = b1 := by
    simpa [first] using holds 0 positive
  have one : d.src.load d.srcLen d.p 1 = some [b1] := by
    rw [Memory.load_inside (by omega) (by omega), ← firstByte]
    rfl
  have whole : d.src.load d.srcLen d.p (opcodeLength b1) = some (encode i) := by
    rw [length, Memory.load_inside room (room.trans srcTrue)]
    exact congrArg some ((Memory.holdsAt_iff_bytesFrom ..).mp holds)
  have decoded : decode (encode i) = .ok (i, []) := by simpa using decode_encode wf []
  simp only [DecEngine.fetch, one, whole, decoded]

/-- The opcode that the five bytes at the cursor begin with is well formed, and it is fetched. -/
theorem DecEngine.fetch_of_nextOpcode {d : DecEngine} {i : Instr} (room : d.p + 5 ≤ d.srcLen)
    (srcTrue : d.srcLen ≤ d.src.size) (next : d.NextOpcode i) : i.wf = true ∧ d.fetch = .ok i := by
  obtain ⟨rest, decoded⟩ : ∃ rest, decode (d.src.bytesFrom d.p 5) = .ok (i, rest) := by
    cases answer : decode (d.src.bytesFrom d.p 5) with
    | error e => simp [DecEngine.NextOpcode, answer, Except.map] at next
    | ok decoded =>
      simp only [DecEngine.NextOpcode, answer, Except.map, Except.ok.injEq] at next
      exact ⟨decoded.2, by rw [← next]⟩
  obtain ⟨wf, front⟩ := encode_of_decode decoded
  have five := (length_encode_pos_and_le i).2
  exact ⟨wf, DecEngine.fetch_of_encoding wf (Memory.holdsAt_of_front front) (by omega) srcTrue⟩

theorem fetch_of_opcodeDue {d : DecEngine} {i : Instr} (due : d.OpcodeDue) (next : d.NextOpcode i) :
    i.wf = true ∧ d.fetch = .ok i := by
  obtain ⟨-, -, mayFetch, srcTrue⟩ := due
  exact DecEngine.fetch_of_nextOpcode (by omega) srcTrue next

/-! ### A step with an opcode (R183, R184) -/

theorem slotOpen_decAfter (i : Instr) {d : DecEngine} (slot : d.SlotOpen) : (decAfter i d).SlotOpen := by
  rw [decAfter_eq]
  exact slot

/-- An opcode moves neither the slot nor the destination. -/
theorem slotDid_decAfter (i : Instr) (d e : DecEngine) (px : Pixel) : SlotDid (decAfter i d) e px ↔ SlotDid d e px := by
  cases i <;> exact Iff.rfl

/-- An opcode's step: its effect, then its pixel stored. -/
theorem decodeStep_fetch_did {s : State} {i : Instr} (slot : s.dec.SlotOpen) (noRun : s.dec.run = 0#6)
    (mayFetch : s.dec.p + 8 < s.dec.srcLen) (fetched : s.dec.fetch = .ok i) :
    ∃ dst, decodeStep s = .next (s.setDec ((decAfter i s.dec).stored dst)) ∧
      SlotDid s.dec ((decAfter i s.dec).stored dst) (decAfter i s.dec).px ∧ dst.wf = true := by
  rw [decodeStep_of_fetch slot noRun mayFetch fetched]
  obtain ⟨dst, stored, did, w⟩ := storePixel_did (s := s.setDec (decAfter i s.dec)) (slotOpen_decAfter i slot)
  exact ⟨dst, stored, (slotDid_decAfter i ..).mp did, w⟩

/-- Settles O14: the bytes at the cursor are fetched as that opcode, and its slot is open after it. -/
theorem stepRunsTheDecodedOpcode : Obligations.StepRunsTheDecodedOpcode := by
  intro s i mover due next
  obtain ⟨-, fetched⟩ := fetch_of_opcodeDue due next
  obtain ⟨slot, noRun, mayFetch, -⟩ := due
  obtain ⟨dst, stored, -⟩ :=
    storePixel_did (s := s.popTurn.setDec (decAfter i s.dec)) (slotOpen_decAfter i slot)
  have moved := decodeStep_of_fetch (s := s.popTurn) slot noRun mayFetch fetched
  exact ⟨_, _, exec_eq i s.popTurn, stored, (step_of_mover mover).trans (moved.trans stored)⟩

/-! ### Exhaustion and the end (R185, R194) -/

/-- 60_exceptions.md R223, R226, R228: DEC after a failed DECODE. -/
theorem decodeFailed_of_fail {s : State} (w : s.dec.dst.wf = true) (dstTrue : s.dec.dstCap ≤ s.dec.dst.size)
    (st : Status) : DecodeFailed s (s.setDec (s.dec.fail st)) st := by
  refine ⟨rfl, rfl, rfl, ⟨rfl, rfl, rfl, rfl, rfl, rfl, rfl⟩, ⟨rfl, rfl, rfl, rfl, rfl, rfl⟩, Memory.fill_base w _ _,
    Memory.fill_content w _ _, Memory.fill_size w _ _, fun a above => ?_⟩
  exact (Memory.byteAt_fill w dstTrue _ a).trans (if_neg (Nat.not_lt.mpr above))

/-- Settles O17: the step fails the command. -/
theorem exhaustedStreamFails : Obligations.ExhaustedStreamFails :=
  fun _ busy left noRun exhausted w dstTrue =>
    ⟨_, decodeStep_of_exhausted busy left noRun exhausted, decodeFailed_of_fail w dstTrue _⟩

/-- Settles O18: with no slot left the step is the end. -/
theorem decodeEndsAfterItsLastSlot : Obligations.DecodeEndsAfterItsLastSlot :=
  fun _ busy done => decodeStep_of_no_slot_left busy done

/-! ### The start (R181, R182) -/

/-- A check that fails ends the command with the status of its cause. -/
theorem decodeStart_fails {s : State} {c : Cause} (w : s.dec.dst.wf = true) (dstTrue : s.dec.dstCap ≤ s.dec.dst.size)
    (failed : decodeCheck s.dec.width s.dec.height s.dec.channels s.dec.srcLen s.dec.dstCap = some c) :
    ∃ t, decodeStart s = .next t ∧ DecodeFailed s t c.status := by
  refine ⟨_, decodeStart_eq s, ?_⟩
  rw [DecEngine.launched, failed]
  exact decodeFailed_of_fail w dstTrue c.status

theorem decodeStart_of_passed {s : State}
    (passed : decodeCheck s.dec.width s.dec.height s.dec.channels s.dec.srcLen s.dec.dstCap = none) :
    decodeStart s = .next (s.setDec s.dec.callStart) := by
  rw [decodeStart_eq, DecEngine.launched, passed]

theorem channelsValid_iff_toNat (c : Byte) : channelsValid c = true ↔ c.toNat = 3 ∨ c.toNat = 4 := by
  rw [channelsValid_iff, byte_eq_ofNat_iff _ (by decide), byte_eq_ofNat_iff _ (by decide)]

section checks
variable {width height : Word} {channels : Byte} {srcLen dstCap : Nat}

theorem decodeCheck_of_short (short : srcLen < minStreamLen) :
    decodeCheck width height channels srcLen dstCap = some .decSource :=
  if_pos short

variable (long : minStreamLen ≤ srcLen)
include long

theorem decodeCheck_of_dimensions (invalid : dimsValid width height = false) :
    decodeCheck width height channels srcLen dstCap = some .decDimensions := by
  simp [decodeCheck, Nat.not_lt.mpr long, invalid]

variable (dims : dimsValid width height = true)
include dims

theorem decodeCheck_of_channels (illegal : channelsValid channels = false) :
    decodeCheck width height channels srcLen dstCap = some .decChannels := by
  simp [decodeCheck, Nat.not_lt.mpr long, dims, illegal]

theorem decodeCheck_of_small_destination (legal : channelsValid channels = true)
    (small : dstCap < rawLength width height channels) :
    decodeCheck width height channels srcLen dstCap = some .decDestination := by
  simp [decodeCheck, Nat.not_lt.mpr long, dims, legal, small]

end checks

/-- Settles O20: the first check that fails decides, and a start that passes all four loads the call-start values. -/
theorem decodeChecksThenStarts : Obligations.DecodeChecksThenStarts := by
  intro s w dstTrue
  refine ⟨fun short => ?source, fun long invalid => ?dimensions, fun long width height guard =>
    ⟨fun not3 not4 => ?channels, fun legal => ⟨fun small => ?destination, fun large => ?starts⟩⟩⟩
  case source => exact decodeStart_fails w dstTrue (decodeCheck_of_short short)
  case dimensions =>
    have dims : dimsValid s.dec.width s.dec.height = false := by
      rw [Bool.eq_false_iff, Ne, dimsValid_iff]
      rintro ⟨width, height, guard⟩
      obtain zero | zero | large := invalid
      · exact width zero
      · exact height zero
      · exact Nat.not_lt.mpr large guard
    exact decodeStart_fails w dstTrue (decodeCheck_of_dimensions long dims)
  all_goals have dims := (dimsValid_iff _ _).mpr ⟨width, height, guard⟩
  case channels =>
    have illegal : channelsValid s.dec.channels = false := by
      rw [Bool.eq_false_iff, Ne, channelsValid_iff_toNat]
      exact not_or_intro not3 not4
    exact decodeStart_fails w dstTrue (decodeCheck_of_channels long dims illegal)
  all_goals have legal := (channelsValid_iff_toNat _).mpr legal
  case destination => exact decodeStart_fails w dstTrue (decodeCheck_of_small_destination long dims legal small)
  case starts => exact decodeStart_of_passed ((decodeCheck_none_iff ..).mpr ⟨long, dims, legal, large⟩)

/-! ### The bytes of the header (R195; 20_memory.md R59) -/

section setSrc
variable (d : DecEngine) (m : Memory)

@[simp] theorem DecEngine.setSrc_src : (d.setSrc m).src = m := rfl
@[simp] theorem DecEngine.setSrc_px : (d.setSrc m).px = d.px := rfl
@[simp] theorem DecEngine.setSrc_run : (d.setSrc m).run = d.run := rfl
@[simp] theorem DecEngine.setSrc_p : (d.setSrc m).p = d.p := rfl
@[simp] theorem DecEngine.setSrc_i : (d.setSrc m).i = d.i := rfl
@[simp] theorem DecEngine.setSrc_channels : (d.setSrc m).channels = d.channels := rfl
@[simp] theorem DecEngine.setSrc_srcLen : (d.setSrc m).srcLen = d.srcLen := rfl
@[simp] theorem DecEngine.setSrc_dstCap : (d.setSrc m).dstCap = d.dstCap := rfl
@[simp] theorem DecEngine.setSrc_dst : (d.setSrc m).dst = d.dst := rfl
@[simp] theorem DecEngine.setSrc_busy : (d.setSrc m).busy = d.busy := rfl
@[simp] theorem DecEngine.setSrc_pixels : (d.setSrc m).pixels = d.pixels := rfl
@[simp] theorem DecEngine.setSrc_slotAddress : (d.setSrc m).slotAddress = d.slotAddress := rfl
@[simp] theorem DecEngine.setSrc_mayFetch : (d.setSrc m).mayFetch = d.mayFetch := rfl

theorem decAfter_setSrc (i : Instr) : decAfter i (d.setSrc m) = (decAfter i d).setSrc m := by
  cases i <;> rfl

end setSrc

/-- The pixel store reads no source byte. -/
theorem storePixel_setSrc (s : State) (m : Memory) :
    storePixel (s.setDec (s.dec.setSrc m)) = mapNext (fun t => t.setDec (t.dec.setSrc m)) (storePixel s) := by
  simp only [storePixel, State.setDec_dec, DecEngine.setSrc_dst, DecEngine.setSrc_dstCap, DecEngine.setSrc_slotAddress,
    DecEngine.setSrc_channels, DecEngine.setSrc_px]
  cases s.dec.dst.store s.dec.dstCap s.dec.slotAddress (pixelBytes s.dec.channels s.dec.px) <;> rfl

section source
variable {s : State} {m : Memory} (behind : 14 ≤ s.dec.p) (size : m.size = s.dec.src.size)
  (same : ∀ a, 14 ≤ a → m.byteAt a = s.dec.src.byteAt a)
include behind size same

theorem load_behind_header (len n : Nat) : m.load len s.dec.p n = s.dec.src.load len s.dec.p n := by
  have bytes : ((List.range n).map fun j => m.byteAt (s.dec.p + j)) =
      (List.range n).map fun j => s.dec.src.byteAt (s.dec.p + j) :=
    List.map_congr_left fun j _ => same _ (behind.trans (Nat.le_add_right _ j))
  rw [Memory.load, Memory.load, Memory.covers, Memory.covers, size, bytes]

theorem fetch_setSrc : (s.dec.setSrc m).fetch = s.dec.fetch := by
  simp only [DecEngine.fetch, DecEngine.setSrc_src, DecEngine.setSrc_srcLen, DecEngine.setSrc_p,
    load_behind_header behind size same]

theorem thenStore_execFetched_setSrc :
    thenStore (execFetched (s.setDec (s.dec.setSrc m))) =
      mapNext (fun t => t.setDec (t.dec.setSrc m)) (thenStore (execFetched s)) := by
  simp only [execFetched, State.setDec_dec, fetch_setSrc behind size same]
  cases s.dec.fetch with
  | error f => rfl
  | ok i =>
    simp only [exec_eq, thenStore, State.setDec_dec, State.setDec_setDec, decAfter_setSrc]
    exact storePixel_setSrc (s.setDec (decAfter i s.dec)) m

theorem decodeOnePixel_setSrc :
    decodeOnePixel (s.setDec (s.dec.setSrc m)) = mapNext (fun t => t.setDec (t.dec.setSrc m)) (decodeOnePixel s) := by
  have run : storePixel (runPath (s.setDec (s.dec.setSrc m))) =
      mapNext (fun t => t.setDec (t.dec.setSrc m)) (storePixel (runPath s)) :=
    storePixel_setSrc (runPath s) m
  simp only [decodeOnePixel, State.setDec_dec, DecEngine.setSrc_run, DecEngine.setSrc_mayFetch, run,
    thenStore_execFetched_setSrc behind size same, apply_ite (mapNext _)]
  rfl

end source

/-- Settles O21: from the cursor on the two sources load alike, and nothing but the fetch reads the source. -/
theorem decodeIgnoresTheHeaderBytes : Obligations.DecodeIgnoresTheHeaderBytes := by
  intro s m behind size same
  simp only [decodeStep, State.setDec_dec, DecEngine.setSrc_busy, DecEngine.setSrc_i, DecEngine.setSrc_pixels,
    decodeOnePixel_setSrc behind size same, apply_ite (mapNext _)]
  rfl

/-! ### The output channel count (R200; 30_encoding.md R82) -/

/-- An opcode's effect depends neither on the channel count nor on the destination, and leaves them. -/
theorem decAfter_output (i : Instr) (d : DecEngine) (c : Byte) (cap : Nat) (dst : Memory) :
    decAfter i { d with channels := c, dstCap := cap, dst := dst } =
      { decAfter i d with channels := c, dstCap := cap, dst := dst } := by
  cases i <;> rfl

/-- Settles O22: on the run path, and with the same opcode fetched, the registers before the store are the same. -/
theorem channelCountChangesOnlyTheStore : Obligations.ChannelCountChangesOnlyTheStore := by
  intro s c cap dst slot slot' ready
  by_cases noRun : s.dec.run = 0#6
  case neg =>
    obtain ⟨_, moved, -⟩ := decodeStep_run_did slot noRun
    obtain ⟨_, moved', -⟩ := decodeStep_run_did (s := s.setDec _) slot' noRun
    exact ⟨_, _, moved, moved', rfl, rfl, rfl, rfl, rfl⟩
  case pos =>
    obtain ⟨-, -, mayFetch, srcTrue⟩ := ready.resolve_left fun pending => pending noRun.symm
    obtain ⟨i, fetched⟩ := DecEngine.fetch_of_room (by omega) srcTrue
    obtain ⟨_, moved, -⟩ := decodeStep_fetch_did slot noRun mayFetch fetched
    obtain ⟨_, moved', -⟩ := decodeStep_fetch_did (s := s.setDec _) slot' noRun mayFetch fetched
    rw [State.setDec_dec, decAfter_output] at moved'
    exact ⟨_, _, moved, moved', rfl, rfl, rfl, rfl, rfl⟩

/-! ### Termination (R198) -/

theorem moves_of_first {f : State → Host.Outcome State Fault Refusal} {s t : State} (first : f s = .next t) (k : Nat) :
    moves f (k + 1) s = moves f k t := by
  simp only [moves, first]

/-- A pixel slot goes on to the next one, or the command fails. -/
theorem decodeOnePixel_progress {s t : State} (h : decodeOnePixel s = .next t) :
    (t.dec.busy = s.dec.busy ∧ t.dec.i = s.dec.i + 1 ∧ t.dec.pixels = s.dec.pixels) ∨
      (t.dec.busy = false ∧ t.dec.ok = false) := by
  obtain ⟨-, stored⟩ | ⟨-, -, i, -, stored⟩ | ⟨-, -, rfl⟩ := decodeOnePixel_next h
  · obtain ⟨-, -, rfl⟩ := storePixel_next stored
    exact .inl ⟨rfl, rfl, rfl⟩
  · obtain ⟨-, -, rfl⟩ := storePixel_next stored
    rw [decAfter_eq]
    exact .inl ⟨rfl, rfl, rfl⟩
  · exact .inr ⟨rfl, rfl⟩

/-- With `n` slots left a running DECODE is idle after at most `n + 1` moves. -/
theorem decode_terminates {s : State} (n : Nat) (inv : s.Inv) (busy : s.dec.busy = true)
    (left : s.dec.i + n = s.dec.pixels) :
    ∃ k t, k ≤ n + 1 ∧ moves decodeStep k s = .next t ∧ t.dec.busy = false ∧
      (t.dec.ok = true → t.dec.i = s.dec.pixels) := by
  induction n generalizing s with
  | zero =>
    have ended := decodeStep_of_no_slot_left busy left.ge
    exact ⟨1, _, le_refl 1, moves_of_first ended 0, rfl, fun _ => left⟩
  | succ n ih =>
    have slot : s.dec.i < s.dec.pixels := by omega
    have running : DecRunning s.dec := inv.2.2
    obtain ⟨t, moved⟩ := decodeStep_answers running
    have pixel := (decodeStep_of_slot_left busy slot).symm.trans moved
    obtain ⟨same, index, pixels⟩ | ⟨idle, notOk⟩ := decodeOnePixel_progress pixel
    · obtain ⟨k, u, le, reached, ended⟩ :=
        ih (decodeStep_keeps_inv moved inv) (same.trans busy) (by rw [index, pixels, ← left]; omega)
      rw [pixels] at ended
      exact ⟨k + 1, u, Nat.succ_le_succ le, (moves_of_first moved k).trans reached, ended⟩
    · exact ⟨1, t, by omega, moves_of_first moved 0, idle, fun isOk => by simp [notOk] at isOk⟩

/-- Settles O23: by induction on the slots left. -/
theorem decodeTerminates : Obligations.DecodeTerminates := by
  intro s inv busy
  have running : DecRunning s.dec := inv.2.2
  obtain ⟨-, -, -, iLe, -⟩ := running busy
  exact decode_terminates _ inv busy (Nat.add_sub_of_le iLe)

end Sys2Proof.Machine
end

section
/-! PROOFS. 43_opcode_decoder.md: the slots of both caches hash home (R186; 41_pixel_cache_hash.md R123, R124), and the
decoder undoes the encoder's choice (R199; 41_pixel_cache_hash.md R125, R126). -/

namespace Sys2Proof.Machine

/-! ### Slots that hash home (R186) -/

theorem slotsHashHome_initCache : SlotsHashHome initCache := fun h => .inr (cacheRead_initCache h)

section writes
variable {cache : Cache} (home : SlotsHashHome cache)
include home

theorem slotsHashHome_cacheWrite (p : Pixel) : SlotsHashHome (cacheWrite cache p) := by
  intro h
  rw [cacheRead_cacheWrite]
  split
  case isTrue written => exact .inl written.symm
  case isFalse => exact home h

theorem slotsHashHome_chooseOpcode (prev px : Pixel) : SlotsHashHome (chooseOpcode prev cache px).2 := by
  by_cases hit : cacheRead cache (pixelHash px) = px
  · rw [chooseOpcode_of_hit hit]
    exact home
  · rw [chooseOpcode_of_miss hit]
    exact slotsHashHome_cacheWrite home px

theorem slotsHashHome_encodePixel (prev px : Pixel) (run : BitVec 6) (last : Bool) :
    SlotsHashHome (encodePixel prev run cache last px).2.2 := by
  rw [cache_encodePixel]
  split
  · exact home
  · exact slotsHashHome_chooseOpcode home prev px

end writes

theorem encodeStep_keeps_cachesHashHome {s t : State} (h : encodeStep s = .next t) (home : s.CachesHashHome) :
    t.CachesHashHome := by
  obtain ⟨encHome, decHome⟩ := home
  obtain ⟨-, rfl⟩ | ⟨busy, -, pixel⟩ | ⟨-, -, tail⟩ := encodeStep_next h
  · exact ⟨encHome, decHome⟩
  · obtain ⟨px, e, -, emitted, rfl⟩ := encodeOnePixel_next pixel
    obtain ⟨-, -, rfl⟩ := EncEngine.emit_some emitted
    exact ⟨fun _ => slotsHashHome_encodePixel (encHome busy) s.enc.prev px s.enc.run _, decHome⟩
  · obtain ⟨e, -, rfl⟩ := encodeEnd_next tail
    exact ⟨nofun, decHome⟩

theorem decodeOnePixel_keeps_cachesHashHome {s t : State} (h : decodeOnePixel s = .next t) (busy : s.dec.busy = true)
    (home : s.CachesHashHome) : t.CachesHashHome := by
  obtain ⟨encHome, decHome⟩ := home
  obtain ⟨-, stored⟩ | ⟨-, -, i, -, stored⟩ | ⟨-, -, rfl⟩ := decodeOnePixel_next h
  · obtain ⟨-, -, rfl⟩ := storePixel_next stored
    exact ⟨encHome, fun _ => decHome busy⟩
  · obtain ⟨-, -, rfl⟩ := storePixel_next stored
    have written := slotsHashHome_cacheWrite (decHome busy) (decAfter i s.dec).px
    rw [← decAfter_cache] at written
    exact ⟨encHome, fun _ => written⟩
  · exact ⟨encHome, nofun⟩

theorem decodeStep_keeps_cachesHashHome {s t : State} (h : decodeStep s = .next t) (home : s.CachesHashHome) :
    t.CachesHashHome := by
  obtain ⟨-, rfl⟩ | ⟨busy, -, slot⟩ | ⟨-, -, rfl⟩ := decodeStep_next h
  · exact home
  · exact decodeOnePixel_keeps_cachesHashHome slot busy home
  · exact ⟨home.1, nofun⟩

theorem encodeStart_keeps_cachesHashHome {s t : State} (h : encodeStart s = .next t) (home : s.CachesHashHome) :
    t.CachesHashHome := by
  obtain ⟨c, -, rfl⟩ | ⟨-, e, emitted, rfl⟩ := encodeStart_next h
  · exact ⟨nofun, home.2⟩
  · obtain ⟨-, -, rfl⟩ := EncEngine.emit_some emitted
    exact ⟨fun _ => slotsHashHome_initCache, home.2⟩

theorem slotsHashHome_launched {d : DecEngine} (busy : d.launched.busy = true) : SlotsHashHome d.launched.cache := by
  unfold DecEngine.launched at busy ⊢
  split at busy
  · cases busy
  · exact slotsHashHome_initCache

theorem decodeStart_keeps_cachesHashHome {s t : State} (h : decodeStart s = .next t) (home : s.CachesHashHome) :
    t.CachesHashHome := by
  cases (decodeStart_eq s).symm.trans h
  exact ⟨home.1, slotsHashHome_launched⟩

/-- An act of the host that starts no engine leaves the caches of running ones alone. -/
theorem hostChange_keeps_cachesHashHome {s t : State} (change : HostChange s t) (enc : t.enc.busy = s.enc.busy)
    (dec : t.dec.busy = s.dec.busy) (home : s.CachesHashHome) : t.CachesHashHome := by
  obtain ⟨encHome, decHome⟩ := home
  cases change with
  | nothing | hdr | he | hd | ms => exact ⟨encHome, decHome⟩
  | enc e idle => exact ⟨fun busy => absurd (enc ▸ busy) (by simp [idle]), decHome⟩
  | dec d idle => exact ⟨encHome, fun busy => absurd (dec ▸ busy) (by simp [idle])⟩
  | byte sp a v => cases sp <;> exact ⟨encHome, decHome⟩

theorem hostAct_keeps_cachesHashHome {op : HostOp} {s t : State} (h : hostAct op s = .next t)
    (home : s.CachesHashHome) : t.CachesHashHome := by
  by_cases encode : op = .issue .encode
  · subst encode
    exact encodeStart_keeps_cachesHashHome (issueCommand_next h).2 home
  by_cases decode : op = .issue .decode
  · subst decode
    exact decodeStart_keeps_cachesHashHome (issueCommand_next h).2 home
  obtain ⟨enc, dec⟩ := hostAct_busy h encode decode
  exact hostChange_keeps_cachesHashHome (hostChange_of_hostAct h) enc dec home

theorem hostStep_keeps_cachesHashHome {s t : State} (h : hostStep s = .next t) (home : s.CachesHashHome) :
    t.CachesHashHome := by
  cases script : s.script with
  | nil =>
    cases (hostStep_of_script_nil script).symm.trans h
    exact home
  | cons op rest =>
    exact hostAct_keeps_cachesHashHome (s := s.setScript rest) ((hostStep_of_script_cons script).symm.trans h) home

theorem moveAgent_keeps_cachesHashHome {a : Agent} {s t : State} (h : moveAgent a s = .next t)
    (home : s.CachesHashHome) : t.CachesHashHome := by
  cases a with
  | host => exact hostStep_keeps_cachesHashHome h home
  | enc => exact encodeStep_keeps_cachesHashHome h home
  | dec => exact decodeStep_keeps_cachesHashHome h home

/-- Settles O40: a start clears the cache, and every later write goes to the slot its pixel hashes to. -/
theorem writtenSlotsHashHome : Obligations.WrittenSlotsHashHome :=
  fun s _ home h => moveAgent_keeps_cachesHashHome (s := s.popTurn) h home

/-! ### The caches of encoder and decoder (41_pixel_cache_hash.md R125, R126) -/

/-- A pixel the encoder finds in its slot is in the decoder's too: the zero pixel, by which slot 53 may differ, hashes
to slot 0. -/
theorem cacheRead_of_agree {ec dc : Cache} {px : Pixel} (agree : CachesAgree ec dc)
    (hit : cacheRead ec (pixelHash px) = px) : cacheRead dc (pixelHash px) = px := by
  obtain same | ⟨slot, zero, -⟩ := agree (pixelHash px)
  · exact same.symm.trans hit
  · obtain rfl := hit.symm.trans zero
    exact absurd slot (by decide)

theorem cachesAgree_cacheWrite_both {ec dc : Cache} (agree : CachesAgree ec dc) (p : Pixel) :
    CachesAgree (cacheWrite ec p) (cacheWrite dc p) := by
  intro h
  simp only [cacheRead_cacheWrite]
  split
  · exact .inl rfl
  · exact agree h

/-! ### The encoder's choice undone (R199) -/

theorem addDeltas_delta8 {prev px : Pixel} (kept : px.a = prev.a) :
    addDeltas prev (delta8 px.r prev.r) (delta8 px.g prev.g) (delta8 px.b prev.b) = px := by
  simp only [addDeltas, add8_delta8, ← kept]

/-- Whichever of DIFF, LUMA and RGB carries deltas that lead to a pixel, its execution gives that pixel. -/
theorem decAfter_chooseByDeltas {d : DecEngine} {px : Pixel} {dr dg db : Int}
    (leads : addDeltas d.px dr dg db = px) : (decAfter (chooseByDeltas px dr dg db) d).px = px := by
  unfold chooseByDeltas
  split_ifs
  · exact leads
  · rw [decAfter, DecEngine.retire_px, add_sub_cancel, add_sub_cancel]
    exact leads
  · have alpha : d.px.a = px.a := by rw [← leads, addDeltas]
    rw [decAfter, DecEngine.retire_px, alpha]

theorem decAfter_chooseOnMiss (d : DecEngine) (px : Pixel) : (decAfter (chooseOnMiss d.px px) d).px = px := by
  by_cases kept : px.a = d.px.a
  · rw [chooseOnMiss_of_alpha_kept kept]
    exact decAfter_chooseByDeltas (addDeltas_delta8 kept)
  · rw [chooseOnMiss_of_alpha_changed kept]
    rfl

/-- The chosen opcode restores the pixel, and the caches go on agreeing: on a hit the decoder writes a pixel that the
encoder has in its slot, on a miss both write it. -/
theorem decAfter_chooseOpcode {d : DecEngine} {ec : Cache} (agree : CachesAgree ec d.cache) (px : Pixel) :
    (decAfter (chooseOpcode d.px ec px).1 d).px = px ∧
      CachesAgree (chooseOpcode d.px ec px).2 (decAfter (chooseOpcode d.px ec px).1 d).cache := by
  rw [decAfter_cache]
  by_cases hit : cacheRead ec (pixelHash px) = px
  · have restored : (decAfter (.index (pixelHash px)) d).px = px := cacheRead_of_agree agree hit
    rw [chooseOpcode_of_hit hit, restored]
    exact ⟨rfl, cachesAgree_cacheWrite agree (.inl hit)⟩
  · rw [chooseOpcode_of_miss hit, decAfter_chooseOnMiss]
    exact ⟨rfl, cachesAgree_cacheWrite_both agree px⟩

/-- Settles O55: `decAfter_chooseOpcode` for the decoder that holds the previous pixel. -/
theorem decoderUndoesTheEncodersChoice : Obligations.DecoderUndoesTheEncodersChoice := by
  intro prev px ec s _ held agree
  subst held
  exact ⟨_, exec_eq _ s, decAfter_chooseOpcode agree px⟩

end Sys2Proof.Machine
end

section
/-! PROOFS. 43_opcode_decoder.md: several slots produced one after the other, and a RUN opcode's (R183, R189, R193). -/

namespace Sys2Proof.Machine

/-! ### Spaces written slot by slot -/

theorem Memory.HoldsAt.of_sameOutside {m m' : Memory} {a b n : Nat} {bs : List Byte} (holds : m.HoldsAt a bs)
    (outside : m.SameOutside m' b n) (before : a + bs.length ≤ b) : m'.HoldsAt a bs := by
  obtain ⟨-, -, -, bytes⟩ := outside
  intro j hj
  rw [bytes _ (.inl (by omega))]
  exact holds j hj

theorem Memory.SameOutside.trans {m m' m'' : Memory} {a n k : Nat} (first : m.SameOutside m' a n)
    (second : m'.SameOutside m'' (a + n) k) : m.SameOutside m'' a (n + k) := by
  obtain ⟨base, content, size, bytes⟩ := first
  obtain ⟨base', content', size', bytes'⟩ := second
  refine ⟨base'.trans base, content'.trans content, size'.trans size, fun x outside => ?_⟩
  rw [bytes' x (by omega), bytes x (by omega)]

theorem length_pixelBytes_of_valid {c : Byte} (legal : channelsValid c = true) (p : Pixel) :
    (pixelBytes c p).length = c.toNat := by
  rw [length_pixelBytes, pixelWidth_eq legal]

/-! ### Slots produced (R183, R193) -/

/-- DEC runs and has `n` slots left that fit its destination. -/
structure DecEngine.RoomFor (d : DecEngine) (n : Nat) : Prop where
  busy : d.busy = true
  left : d.i + n ≤ d.pixels
  legal : channelsValid d.channels = true
  capacity : rawLength d.width d.height d.channels ≤ d.dstCap
  dstTrue : d.dstCap ≤ d.dst.size
  wf : d.dst.wf = true

/-- From `d` to `e` DEC has stored `n` slots, each with the pixel that `pix` gives its index, and no other byte. -/
structure SlotsStored (d e : DecEngine) (pix : Nat → Pixel) (n : Nat) : Prop where
  inputs : d.SameInputs e
  busy : e.busy = d.busy
  index : e.i = d.i + n
  wf : e.dst.wf = true
  holds : ∀ j, d.i ≤ j → j < d.i + n → e.dst.HoldsAt (j * d.channels.toNat) (pixelBytes d.channels (pix j))
  outside : d.dst.SameOutside e.dst (d.i * d.channels.toNat) (n * d.channels.toNat)

/-- `n` moves of DEC store `n` slots and leave the engine `e`. -/
structure Produces (s : State) (pix : Nat → Pixel) (n : Nat) (e : DecEngine) : Prop where
  moved : moves decodeStep n s = .next (s.setDec e)
  stored : SlotsStored s.dec e pix n

theorem DecEngine.RoomFor.mono {d : DecEngine} {m n : Nat} (room : d.RoomFor n) (le : m ≤ n) : d.RoomFor m :=
  { room with left := (Nat.add_le_add_left le _).trans room.left }

theorem DecEngine.RoomFor.slotOpen {d : DecEngine} {n : Nat} (room : d.RoomFor n) (positive : 0 < n) : d.SlotOpen := by
  have left : d.i + 1 ≤ d.pixels := (Nat.add_le_add_left positive _).trans room.left
  exact ⟨room.busy, left, room.legal, (Nat.mul_le_mul_right _ left).trans room.capacity, room.dstTrue, room.wf⟩

theorem roomFor_of_decRunning {d : DecEngine} {n : Nat} (running : DecRunning d) (busy : d.busy = true)
    (w : d.dst.wf = true) (left : d.i + n ≤ d.pixels) : d.RoomFor n := by
  obtain ⟨check, -, dstTrue, -⟩ := running busy
  obtain ⟨-, -, legal, capacity⟩ := (decodeCheck_none_iff ..).mp check
  exact ⟨busy, left, legal, capacity, dstTrue, w⟩

theorem SlotsStored.pixels {d e : DecEngine} {pix : Nat → Pixel} {n : Nat} (stored : SlotsStored d e pix n) :
    e.pixels = d.pixels := by
  obtain ⟨width, height, -⟩ := stored.inputs
  rw [DecEngine.pixels, width, height, DecEngine.pixels]

theorem SlotsStored.roomFor {d e : DecEngine} {pix : Nat → Pixel} {m n : Nat} (stored : SlotsStored d e pix m)
    (room : d.RoomFor (m + n)) : e.RoomFor n := by
  obtain ⟨width, height, channels, -, dstCap, -⟩ := stored.inputs
  obtain ⟨-, -, size, -⟩ := stored.outside
  exact
    { busy := stored.busy.trans room.busy
      left := by rw [stored.index, stored.pixels, Nat.add_assoc]; exact room.left
      legal := by rw [channels]; exact room.legal
      capacity := by rw [width, height, channels, dstCap]; exact room.capacity
      dstTrue := by rw [dstCap, size]; exact room.dstTrue
      wf := stored.wf }

theorem DecEngine.SameInputs.trans {d e f : DecEngine} (first : d.SameInputs e) (second : e.SameInputs f) :
    d.SameInputs f := by
  obtain ⟨width, height, channels, srcLen, dstCap, src⟩ := first
  obtain ⟨width', height', channels', srcLen', dstCap', src'⟩ := second
  exact ⟨width'.trans width, height'.trans height, channels'.trans channels, srcLen'.trans srcLen, dstCap'.trans dstCap,
    src'.trans src⟩

theorem SlotsStored.refl {d : DecEngine} (w : d.dst.wf = true) (pix : Nat → Pixel) : SlotsStored d d pix 0 where
  inputs := ⟨rfl, rfl, rfl, rfl, rfl, rfl⟩
  busy := rfl
  index := rfl
  wf := w
  holds _ low high := absurd low (Nat.not_le.mpr high)
  outside := ⟨rfl, rfl, rfl, fun _ _ => rfl⟩

/-- Slots stored later lie behind the earlier ones. -/
theorem SlotsStored.trans {d e f : DecEngine} {pix : Nat → Pixel} {m n : Nat} (legal : channelsValid d.channels = true)
    (first : SlotsStored d e pix m) (second : SlotsStored e f pix n) : SlotsStored d f pix (m + n) := by
  obtain ⟨-, -, channels, -⟩ := first.inputs
  have later := second.outside
  rw [first.index, channels, Nat.add_mul] at later
  exact
    { inputs := first.inputs.trans second.inputs
      busy := second.busy.trans first.busy
      index := by rw [second.index, first.index, Nat.add_assoc]
      wf := second.wf
      holds := by
        intro j low high
        by_cases early : j < d.i + m
        · refine (first.holds j low early).of_sameOutside later ?_
          rw [length_pixelBytes_of_valid legal, ← Nat.succ_mul, ← Nat.add_mul]
          exact Nat.mul_le_mul_right _ early
        · rw [← channels]
          exact second.holds j (by rw [first.index]; omega) (by rw [first.index]; omega)
      outside := by
        rw [Nat.add_mul]
        exact first.outside.trans later }

theorem moves_add {f : State → Host.Outcome State Fault Refusal} {m : Nat} {s t : State}
    (reached : moves f m s = .next t) (n : Nat) : moves f (m + n) s = moves f n t := by
  induction m generalizing s with
  | zero =>
    cases reached
    rw [Nat.zero_add]
  | succ m ih =>
    cases first : f s with
    | next u =>
      rw [moves_of_first first] at reached
      rw [Nat.add_right_comm, moves_of_first first]
      exact ih reached
    | fault r => simp [moves, first] at reached
    | refused r => simp [moves, first] at reached

theorem Produces.refl {s : State} (w : s.dec.dst.wf = true) (pix : Nat → Pixel) : Produces s pix 0 s.dec :=
  ⟨rfl, SlotsStored.refl w pix⟩

theorem Produces.trans {s : State} {pix : Nat → Pixel} {m n : Nat} {e f : DecEngine}
    (legal : channelsValid s.dec.channels = true) (first : Produces s pix m e)
    (second : Produces (s.setDec e) pix n f) : Produces s pix (m + n) f :=
  ⟨(moves_add first.moved n).trans second.moved, first.stored.trans legal second.stored⟩

/-- One move that stores its slot. -/
theorem produces_of_slotDid {s : State} {e : DecEngine} {pix : Nat → Pixel} (moved : decodeStep s = .next (s.setDec e))
    (did : SlotDid s.dec e (pix s.dec.i)) (inputs : s.dec.SameInputs e) (busy : e.busy = s.dec.busy)
    (w : e.dst.wf = true) : Produces s pix 1 e := by
  obtain ⟨index, written, kept⟩ := (slotDid_iff ..).mp did
  refine ⟨moves_of_first moved 0, inputs, busy, index, w, fun j low high => ?_, by rwa [Nat.one_mul]⟩
  obtain rfl : j = s.dec.i := by omega
  exact written

theorem run_wf_iff (n : Nat) : (Instr.run n).wf = true ↔ 1 ≤ n ∧ n ≤ 62 := by
  simp [Instr.wf]

section slots
variable {s : State} {pix : Nat → Pixel}

theorem exists_produces_opcode {i : Instr} (slot : s.dec.SlotOpen) (noRun : s.dec.run = 0#6)
    (mayFetch : s.dec.p + 8 < s.dec.srcLen) (fetched : s.dec.fetch = .ok i)
    (pixel : pix s.dec.i = (decAfter i s.dec).px) : ∃ dst, Produces s pix 1 ((decAfter i s.dec).stored dst) := by
  obtain ⟨dst, moved, did, w⟩ := decodeStep_fetch_did slot noRun mayFetch fetched
  rw [← pixel] at did
  obtain ⟨-, -, -, -, -, -, -, -, -, busy, -⟩ := decAfter_sameOutsideRegisters i s.dec
  exact ⟨dst, produces_of_slotDid moved did (decAfter_sameInputs i s.dec) busy w⟩

theorem exists_produces_run_step (slot : s.dec.SlotOpen) (pending : s.dec.run ≠ 0#6) (pixel : pix s.dec.i = s.dec.px) :
    ∃ dst, Produces s pix 1 ((s.dec.setRun (s.dec.run - 1#6)).stored dst) := by
  obtain ⟨dst, moved, did, w⟩ := decodeStep_run_did slot pending
  rw [← pixel] at did
  exact ⟨dst, produces_of_slotDid moved did ⟨rfl, rfl, rfl, rfl, rfl, rfl⟩ rfl w⟩

/-- A run pending of `k` pixels is worked off in `k` moves. -/
theorem exists_produces_pending {k : Nat} (room : s.dec.RoomFor k) (pending : s.dec.run.toNat = k)
    (pixels : ∀ j, s.dec.i ≤ j → j < s.dec.i + k → pix j = s.dec.px) :
    ∃ e, Produces s pix k e ∧ e.p = s.dec.p ∧ e.run = 0#6 ∧ e.px = s.dec.px ∧ e.cache = s.dec.cache := by
  induction k generalizing s with
  | zero => exact ⟨s.dec, Produces.refl room.wf pix, rfl, (toNat_eq_zero_iff _).mp pending, rfl, rfl⟩
  | succ k ih =>
    have nonzero : s.dec.run ≠ 0#6 := mt (toNat_eq_zero_iff s.dec.run).mpr (by omega)
    have down := toNat_run_pred nonzero
    obtain ⟨dst, first⟩ := exists_produces_run_step (pix := pix) (room.slotOpen k.succ_pos) nonzero
      (pixels _ (le_refl _) (by omega))
    rw [Nat.add_comm] at room
    obtain ⟨e, rest, p, run, px, cache⟩ := ih (s := s.setDec _) (first.stored.roomFor room)
      (show (s.dec.run - 1#6).toNat = k by omega)
      (fun j low high => pixels j (Nat.le_of_succ_le low) (high.trans_eq (Nat.succ_add_eq_add_succ _ _)))
    rw [Nat.add_comm]
    exact ⟨e, first.trans room.legal rest, p, run, px, cache⟩

/-- A RUN of `n` at the cursor is `n` slots of the pixel: its own step, then the run path. -/
theorem exists_produces_run {n : Nat} (wf : (Instr.run n).wf = true) (room : s.dec.RoomFor n) (noRun : s.dec.run = 0#6)
    (mayFetch : s.dec.p + 8 < s.dec.srcLen) (fetched : s.dec.fetch = .ok (.run n))
    (pixels : ∀ j, s.dec.i ≤ j → j < s.dec.i + n → pix j = s.dec.px) :
    ∃ e, Produces s pix n e ∧ e.p = s.dec.p + 1 ∧ e.run = 0#6 ∧ e.px = s.dec.px ∧
      e.cache = cacheWrite s.dec.cache s.dec.px := by
  obtain ⟨positive, max⟩ := (run_wf_iff n).mp wf
  obtain ⟨k, rfl⟩ := Nat.exists_eq_add_of_le positive
  obtain ⟨dst, first⟩ := exists_produces_opcode (pix := pix) (room.slotOpen positive) noRun mayFetch fetched
    (pixels _ (le_refl _) (by omega))
  have counter : (BitVec.ofNat 6 (1 + k - 1)).toNat = k := by
    rw [BitVec.toNat_ofNat]
    omega
  obtain ⟨e, rest, p, run, px, cache⟩ := exists_produces_pending (s := s.setDec _) (first.stored.roomFor room) counter
    (fun j low high => pixels j (Nat.le_of_succ_le low) (high.trans_eq (Nat.add_assoc _ _ _)))
  exact ⟨e, first.trans room.legal rest, p, run, px, cache⟩

end slots

/-- Settles O19: `exists_produces_run` with the one pixel in every slot. -/
theorem runOpcodeStandsForItsPixels : Obligations.RunOpcodeStandsForItsPixels := by
  intro s n canonical running due next left
  obtain ⟨wf, fetched⟩ := fetch_of_opcodeDue due next
  obtain ⟨⟨busy, -, -, -, -, w⟩, noRun, mayFetch, -⟩ := due
  obtain ⟨e, produced, p, run, px, -⟩ := exists_produces_run (pix := fun _ => s.dec.px) wf
    (roomFor_of_decRunning running busy w left) noRun mayFetch fetched fun _ _ _ => rfl
  exact ⟨_, produced.moved, produced.stored.index, p, run, px,
    fun j hj => produced.stored.holds _ (Nat.le_add_right _ j) (Nat.add_lt_add_left hj _)⟩

end Sys2Proof.Machine
end

section
/-! PROOFS. 43_opcode_decoder.md: an image encoded and decoded again (R199). -/

namespace Sys2Proof.Machine

/-! ### The opcodes a step puts out are well formed (42_opcode_encoder.md R156) -/

theorem chooseByDeltas_wf (px : Pixel) (dr dg db : Int) : (chooseByDeltas px dr dg db).wf = true := by
  unfold chooseByDeltas
  split_ifs with diff luma
  · exact diff
  · exact luma
  · rfl

theorem chooseOpcode_wf (prev : Pixel) (cache : Cache) (px : Pixel) : (chooseOpcode prev cache px).1.wf = true := by
  unfold chooseOpcode chooseOnMiss
  split_ifs
  · rfl
  · rfl
  · exact chooseByDeltas_wf ..

theorem chooseOpcode_ne_run {prev px : Pixel} {cache : Cache} (n : Nat) : (chooseOpcode prev cache px).1 ≠ .run n := by
  unfold chooseOpcode chooseOnMiss chooseByDeltas
  split_ifs <;> exact nofun

/-- A step leaves no run, or counts its pixel into the pending one. -/
theorem encodePixel_run_cases {prev px : Pixel} {run : BitVec 6} {cache : Cache} {last : Bool}
    (runLe : run.toNat ≤ 61) :
    (encodePixel prev run cache last px).2.1.toNat = 0 ∨
      (px = prev ∧ (encodePixel prev run cache last px).2.1.toNat = run.toNat + 1) := by
  obtain ⟨-, choice⟩ | ⟨same, -, -, choice⟩ | ⟨-, choice⟩ :=
    encodePixel_cases (prev := prev) (px := px) (cache := cache) (last := last) runLe <;> rw [choice]
  · exact .inl rfl
  · exact .inr ⟨same, toNat_run_succ runLe⟩
  · exact .inl rfl

/-! ### DEC after the front of ENC's stream -/

/-- Between two opcodes DEC's registers are those of an ENC that has no run pending (41_pixel_cache_hash.md R126). -/
structure Mirrors (prev : Pixel) (cache : Cache) (d : DecEngine) : Prop where
  noRun : d.run = 0#6
  pixel : d.px = prev
  agree : CachesAgree cache d.cache

/-- What R126 asks of ENC's cache where a RUN repeats the previous pixel: the pixel is in its slot, or it is the initial
one and slot 53 is still zero. -/
abbrev MayRepeat (cache : Cache) (prev : Pixel) : Prop :=
  cacheRead cache (pixelHash prev) = prev ∨ (prev = initPrev ∧ cacheRead cache 53 = zeroPixel)

/-- These bytes are at DEC's cursor, and the 8 bytes of the tail have room behind them. -/
structure DecEngine.Reads (d : DecEngine) (bytes : List Byte) : Prop where
  room : d.p + bytes.length + 8 ≤ d.srcLen
  srcTrue : d.srcLen ≤ d.src.size
  holds : d.src.HoldsAt d.p bytes

/-- DEC makes `n` slots of these bytes and then mirrors an ENC with these registers. -/
def Follows (s : State) (pix : Nat → Pixel) (n : Nat) (bytes : List Byte) (prev : Pixel) (cache : Cache) : Prop :=
  ∃ e, Produces s pix n e ∧ e.p = s.dec.p + bytes.length ∧ Mirrors prev cache e

theorem Memory.HoldsAt.left {m : Memory} {a : Nat} {bs cs : List Byte} (holds : m.HoldsAt a (bs ++ cs)) :
    m.HoldsAt a bs := by
  intro j hj
  rw [holds j (by rw [List.length_append]; omega), List.getD_append _ _ _ _ hj]

theorem Memory.HoldsAt.right {m : Memory} {a : Nat} {bs cs : List Byte} (holds : m.HoldsAt a (bs ++ cs)) :
    m.HoldsAt (a + bs.length) cs := by
  intro j hj
  rw [Nat.add_assoc, holds _ (by rw [List.length_append]; omega), List.getD_append_right _ _ _ _ (Nat.le_add_right ..),
    Nat.add_sub_cancel_left]

theorem DecEngine.Reads.left {d : DecEngine} {bs cs : List Byte} (reads : d.Reads (bs ++ cs)) : d.Reads bs := by
  have room := reads.room
  rw [List.length_append] at room
  exact ⟨by omega, reads.srcTrue, reads.holds.left⟩

/-- What follows the bytes consumed is at the cursor next. -/
theorem DecEngine.Reads.right {d e : DecEngine} {bs cs : List Byte} (reads : d.Reads (bs ++ cs))
    (inputs : d.SameInputs e) (p : e.p = d.p + bs.length) : e.Reads cs := by
  obtain ⟨-, -, -, srcLen, -, src⟩ := inputs
  have room := reads.room
  rw [List.length_append] at room
  refine ⟨by rw [p, srcLen]; omega, by rw [srcLen, src]; exact reads.srcTrue, ?_⟩
  rw [src, p]
  exact reads.holds.right

theorem DecEngine.Reads.fetch {d : DecEngine} {i : Instr} (reads : d.Reads (encode i)) (wf : i.wf = true) :
    d.p + 8 < d.srcLen ∧ d.fetch = .ok i := by
  have positive := (length_encode_pos_and_le i).1
  have room := reads.room
  exact ⟨by omega, DecEngine.fetch_of_encoding wf reads.holds (by omega) reads.srcTrue⟩

section follows
variable {s : State} {pix : Nat → Pixel} {prev : Pixel} {cache : Cache} (mirrors : Mirrors prev cache s.dec)

theorem Follows.trans {m n : Nat} {bs cs : List Byte} {prev' : Pixel} {cache' : Cache}
    (legal : channelsValid s.dec.channels = true) (first : Follows s pix m bs prev cache)
    (second : ∀ e, Produces s pix m e → e.p = s.dec.p + bs.length → Mirrors prev cache e →
      Follows (s.setDec e) pix n cs prev' cache') : Follows s pix (m + n) (bs ++ cs) prev' cache' := by
  obtain ⟨e, produced, p, mirrors⟩ := first
  obtain ⟨f, produced', p', mirrors'⟩ := second e produced p mirrors
  refine ⟨f, produced.trans legal produced', ?_, mirrors'⟩
  rw [p', State.setDec_dec, p, List.length_append, Nat.add_assoc]

include mirrors

theorem follows_nothing (w : s.dec.dst.wf = true) : Follows s pix 0 [] prev cache :=
  ⟨s.dec, Produces.refl w pix, rfl, mirrors⟩

/-- A RUN of `n`: the pixel `n` times, and the cache write that R126 allows. -/
theorem follows_run {n : Nat} (wf : (Instr.run n).wf = true) (reads : s.dec.Reads (encode (.run n)))
    (room : s.dec.RoomFor n) (pixels : ∀ j, s.dec.i ≤ j → j < s.dec.i + n → pix j = prev)
    (cached : MayRepeat cache prev) : Follows s pix n (encode (.run n)) prev cache := by
  obtain ⟨noRun, rfl, agree⟩ := mirrors
  obtain ⟨mayFetch, fetched⟩ := reads.fetch wf
  obtain ⟨e, produced, p, run, px, written⟩ := exists_produces_run wf room noRun mayFetch fetched pixels
  refine ⟨e, produced, p, run, px, ?_⟩
  rw [written]
  exact cachesAgree_cacheWrite agree cached

/-- The flush of a pending run (42_opcode_encoder.md R146). -/
theorem follows_flushRun {run : BitVec 6} (runLe : run.toNat ≤ 61) (reads : s.dec.Reads (encodeAll (flushRun run)))
    (room : s.dec.RoomFor run.toNat) (pixels : ∀ j, s.dec.i ≤ j → j < s.dec.i + run.toNat → pix j = prev)
    (cached : MayRepeat cache prev) : Follows s pix run.toNat (encodeAll (flushRun run)) prev cache := by
  unfold flushRun at reads ⊢
  split_ifs at reads ⊢ with none
  · subst none
    exact follows_nothing mirrors room.wf
  · have positive : run.toNat ≠ 0 := mt (toNat_eq_zero_iff run).mp none
    have wf : (Instr.run run.toNat).wf = true := (run_wf_iff _).mpr (by omega)
    rw [encodeAll_singleton] at reads ⊢
    exact follows_run mirrors wf reads room pixels cached

/-- The opcode that ENC chooses for a pixel: the slot of that pixel. -/
theorem follows_chooseOpcode {px : Pixel} (reads : s.dec.Reads (encode (chooseOpcode prev cache px).1))
    (room : s.dec.RoomFor 1) (pixel : pix s.dec.i = px) :
    Follows s pix 1 (encode (chooseOpcode prev cache px).1) px (chooseOpcode prev cache px).2 := by
  obtain ⟨noRun, rfl, agree⟩ := mirrors
  obtain ⟨mayFetch, fetched⟩ := reads.fetch (chooseOpcode_wf ..)
  obtain ⟨restored, agreeAfter⟩ := decAfter_chooseOpcode agree px
  obtain ⟨dst, produced⟩ := exists_produces_opcode (pix := pix) (room.slotOpen one_pos) noRun mayFetch fetched
    (pixel.trans restored.symm)
  exact ⟨_, produced, decAfter_p _ s.dec, (decAfter_run chooseOpcode_ne_run s.dec).trans noRun, restored, agreeAfter⟩

/-- What a step of ENC puts out, by DEC: the pixels of the pending run and the step's own, but for those that the step
leaves pending. -/
theorem follows_encodePixel {run : BitVec 6} {last : Bool} {px : Pixel} {n : Nat} (runLe : run.toNat ≤ 61)
    (reads : s.dec.Reads (encodeAll (encodePixel prev run cache last px).1)) (room : s.dec.RoomFor (run.toNat + 1))
    (pending : ∀ j, s.dec.i ≤ j → j < s.dec.i + run.toNat → pix j = prev) (pixel : pix (s.dec.i + run.toNat) = px)
    (cached : MayRepeat cache prev)
    (settled : n + (encodePixel prev run cache last px).2.1.toNat = run.toNat + 1) :
    Follows s pix n (encodeAll (encodePixel prev run cache last px).1) px
      (encodePixel prev run cache last px).2.2 := by
  obtain ⟨same, choice⟩ | ⟨same, -, -, choice⟩ | ⟨-, choice⟩ :=
    encodePixel_cases (prev := prev) (px := px) (cache := cache) (last := last) runLe <;>
    rw [choice] at reads settled ⊢
  · obtain rfl : n = run.toNat + 1 := settled
    have wf : (Instr.run (run.toNat + 1)).wf = true := (run_wf_iff _).mpr (by omega)
    rw [encodeAll_singleton] at reads ⊢
    subst same
    refine follows_run mirrors wf reads room (fun j low high => ?_) cached
    obtain before | rfl : j < s.dec.i + run.toNat ∨ j = s.dec.i + run.toNat := by omega
    · exact pending j low before
    · exact pixel
  · rw [toNat_run_succ runLe] at settled
    obtain rfl : n = 0 := by omega
    subst same
    exact follows_nothing mirrors room.wf
  · obtain rfl : n = run.toNat + 1 := settled
    rw [encodeAll_concat] at reads ⊢
    refine (follows_flushRun mirrors runLe reads.left (room.mono (Nat.le_succ _)) pending cached).trans room.legal
      fun e produced p mirrors => ?_
    exact follows_chooseOpcode mirrors (reads.right produced.stored.inputs p) (produced.stored.roomFor room)
      (by rw [State.setDec_dec, produced.stored.index, pixel])

end follows

/-! ### The stream of a running ENCODE, decoded -/

/-- The pixel that step `i` of ENC's scan reads (42_opcode_encoder.md R143). -/
def State.scanPixel (s : State) (i : Nat) : Pixel :=
  (fetchPixel s.enc.src s.enc.srcLen s.hdr.channels (sourceAddress s.hdr s.enc.flip i)).getD zeroPixel

/-- DEC's source holds what ENC has written, with room for the tail behind it. -/
structure DecEngine.Streams (d : DecEngine) (e : EncEngine) : Prop where
  room : e.o + 8 ≤ d.srcLen
  srcTrue : d.srcLen ≤ d.src.size
  bytes : ∀ a, a < e.o → d.src.byteAt a = e.dst.byteAt a

/-- The first `n` pixels of the scan are in what ENC has written, the later ones are its pending run; and every DEC at
its call start with that stream produces those `n` and then mirrors ENC. -/
def StreamDecodes (pix : Nat → Pixel) (e : EncEngine) (n : Nat) : Prop :=
  n + e.run.toNat = e.i ∧ (∀ j, n ≤ j → j < e.i → pix j = e.prev) ∧
    ∀ v : State, v.dec.callStart = v.dec → v.dec.RoomFor e.i → v.dec.Streams e →
      ∃ d, Produces v pix n d ∧ d.p = e.o ∧ Mirrors e.prev e.cache d

/-- Before the first pixel DEC stands behind the header. -/
theorem streamDecodes_start (pix : Nat → Pixel) (e : EncEngine) (dst : Memory) :
    StreamDecodes pix (e.callStart.emitted dst headerLen) 0 := by
  refine ⟨rfl, fun j _ high => absurd high (Nat.not_lt_zero j), fun v start room _ =>
    ⟨v.dec, Produces.refl room.wf pix, ?_⟩⟩
  rw [← start]
  exact ⟨rfl, rfl, rfl, fun _ => .inl rfl⟩

/-- 42_opcode_encoder.md R158 (d). -/
theorem EncEngine.PrevCached.mayRepeat {e : EncEngine} (cached : e.PrevCached) : MayRepeat e.cache e.prev :=
  cached.imp_right fun ⟨prev, cache⟩ => ⟨prev, by rw [cache, cacheRead_initCache]⟩

section step
variable {s t : State} {px : Pixel} {bytes : List Byte} {run : BitVec 6} {cache : Cache}
  (did : PixelDid s t px bytes run cache)
include did

theorem PixelDid.registers :
    t.enc.prev = px ∧ t.enc.run = run ∧ t.enc.cache = cache ∧ t.enc.i = s.enc.i + 1 ∧
      t.enc.o = s.enc.o + bytes.length := by
  obtain ⟨step, -⟩ := did
  rw [step]
  exact ⟨rfl, rfl, rfl, rfl, rfl⟩

/-- What ENC had written before a step is the front of what it has written after it. -/
theorem PixelDid.streams_before {d : DecEngine} (streams : d.Streams t.enc) : d.Streams s.enc := by
  obtain ⟨-, -, -, -, o⟩ := did.registers
  obtain ⟨-, -, -, -, -, kept⟩ := did
  have room := streams.room
  exact ⟨by omega, streams.srcTrue, fun a before => (streams.bytes a (by omega)).trans (kept a (.inl before))⟩

/-- A DEC that has come to the end of what ENC had written before a step reads the bytes of that step next. -/
theorem PixelDid.reads {d e : DecEngine} (streams : d.Streams t.enc) (inputs : d.SameInputs e) (p : e.p = s.enc.o) :
    e.Reads bytes := by
  obtain ⟨-, -, -, -, o⟩ := did.registers
  obtain ⟨-, written, -⟩ := did
  obtain ⟨-, -, -, srcLen, -, src⟩ := inputs
  have room := streams.room
  refine ⟨by rw [p, srcLen]; omega, by rw [srcLen, src]; exact streams.srcTrue, fun j hj => ?_⟩
  rw [src, p, streams.bytes _ (by omega)]
  exact written j hj

end step

/-- One pixel more: DEC follows the bytes that the step appends. -/
theorem streamDecodes_step {s t : State} {pix : Nat → Pixel} {n : Nat} (decodes : StreamDecodes pix s.enc n)
    (runLe : s.enc.run.toNat ≤ 61) (cached : s.enc.PrevCached)
    (did : PixelDid s t (pix s.enc.i) (encodeAll (s.encChoice (pix s.enc.i)).1) (s.encChoice (pix s.enc.i)).2.1
      (s.encChoice (pix s.enc.i)).2.2) :
    ∃ n, StreamDecodes pix t.enc n := by
  obtain ⟨count, pending, follow⟩ := decodes
  obtain ⟨prev, run, cache, i, o⟩ := did.registers
  have runCases : (s.encChoice (pix s.enc.i)).2.1.toNat = 0 ∨
    (pix s.enc.i = s.enc.prev ∧ (s.encChoice (pix s.enc.i)).2.1.toNat = s.enc.run.toNat + 1) :=
    encodePixel_run_cases runLe
  obtain ⟨m, settled⟩ : ∃ m, m + (s.encChoice (pix s.enc.i)).2.1.toNat = s.enc.run.toNat + 1 :=
    ⟨_, Nat.sub_add_cancel (by omega)⟩
  refine ⟨n + m, by rw [run, i]; omega, fun j low high => ?pending, fun v start room streams => ?follow⟩
  case pending =>
    rw [prev]
    obtain before | rfl : j < s.enc.i ∨ j = s.enc.i := by omega
    · obtain noRun | ⟨same, -⟩ := runCases
      · omega
      · rw [same, pending j (by omega) before]
    · rfl
  case follow =>
    rw [i] at room
    obtain ⟨d, produced, p, mirrors⟩ := follow v start (room.mono (Nat.le_succ _)) (did.streams_before streams)
    have index : d.i = n := by rw [produced.stored.index, ← start]; exact Nat.zero_add n
    have here : d.i + s.enc.run.toNat = s.enc.i := by rw [index, count]
    have stillPending : ∀ j, d.i ≤ j → j < d.i + s.enc.run.toNat → pix j = s.enc.prev := by
      rw [here, index]
      exact pending
    have reads := did.reads streams produced.stored.inputs p
    have roomNow : d.RoomFor (s.enc.run.toNat + 1) := produced.stored.roomFor (room.mono (by omega))
    obtain ⟨e, produced', p', mirrors'⟩ := follows_encodePixel (s := v.setDec d) (pix := pix) mirrors runLe reads
      roomNow stillPending (congrArg pix here) cached.mayRepeat settled
    rw [prev, cache, o, ← p]
    exact ⟨e, produced.trans room.legal produced', p', mirrors'⟩

/-! ### ENC's run -/

theorem scanPixel_of_encFetch {s : State} {px : Pixel} (fetched : s.encFetch = some px) : s.scanPixel s.enc.i = px := by
  change s.encFetch.getD zeroPixel = px
  rw [fetched]
  rfl

theorem scanPixel_setEnc (s : State) {e : EncEngine} (same : s.enc.SameInputs e) :
    (s.setEnc e).scanPixel = s.scanPixel := by
  obtain ⟨flip, srcLen, -, src⟩ := same
  funext i
  simp only [State.scanPixel, State.setEnc_enc, State.setEnc_hdr, flip, srcLen, src]

theorem pixelDue_of_encRunning {s : State} {px : Pixel} (running : EncRunning s.hdr s.enc) (busy : s.enc.busy = true)
    (left : s.enc.i < s.encPixels) (fetched : s.encFetch = some px) (w : s.enc.dst.wf = true) : s.PixelDue px := by
  have room := emit_room_of_encRunning running busy left fetched
  exact ⟨busy, left, fetched, by omega, dstCap_le_of_encRunning running busy, w⟩

/-- ENC in an ENCODE of this header with `k` pixels of the scan `pix` encoded, in a stream that decodes to them. -/
structure StreamEncoded (h : Header) (pix : Nat → Pixel) (k : Nat) (s : State) : Prop where
  encoded : PixelsEncoded h k s
  inv : s.Inv
  scan : s.scanPixel = pix
  cached : s.enc.PrevCached
  decodes : ∃ n, StreamDecodes pix s.enc n

theorem encodeStart_streamEncoded {s : State} (inv : s.Inv) (accepted : launchRefusal .encode s = none)
    (check : encodeCheck s.hdr s.enc.srcLen s.enc.dstCap = none) :
    ∃ t, encodeStart s = .next t ∧ StreamEncoded s.hdr s.scanPixel 0 t := by
  obtain ⟨t, started, encoded⟩ := encodeStart_pixelsEncoded accepted check
  have keptInv := encodeStart_keeps_inv accepted started inv
  have cached := encodeStart_prevCached started encoded.busy
  obtain ⟨c, failed, -⟩ | ⟨-, e, emitted, rfl⟩ := encodeStart_next started
  · cases check.symm.trans failed
  · have same := EncEngine.emit_sameInputs emitted
    have scan : (s.setEnc e).scanPixel = s.scanPixel := scanPixel_setEnc s same
    obtain ⟨-, -, rfl⟩ := EncEngine.emit_some emitted
    exact ⟨_, started, encoded, keptInv, scan, cached, 0, streamDecodes_start ..⟩

section streamed
variable {h : Header} {pix : Nat → Pixel} {k : Nat} {s : State}

theorem StreamEncoded.step (streamed : StreamEncoded h pix k s) (left : k < pixelCount h.width h.height) :
    ∃ t, encodeStep s = .next t ∧ StreamEncoded h pix (k + 1) t := by
  obtain ⟨encoded, inv, rfl, cached, n, decodes⟩ := streamed
  obtain ⟨t, moved, encoded'⟩ := encoded.step left
  obtain ⟨rfl, running, busy, rfl, -⟩ := encoded
  obtain ⟨px, fetched⟩ := encFetch_of_encRunning running busy left
  obtain rfl := scanPixel_of_encFetch fetched
  obtain ⟨-, -, -, -, runLe, -⟩ := running busy
  obtain ⟨-, wf⟩ := (State.engine_spaces_of_inv inv).1
  obtain ⟨t', moved', did⟩ := encodeStep_of_pixelDue (pixelDue_of_encRunning running busy left fetched wf) runLe
  cases moved.symm.trans moved'
  have scan : t.scanPixel = s.scanPixel := by
    obtain ⟨e, rfl, same⟩ := encodeStep_sameInputs moved
    exact scanPixel_setEnc s same
  exact ⟨t, moved, encoded', encodeStep_keeps_inv moved inv, scan,
    encodeStep_keeps_prevCached moved (fun _ => cached) encoded'.busy, streamDecodes_step decodes runLe cached did⟩

theorem StreamEncoded.exists_moves (streamed : StreamEncoded h pix 0 s) (le : k ≤ pixelCount h.width h.height) :
    ∃ t, moves encodeStep k s = .next t ∧ StreamEncoded h pix k t := by
  induction k with
  | zero => exact ⟨s, rfl, streamed⟩
  | succ k ih =>
    obtain ⟨t, reached, here⟩ := ih (Nat.le_of_succ_le le)
    obtain ⟨u, moved, there⟩ := here.step le
    exact ⟨u, (moves_succ reached).trans moved, there⟩

/-- With every pixel encoded no run is pending: DEC makes all of them of the stream. -/
theorem StreamEncoded.decodes_all (streamed : StreamEncoded h pix (pixelCount h.width h.height) s) :
    StreamDecodes pix s.enc (pixelCount h.width h.height) := by
  obtain ⟨⟨rfl, running, busy, count, -⟩, -, -, -, n, decodes⟩ := streamed
  obtain ⟨-, -, -, -, -, -, -, noRun, -⟩ := running busy
  obtain rfl : n = pixelCount s.hdr.width s.hdr.height := by
    have all := decodes.1
    rw [noRun count, count] at all
    exact all
  exact decodes

/-- The tail keeps the stream before it. -/
theorem StreamEncoded.tail (streamed : StreamEncoded h pix (pixelCount h.width h.height) s)
    (nonempty : 0 < pixelCount h.width h.height) :
    ∃ t, encodeStep s = .next t ∧ t.enc.busy = false ∧ t.enc.status = .ok ∧ 23 ≤ t.enc.outLen ∧
      t.enc.outLen = s.enc.o + 8 ∧ ∀ a, a < s.enc.o → t.enc.dst.byteAt a = s.enc.dst.byteAt a := by
  obtain ⟨encoded, inv, -⟩ := streamed
  obtain ⟨t, moved, idle, status, long, -⟩ := encoded.tail nonempty
  obtain ⟨rfl, running, busy, count, -⟩ := encoded
  have done : s.encPixels ≤ s.enc.i := count.ge
  obtain ⟨-, wf⟩ := (State.engine_spaces_of_inv inv).1
  obtain ⟨t', moved', registers, -, -, -, -, kept⟩ := encodeTailWritesTheEndMarker s busy done
    (tail_room_of_encRunning running busy done) (dstCap_le_of_encRunning running busy) wf
  cases moved.symm.trans moved'
  exact ⟨t, moved, idle, status, long, by rw [registers]; rfl, fun a before => kept a (.inl before)⟩

end streamed

/-! ### The image (R199) -/

/-- The bytes of a scanned pixel are the source's at its address (20_memory.md R54). -/
theorem source_holdsAt_scanPixel {s : State} {i : Nat} (legal : channelsValid s.hdr.channels = true)
    (inside : sourceAddress s.hdr s.enc.flip i + s.hdr.channels.toNat ≤ s.enc.srcLen)
    (srcTrue : s.enc.srcLen ≤ s.enc.src.size) :
    s.enc.src.HoldsAt (sourceAddress s.hdr s.enc.flip i) (pixelBytes s.hdr.channels (s.scanPixel i)) := by
  rw [State.scanPixel, fetchPixel_inside legal inside srcTrue, Option.getD_some]
  unfold pixelBytes
  split_ifs
  · intro j (hj : j < 4)
    interval_cases j <;> rfl
  · intro j (hj : j < 3)
    interval_cases j <;> rfl

/-- A DEC started on ENC's stream with the header's triple makes every pixel of the scan and ends well behind the last
opcode. -/
theorem StreamEncoded.decoded {h : Header} {pix : Nat → Pixel} {s u : State} {d : DecEngine}
    (streamed : StreamEncoded h pix (pixelCount h.width h.height) s) (width : d.width = h.width)
    (height : d.height = h.height) (legal : channelsValid d.channels = true) (streams : d.Streams s.enc)
    (capacity : rawLength d.width d.height d.channels ≤ d.dstCap) (dstTrue : d.dstCap ≤ d.dst.size)
    (w : d.dst.wf = true) :
    ∃ e, moves decodeStep (pixelCount h.width h.height + 1) (u.setDec d.callStart) = .next (u.setDec e) ∧
      e.ok = true ∧ e.busy = false ∧ e.p = s.enc.o ∧ e.run = 0#6 ∧
      ∀ i, i < pixelCount h.width h.height →
        e.dst.HoldsAt (i * d.channels.toNat) (pixelBytes d.channels (pix i)) := by
  obtain ⟨-, -, decodes⟩ := streamed.decodes_all
  obtain ⟨⟨rfl, -, -, count, -⟩, -⟩ := streamed
  have pixels : d.callStart.pixels = pixelCount s.hdr.width s.hdr.height := by
    change pixelCount d.width d.height = _
    rw [width, height]
  have room : d.callStart.RoomFor s.enc.i :=
    { busy := rfl
      left := by rw [pixels, count]; exact (Nat.zero_add _).le
      legal := legal
      capacity := capacity
      dstTrue := dstTrue
      wf := w }
  have started : d.callStart.Streams s.enc := ⟨streams.room, streams.srcTrue, streams.bytes⟩
  obtain ⟨e, produced, p, mirrors⟩ := decodes (u.setDec d.callStart) rfl room started
  have index : e.i = pixelCount s.hdr.width s.hdr.height := produced.stored.index.trans (Nat.zero_add _)
  have done : e.pixels ≤ e.i := by rw [produced.stored.pixels, State.setDec_dec, pixels, index]
  have ended := decodeStep_of_no_slot_left (s := u.setDec e) produced.stored.busy done
  exact ⟨e.finish, (moves_succ produced.moved).trans ended, rfl, rfl, p, mirrors.noRun,
    fun i inside => produced.stored.holds i (Nat.zero_le i) (inside.trans_eq (Nat.zero_add _).symm)⟩

/-- Settles O57: ENC's run keeps `StreamEncoded`, whose stream every DEC decodes to the scanned pixels; the scan of row
`y` is the source's row. -/
theorem decodedImageIsTheEncodedImage : Obligations.DecodedImageIsTheEncodedImage := by
  intro s inv accepted check
  obtain ⟨valid, raw, -⟩ := (encodeCheck_none_iff _ _ _).mp check
  obtain ⟨dims, legal, -⟩ := (hdrValid_iff _).mp valid
  obtain ⟨srcTrue, -⟩ := encode_lengthsTrue accepted
  obtain ⟨t, started, start⟩ := encodeStart_streamEncoded inv accepted check
  obtain ⟨s', reached, streamed⟩ := start.exists_moves (le_refl _)
  obtain ⟨u, moved, idle, status, long, outLen, kept⟩ := streamed.tail (pixelCount_pos_of_hdrValid valid)
  have issued : issueCommand .encode s = .next t := by
    simp only [issueCommand, accepted, runCommand, started]
  refine ⟨t, u, issued, (moves_succ reached).trans moved, idle, status,
    fun d _ width height channels srcLen dSrcTrue same capacity dstTrue w => ?_⟩
  have dLegal : channelsValid d.channels = true := channels ▸ legal
  have dLong : minStreamLen ≤ d.srcLen := by rw [srcLen]; exact (Nat.le_succ _).trans long
  have passed := (decodeCheck_none_iff ..).mpr ⟨dLong, by rw [width, height]; exact dims, dLegal, capacity⟩
  have streams : d.Streams s'.enc :=
    ⟨by omega, dSrcTrue, fun a before => (same a (by omega)).trans (kept a before)⟩
  obtain ⟨e, ended, ok, decIdle, p, noRun, holds⟩ :=
    streamed.decoded (u := u) width height dLegal streams capacity dstTrue w
  refine ⟨_, _, decodeStart_of_passed (s := u.setDec d) passed, ended, ok, decIdle, by rw [State.setDec_dec, p, outLen],
    noRun, fun x y j column row byte => ?_⟩
  have pixel : y * s.hdr.width.toNat + x < pixelCount s.hdr.width s.hdr.height :=
    calc y * s.hdr.width.toNat + x < (y + 1) * s.hdr.width.toNat := by rw [Nat.succ_mul]; omega
      _ ≤ s.hdr.height.toNat * s.hdr.width.toNat := Nat.mul_le_mul_right _ row
      _ = pixelCount s.hdr.width s.hdr.height := Nat.mul_comm _ _
  have source := source_holdsAt_scanPixel (i := y * s.hdr.width.toNat + x) legal
    ((sourceAddress_add_channels_le s.enc.flip pixel).trans raw) srcTrue
  have decoded := holds _ pixel
  rw [channels] at decoded
  rw [← length_pixelBytes_of_valid legal (s.scanPixel (y * s.hdr.width.toNat + x))] at byte
  rw [sourceAddress_of_row_column s.enc.flip y column] at source
  exact (decoded j byte).trans (source j byte).symm

end Sys2Proof.Machine
end

section
/-! PROOFS. 60_exceptions.md: what raising each cause leaves (R221, R223), and which launches are refused (R232;
70_reset_and_hazards.md R252). -/

namespace Sys2Proof.Machine

/-! ### Raising a failure (R221, R223) -/

theorem raiseFailure_of_encodeHeader {c : Cause} (hc : c.command = .encodeHeader) (s : State) :
    raiseFailure c s = s.setHe (s.he.fail c.status) := by
  simp [raiseFailure, hc]

theorem raiseFailure_of_decodeHeader {c : Cause} (hc : c.command = .decodeHeader) (s : State) :
    raiseFailure c s = s.setHd (s.hd.fail c.status) := by
  simp [raiseFailure, hc]

/-- 40_header_serializer.md R110: MAX_SIZE has no check. -/
theorem Cause.command_ne_maxSize (c : Cause) : c.command ≠ .maxSize := by
  cases c <;> simp [Cause.command]

/-- Settles O47: a cause fails the unit of its command, and each unit's failure leaves its sentinel and the status. -/
theorem failureSetsSentinelAndStatus : Obligations.FailureSetsSentinelAndStatus := by
  intro s canonical encTrue decTrue
  obtain ⟨-, encDst, -, decDst, -, -⟩ := canonical
  refine ⟨fun c hc => ?encode, fun c hc => ?decode, fun c hc => raiseFailure_of_encodeHeader hc s,
    fun c hc => ?decodeHeader, Cause.command_ne_maxSize, rfl, rfl, rfl, rfl⟩
  case encode =>
    rw [raiseFailure_of_encode hc]
    exact encodeFailed_of_fail encDst encTrue c.status
  case decode =>
    rw [raiseFailure_of_decode hc]
    exact decodeFailed_of_fail decDst decTrue c.status
  case decodeHeader =>
    rw [raiseFailure_of_decodeHeader hc]
    exact ⟨rfl, rfl, rfl, rfl, rfl⟩

/-! ### The tests of a launch (R232; 70_reset_and_hazards.md R252) -/

/-- The space a launch is refused for has a length above its size (duty 4). -/
theorem firstUntrue_some {lengths : List (SpaceName × Nat × Nat)} {sp : SpaceName}
    (untrue : firstUntrue lengths = some sp) : ∃ len size, (sp, len, size) ∈ lengths ∧ size < len := by
  induction lengths with
  | nil => cases untrue
  | cons entry rest ih =>
    simp only [firstUntrue] at untrue
    split at untrue
    next above =>
      cases untrue
      exact ⟨_, _, List.mem_cons_self, above⟩
    next =>
      obtain ⟨len, size, mem, above⟩ := ih untrue
      exact ⟨len, size, List.mem_cons_of_mem _ mem, above⟩

/-- A length above the size of its buffer is found. -/
theorem exists_firstUntrue {lengths : List (SpaceName × Nat × Nat)} {sp : SpaceName} {len size : Nat}
    (mem : (sp, len, size) ∈ lengths) (above : size < len) : ∃ sp', firstUntrue lengths = some sp' := by
  rw [← Option.ne_none_iff_exists', ne_eq, firstUntrue_none_iff]
  exact fun lengthsTrue => Nat.not_le.mpr above (lengthsTrue _ mem)

/-- Duty 2. -/
theorem untrueContent_encode {s : State} (untrue : ¬ s.ContentTrue .encode) :
    s.untrueContent .encode = some .channelsNotTrue := by
  rw [← untrueContent_none] at untrue
  simp only [State.untrueContent] at untrue ⊢
  split at untrue
  next contradicted => exact if_pos contradicted
  next => exact absurd rfl untrue

/-- Duty 7. -/
theorem untrueContent_decode {s : State} (untrue : ¬ s.ContentTrue .decode) :
    s.untrueContent .decode = some .streamLengthNotTrue := by
  rw [← untrueContent_none] at untrue
  simp only [State.untrueContent] at untrue ⊢
  split at untrue
  next => exact absurd rfl untrue
  next contradicted => exact if_neg contradicted

/-- 20_memory.md R64 (c), pair by pair of extents. -/
theorem State.independent_iff_pairs (s : State) (reads writes : List (Nat × Nat)) :
    s.independent reads writes = true ↔
      ∀ x y, (x ∈ reads ∧ y ∈ writes ++ s.liveWrites ∨ x ∈ writes ∧ y ∈ s.liveReads ++ s.liveWrites) →
        extentsMeet x y = false := by
  rw [State.independent_iff]
  constructor
  · rintro ⟨readsApart, writesApart⟩ x y (⟨hx, hy⟩ | ⟨hx, hy⟩)
    · exact readsApart x hx y hy
    · exact writesApart x hx y hy
  · exact fun apart => ⟨fun x hx y hy => apart x y (.inl ⟨hx, hy⟩), fun x hx y hy => apart x y (.inr ⟨hx, hy⟩)⟩

/-! ### What issuing a command answers, test by test -/

section launch
variable {c : Command} {s : State}

theorem issueCommand_of_busy (busy : s.engineBusy c = true) : issueCommand c s = .refused (.engineBusy c) := by
  simp [issueCommand, launchRefusal, busy]

variable (idle : s.engineBusy c = false)
include idle

theorem issueCommand_of_untrueLength {sp : SpaceName} (untrue : firstUntrue (s.statedLengths c) = some sp) :
    issueCommand c s = .refused (.lengthNotTrue sp) := by
  simp [issueCommand, launchRefusal, idle, untrue]

variable (lengths : firstUntrue (s.statedLengths c) = none)
include lengths

theorem issueCommand_of_untrueContent {r : Refusal} (untrue : s.untrueContent c = some r) :
    issueCommand c s = .refused r := by
  simp [issueCommand, launchRefusal, idle, lengths, untrue]

variable (content : s.ContentTrue c)
include content

theorem issueCommand_of_overlap (overlap : s.independent (s.readsOf c) (s.writesOf c) = false) :
    issueCommand c s = .refused (.overlap c) := by
  simp [issueCommand, launchRefusal, idle, lengths, (untrueContent_none c s).mpr content, overlap]

theorem issueCommand_of_accepted (apart : s.independent (s.readsOf c) (s.writesOf c) = true) :
    issueCommand c s = runCommand c s := by
  simp [issueCommand, launchRefusal, idle, lengths, (untrueContent_none c s).mpr content, apart]

end launch

/-- Settles O49: each test decides once those before it have passed, and a launch that passes all runs its command. -/
theorem launchesRefusedExactlyWhen : Obligations.LaunchesRefusedExactlyWhen := by
  intro c s
  refine ⟨issueCommand_of_busy, fun idle untrue => ?length, fun idle lengthsTrue => ?content⟩
  case length =>
    obtain ⟨_, _, _, mem, above⟩ := untrue
    obtain ⟨sp, found⟩ := exists_firstUntrue mem above
    obtain ⟨len, size, mem, above⟩ := firstUntrue_some found
    exact ⟨sp, len, size, mem, above, issueCommand_of_untrueLength idle found⟩
  case content =>
    have lengths := (firstUntrue_none_iff _).mpr fun entry mem => lengthsTrue _ _ _ mem
    refine ⟨fun encode untrue => ?channels, fun decode untrue => ?stream, fun content => ⟨fun meet => ?overlap,
      fun apart => issueCommand_of_accepted idle lengths content ((s.independent_iff_pairs _ _).mpr apart)⟩⟩
    case channels =>
      subst encode
      exact issueCommand_of_untrueContent idle lengths (untrueContent_encode untrue)
    case stream =>
      subst decode
      exact issueCommand_of_untrueContent idle lengths (untrueContent_decode untrue)
    case overlap =>
      obtain ⟨x, y, pair, meets⟩ := meet
      have dependent : ¬ s.independent (s.readsOf c) (s.writesOf c) = true := fun independent =>
        Bool.false_ne_true (((s.independent_iff_pairs _ _).mp independent x y pair).symm.trans meets)
      exact issueCommand_of_overlap idle lengths content (Bool.eq_false_iff.mpr dependent)

end Sys2Proof.Machine
end
